-- ==== Sys2Proof/Word.lean ====
section
/-! DEFINITION. The register word, the byte, and the pixel (00_scope.md R17, 10_state.md R22, 20_memory.md R61). -/

namespace Sys2Proof

/-- A register is 32 bits wide (R22). -/
abbrev Word := BitVec 32

/-- The smallest addressable unit of host memory (R60). -/
abbrev Byte := BitVec 8

/-- A Pixel: four channels, each in 0..255 (R17). `==` on pixels (R18) is equality of this record. -/
structure Pixel where
  r : Byte
  g : Byte
  b : Byte
  a : Byte
  deriving DecidableEq, Repr

/-- The four bytes of a pixel in increasing address order (R61). -/
def pixelBytes (p : Pixel) : List Byte := [p.r, p.g, p.b, p.a]

end Sys2Proof
end

