-- ==== Sys2Proof/Config.lean ====
section
/-! DEFINITION. What a built instance fixes, and the values the spec leaves open.

The opaque constants have no body: nothing proved about the model can rest on their values. -/

namespace Sys2Proof

/-- LUT_BITS is 5 or 8 (R8). -/
inductive LutBits where
  | five
  | eight
  deriving DecidableEq, Repr

/-- A non-negative exact rational of a build, as plain data: num / den (R10, R11). -/
structure Ratio where
  num : Nat
  den : Nat
  deriving DecidableEq, Repr

/-- The luma-chroma coefficients KR, KB and LUMA_WEIGHT; KG is 1 − KR − KB (R10). -/
structure Coefficients where
  kR : Ratio
  kB : Ratio
  lumaWeight : Ratio
  deriving DecidableEq, Repr

/-- The classifier constants CENTER_WEIGHT, DOMINANT_THRESHOLD, STEEP_THRESHOLD and EQUAL_TOLERANCE (R11). -/
structure Thresholds where
  centerWeight : Ratio
  dominant : Ratio
  steep : Ratio
  equalTolerance : Ratio
  deriving DecidableEq, Repr

/-- A catalogue operation (i, j, M/D) in the rotated frame: M is `num`, D is `den` (R200). -/
structure CatOp where
  i : Nat
  j : Nat
  num : Nat
  den : Nat
  deriving DecidableEq, Repr

/-- The lists of one factor, one for each pattern but NONE (R201). -/
structure PatternLists where
  corner : List CatOp
  diagonal : List CatOp
  shallow : List CatOp
  steep : List CatOp
  steepAndShallow : List CatOp
  deriving DecidableEq, Repr

/-- BLEND_CATALOGUE: the lists of the factors 2 to 6 (R12, R201). -/
structure Catalogue where
  two : PatternLists
  three : PatternLists
  four : PatternLists
  five : PatternLists
  six : PatternLists
  deriving DecidableEq, Repr

/-- The configuration of a built instance, a parameter of the step relation (R21): LUT_BITS (R8), LUT_STATIC (R14), and the
build-time constants of R10, R11 and R12 (U22). FRAC_BITS is 8 in every build (R9). Log entries 1 and 16. -/
structure Build where
  lutBits : LutBits
  lutStatic : Bool
  coefficients : Coefficients
  thresholds : Thresholds
  catalogue : Catalogue
  deriving DecidableEq, Repr

namespace Config

/-- REG_BASE, the platform's base address of the register window: OPEN (R70). Log entry 2. -/
opaque regBase : Word

/-- IRQ_LINE, how the platform routes `irq`: OPEN (R320). Log entry 2. -/
opaque irqLine : Nat

/-- The unspecified contents of LUT entry `k` before the first fill (R42, U1). Log entry 6. -/
opaque lutPowerOn : Nat → Word

/-- Which of the values a source byte had during a job the engine reads, if the host wrote that byte during
the job (R74, U8). Arguments: the draw counter and the address. Log entry 7. -/
opaque sourceRace : Nat → Nat → Nat

/-- The output byte of a job whose source the host wrote during the job: unconstrained (R74, U8). Log entry 8. -/
opaque racedOutput : Nat → Nat → Byte

/-- The word an entry holds in a build whose coefficients give an E(k) that does not fit 32 bits: no rule gives it. Argument: that
E(k). Log entry 25. -/
opaque wideEntry : Nat → Word

/-- Which value a host load of a byte the running job writes returns (R75, U9, U11). Log entry 9. -/
opaque loadRace : Nat → Nat → Nat

/-- Whether the job's byte stays when the host stores to a byte the running job has already written
(R347, U10). Log entry 10. -/
opaque storeRace : Nat → Nat → Bool

/-- Whether the host's byte stays when the running job writes a byte that the host stored to during the job
(R347, U10). Log entry 10. -/
opaque writeRace : Nat → Nat → Bool

/-- Which value a byte of the rows of a SCALE job holds after a reset that ends the job (R341, U13). Log entry 11. -/
opaque tornRace : Nat → Nat → Nat

end Config

end Sys2Proof
end

