-- ==== Sys2Proof/Machine/Constants.lean ====
section
/-! DEFINITION. FRAC_BITS, ADDR_BITS and the factors, the same in every build, and the values the spec gives the build-time constants
(00_scope.md R9 to R13, R15). -/

namespace Sys2Proof.Machine

/-- LUT_BITS as a number (R8). -/
def lutWidth : LutBits → Nat
  | .five => 5
  | .eight => 8

/-- The configuration string XBRZ_CORE-L<LUT_BITS> (R2). -/
def configString (b : LutBits) : String := "XBRZ_CORE-L" ++ toString (lutWidth b)

/-- FRAC_BITS (R9). -/
def fracBits : Nat := 8

/-- The rational a ratio stands for. -/
def ratioValue (r : Ratio) : ℚ := (r.num : ℚ) / (r.den : ℚ)

/-- KG = 1 − KR − KB (R10). -/
def coeffKG (c : Coefficients) : ℚ := 1 - ratioValue c.kR - ratioValue c.kB

/-- The values R10 gives: KR = 2627/10000, KB = 593/10000, LUMA_WEIGHT = 1. -/
def defaultCoefficients : Coefficients := { kR := ⟨2627, 10000⟩, kB := ⟨593, 10000⟩, lumaWeight := ⟨1, 1⟩ }

/-- The values R11 gives: CENTER_WEIGHT = 4, DOMINANT_THRESHOLD = 36/10, STEEP_THRESHOLD = 22/10, EQUAL_TOLERANCE = 30. -/
def defaultThresholds : Thresholds :=
  { centerWeight := ⟨4, 1⟩, dominant := ⟨36, 10⟩, steep := ⟨22, 10⟩, equalTolerance := ⟨30, 1⟩ }

/-- The host memory has 2^ADDR_BITS bytes, ADDR_BITS = 32 (R13, R60). -/
def addrSpace : Nat := 2 ^ 32

/-- The supported scale factors (R15). -/
def supportedFactors : List Nat := [2, 3, 4, 5, 6]

end Sys2Proof.Machine
end

