-- ==== Sys2Proof/Machine/Operands.lean ====
section
/-! DEFINITION. Operand and result formats (30_encoding.md R97 to R104): packed pixel, blend type, blend pattern,
blend signature, resolved-pattern word. -/

namespace Sys2Proof.Machine

/-- `unpack(v) = (v[7:0], v[15:8], v[23:16], v[31:24])` (R97). -/
def unpack (v : Word) : Pixel :=
  { r := v.extractLsb' 0 8, g := v.extractLsb' 8 8, b := v.extractLsb' 16 8, a := v.extractLsb' 24 8 }

/-- The packed pixel of a pixel: R in bits 7:0, A in bits 31:24 (R97). -/
def pack (p : Pixel) : Word := p.a ++ p.b ++ p.g ++ p.r

/-- `unpack4([b0, b1, b2, b3])`: a pixel from its bytes in increasing address order (R61, R151). -/
def unpack4 (b0 b1 b2 b3 : Byte) : Pixel := { r := b0, g := b1, b := b2, a := b3 }

/-- A blend type (R101). Code 3 is never produced and has no constructor. -/
inductive BlendType where
  | none
  | normal
  | dominant
  deriving DecidableEq, Repr

/-- The 2-bit code of a blend type (R101). -/
def blendCode : BlendType → BitVec 2
  | .none => 0#2
  | .normal => 1#2
  | .dominant => 2#2

/-- A blend pattern (R102). Codes 6 and 7 are never produced and have no constructor. -/
inductive Pattern where
  | none
  | corner
  | diagonal
  | shallow
  | steep
  | steepAndShallow
  deriving DecidableEq, Repr

/-- The 3-bit code of a blend pattern (R102). -/
def patternCode : Pattern → BitVec 3
  | .none => 0#3
  | .corner => 1#3
  | .diagonal => 2#3
  | .shallow => 3#3
  | .steep => 4#3
  | .steepAndShallow => 5#3

/-- The blend signature: TL in bits 1:0, TR in 3:2, BR in 5:4, BL in 7:6 (R103). -/
def packSignature (tl tr br bl : BlendType) : BitVec 8 :=
  blendCode bl ++ blendCode br ++ blendCode tr ++ blendCode tl

/-- S[1:0], the top-left corner's code (R103). -/
def sigTL (s : BitVec 8) : Nat := (s.extractLsb' 0 2).toNat

/-- S[3:2], the top-right corner's code (R103). -/
def sigTR (s : BitVec 8) : Nat := (s.extractLsb' 2 2).toNat

/-- S[5:4], the bottom-right corner's code (R103). -/
def sigBR (s : BitVec 8) : Nat := (s.extractLsb' 4 2).toNat

/-- S[7:6], the bottom-left corner's code (R103). -/
def sigBL (s : BitVec 8) : Nat := (s.extractLsb' 6 2).toNat

/-- A nibble of the resolved-pattern word: the pattern code in bits 2:0, the partner select in bit 3, 0 when the
pattern is NONE (R104, R199). -/
def patternNibble (p : Pattern) (sel : Bool) : BitVec 4 :=
  BitVec.ofBool (sel && p ≠ .none) ++ patternCode p

/-- The resolved-pattern word: nibble r in bits [4r+3 : 4r] (R104, R199). -/
def packPatternWord (n0 n1 n2 n3 : BitVec 4) : BitVec 16 := n3 ++ n2 ++ n1 ++ n0

end Sys2Proof.Machine
end

