-- ==== Sys2Proof/Machine/Catalogue.lean ====
section
/-! DEFINITION. The blend catalogue (43_blend_resolver.md R200 to R209), the build-time constant table of 00_scope.md R12, and
what a build is. -/

namespace Sys2Proof.Machine

/-- The blend fraction M/D (R200). -/
def catFraction (o : CatOp) : ℚ := (o.num : ℚ) / (o.den : ℚ)

/-- CATALOGUE[2] (R205). -/
def catalogue2 : PatternLists where
  corner := [⟨1, 1, 21, 100⟩]
  diagonal := [⟨1, 1, 1, 2⟩]
  shallow := [⟨1, 0, 1, 4⟩, ⟨1, 1, 3, 4⟩]
  steep := [⟨0, 1, 1, 4⟩, ⟨1, 1, 3, 4⟩]
  steepAndShallow := [⟨1, 0, 1, 4⟩, ⟨0, 1, 1, 4⟩, ⟨1, 1, 5, 6⟩]

/-- CATALOGUE[3] (R206). -/
def catalogue3 : PatternLists where
  corner := [⟨2, 2, 45, 100⟩]
  diagonal := [⟨1, 2, 1, 8⟩, ⟨2, 1, 1, 8⟩, ⟨2, 2, 7, 8⟩]
  shallow := [⟨2, 0, 1, 4⟩, ⟨1, 2, 1, 4⟩, ⟨2, 1, 3, 4⟩, ⟨2, 2, 1, 1⟩]
  steep := [⟨0, 2, 1, 4⟩, ⟨2, 1, 1, 4⟩, ⟨1, 2, 3, 4⟩, ⟨2, 2, 1, 1⟩]
  steepAndShallow := [⟨2, 0, 1, 4⟩, ⟨0, 2, 1, 4⟩, ⟨2, 1, 3, 4⟩, ⟨1, 2, 3, 4⟩, ⟨2, 2, 1, 1⟩]

/-- CATALOGUE[4] (R207). -/
def catalogue4 : PatternLists where
  corner := [⟨3, 3, 68, 100⟩, ⟨3, 2, 9, 100⟩, ⟨2, 3, 9, 100⟩]
  diagonal := [⟨3, 2, 1, 2⟩, ⟨2, 3, 1, 2⟩, ⟨3, 3, 1, 1⟩]
  shallow := [⟨3, 0, 1, 4⟩, ⟨2, 2, 1, 4⟩, ⟨3, 1, 3, 4⟩, ⟨2, 3, 3, 4⟩, ⟨3, 2, 1, 1⟩, ⟨3, 3, 1, 1⟩]
  steep := [⟨0, 3, 1, 4⟩, ⟨2, 2, 1, 4⟩, ⟨1, 3, 3, 4⟩, ⟨3, 2, 3, 4⟩, ⟨2, 3, 1, 1⟩, ⟨3, 3, 1, 1⟩]
  steepAndShallow :=
    [⟨3, 1, 3, 4⟩, ⟨1, 3, 3, 4⟩, ⟨3, 0, 1, 4⟩, ⟨0, 3, 1, 4⟩, ⟨2, 2, 1, 3⟩, ⟨3, 3, 1, 1⟩, ⟨3, 2, 1, 1⟩,
      ⟨2, 3, 1, 1⟩]

/-- CATALOGUE[5] (R208). -/
def catalogue5 : PatternLists where
  corner := [⟨4, 4, 86, 100⟩, ⟨4, 3, 23, 100⟩, ⟨3, 4, 23, 100⟩]
  diagonal := [⟨4, 2, 1, 8⟩, ⟨3, 3, 1, 8⟩, ⟨2, 4, 1, 8⟩, ⟨4, 3, 7, 8⟩, ⟨3, 4, 7, 8⟩, ⟨4, 4, 1, 1⟩]
  shallow :=
    [⟨4, 0, 1, 4⟩, ⟨3, 2, 1, 4⟩, ⟨2, 4, 1, 4⟩, ⟨4, 1, 3, 4⟩, ⟨3, 3, 3, 4⟩, ⟨4, 2, 1, 1⟩, ⟨4, 3, 1, 1⟩,
      ⟨4, 4, 1, 1⟩, ⟨3, 4, 1, 1⟩]
  steep :=
    [⟨0, 4, 1, 4⟩, ⟨2, 3, 1, 4⟩, ⟨4, 2, 1, 4⟩, ⟨1, 4, 3, 4⟩, ⟨3, 3, 3, 4⟩, ⟨2, 4, 1, 1⟩, ⟨3, 4, 1, 1⟩,
      ⟨4, 4, 1, 1⟩, ⟨4, 3, 1, 1⟩]
  steepAndShallow :=
    [⟨0, 4, 1, 4⟩, ⟨2, 3, 1, 4⟩, ⟨1, 4, 3, 4⟩, ⟨4, 0, 1, 4⟩, ⟨3, 2, 1, 4⟩, ⟨4, 1, 3, 4⟩, ⟨3, 3, 2, 3⟩,
      ⟨2, 4, 1, 1⟩, ⟨3, 4, 1, 1⟩, ⟨4, 4, 1, 1⟩, ⟨4, 2, 1, 1⟩, ⟨4, 3, 1, 1⟩]

/-- CATALOGUE[6] (R209). -/
def catalogue6 : PatternLists where
  corner := [⟨5, 5, 97, 100⟩, ⟨4, 5, 42, 100⟩, ⟨5, 4, 42, 100⟩, ⟨5, 3, 6, 100⟩, ⟨3, 5, 6, 100⟩]
  diagonal := [⟨5, 3, 1, 2⟩, ⟨4, 4, 1, 2⟩, ⟨3, 5, 1, 2⟩, ⟨4, 5, 1, 1⟩, ⟨5, 5, 1, 1⟩, ⟨5, 4, 1, 1⟩]
  shallow :=
    [⟨5, 0, 1, 4⟩, ⟨4, 2, 1, 4⟩, ⟨3, 4, 1, 4⟩, ⟨5, 1, 3, 4⟩, ⟨4, 3, 3, 4⟩, ⟨3, 5, 3, 4⟩, ⟨5, 2, 1, 1⟩,
      ⟨5, 3, 1, 1⟩, ⟨5, 4, 1, 1⟩, ⟨5, 5, 1, 1⟩, ⟨4, 4, 1, 1⟩, ⟨4, 5, 1, 1⟩]
  steep :=
    [⟨0, 5, 1, 4⟩, ⟨2, 4, 1, 4⟩, ⟨4, 3, 1, 4⟩, ⟨1, 5, 3, 4⟩, ⟨3, 4, 3, 4⟩, ⟨5, 3, 3, 4⟩, ⟨2, 5, 1, 1⟩,
      ⟨3, 5, 1, 1⟩, ⟨4, 5, 1, 1⟩, ⟨5, 5, 1, 1⟩, ⟨4, 4, 1, 1⟩, ⟨5, 4, 1, 1⟩]
  steepAndShallow :=
    [⟨0, 5, 1, 4⟩, ⟨2, 4, 1, 4⟩, ⟨1, 5, 3, 4⟩, ⟨3, 4, 3, 4⟩, ⟨5, 0, 1, 4⟩, ⟨4, 2, 1, 4⟩, ⟨5, 1, 3, 4⟩,
      ⟨4, 3, 3, 4⟩, ⟨2, 5, 1, 1⟩, ⟨3, 5, 1, 1⟩, ⟨4, 5, 1, 1⟩, ⟨5, 5, 1, 1⟩, ⟨4, 4, 1, 1⟩, ⟨5, 4, 1, 1⟩,
      ⟨5, 2, 1, 1⟩, ⟨5, 3, 1, 1⟩]

/-- The catalogue the spec gives (R205 to R209). -/
def defaultCatalogue : Catalogue :=
  { two := catalogue2, three := catalogue3, four := catalogue4, five := catalogue5, six := catalogue6 }

/-- The list of a pattern; NONE has the empty list (R201). -/
def listOf (l : PatternLists) : Pattern → List CatOp
  | .none => []
  | .corner => l.corner
  | .diagonal => l.diagonal
  | .shallow => l.shallow
  | .steep => l.steep
  | .steepAndShallow => l.steepAndShallow

/-- CATALOGUE[N][pattern] of a build (R201). A factor outside 2..6 is rejected at acceptance (R302) and has no list. -/
def catalogueList (c : Catalogue) (n : Nat) (p : Pattern) : List CatOp :=
  match n with
  | 2 => listOf c.two p
  | 3 => listOf c.three p
  | 4 => listOf c.four p
  | 5 => listOf c.five p
  | 6 => listOf c.six p
  | _ => []

/-- The five patterns that have a list (R201). -/
def blendPatterns : List Pattern := [.corner, .diagonal, .shallow, .steep, .steepAndShallow]

/-- What R200 and R201 ask of every catalogue: sub-pixels of the block, fractions in (0, 1], no sub-pixel twice in a list. -/
def catalogueWf (c : Catalogue) : Bool :=
  supportedFactors.all fun n => blendPatterns.all fun p =>
    ((catalogueList c n p).all fun o => decide (o.i < n ∧ o.j < n ∧ 0 < o.num ∧ o.num ≤ o.den)) &&
      decide ((catalogueList c n p).map fun o => (o.i, o.j)).Nodup

/-- A build whose constants are rationals with KR and KB below 1, so that R125 divides by no zero, and whose catalogue is one. -/
def buildWf (b : Build) : Bool :=
  decide (b.coefficients.kR.num < b.coefficients.kR.den ∧ b.coefficients.kB.num < b.coefficients.kB.den ∧
    0 < b.coefficients.lumaWeight.den ∧ 0 < b.thresholds.centerWeight.den ∧ 0 < b.thresholds.dominant.den ∧
    0 < b.thresholds.steep.den ∧ 0 < b.thresholds.equalTolerance.den) && catalogueWf b.catalogue

/-- The build with these open parameters and the constants the spec gives (R8, R10, R11, R12, R14). -/
def referenceBuild (l : LutBits) (lutStatic : Bool) : Build :=
  { lutBits := l, lutStatic := lutStatic, coefficients := defaultCoefficients, thresholds := defaultThresholds
    catalogue := defaultCatalogue }

end Sys2Proof.Machine
end

