-- ==== Sys2Proof/Machine/Lut.lean ====
section
/-! DEFINITION. The colour-distance LUT, unit LUT (40_color_distance_lut.md R120 to R132). -/

namespace Sys2Proof.Machine

/-- L = 2^(LUT_BITS−1) − 1, the largest level (R99, R122). -/
def lutLevels (b : LutBits) : Nat := 2 ^ (lutWidth b - 1) - 1

/-- The number of LUT entries, 2^(3·LUT_BITS) (R42). -/
def lutSize (b : LutBits) : Nat := 2 ^ (3 * lutWidth b)

/-- A channel difference, in −255..255 (R121). -/
def channelDiff (p q : Byte) : Int := (p.toNat : Int) - (q.toNat : Int)

/-- The level q(d) = sign(d)·((2·|d|·L + 255) div 510) (R122). -/
def quantLevel (b : LutBits) (d : Int) : Int :=
  d.sign * ((2 * d.natAbs * lutLevels b + 255) / 510 : Nat)

/-- The channel code c(d) = q(d) + L (R122). -/
def channelCode (b : LutBits) (d : Int) : Nat := (quantLevel b d + lutLevels b).toNat

/-- The LUT index with these channel codes (R100). -/
def packIndex (b : LutBits) (cR cG cB : Nat) : Nat :=
  cR * 2 ^ (2 * lutWidth b) + cG * 2 ^ lutWidth b + cB

/-- idx(p1, p2), the LUT index of a pixel pair; alpha does not enter it (R121, R123). -/
def lutIndex (b : LutBits) (p q : Pixel) : Nat :=
  packIndex b (channelCode b (channelDiff p.r q.r)) (channelCode b (channelDiff p.g q.g))
    (channelCode b (channelDiff p.b q.b))

/-- Search the square root's bits from bit `k − 1` down, `m` the bits found so far. -/
def isqrtBits : Nat → Nat → Nat → Nat
  | 0, m, _ => m
  | k + 1, m, n =>
    if (m + 2 ^ k) * (m + 2 ^ k) ≤ n then isqrtBits k (m + 2 ^ k) n else isqrtBits k m n

/-- isqrt(n), the largest natural m with m·m ≤ n (R16). -/
def isqrt (n : Nat) : Nat := isqrtBits (n.log2 / 2 + 1) 0 n

/-- The representative difference of a channel code, (c − L)·255/L (R125). -/
def representative (b : LutBits) (c : Nat) : ℚ :=
  ((c : ℚ) - (lutLevels b : ℚ)) * 255 / (lutLevels b : ℚ)

/-- S of R125: the squared distance of a difference (rR, rG, rB). -/
def squaredDistance (c : Coefficients) (rR rG rB : ℚ) : ℚ :=
  let y := ratioValue c.kR * rR + coeffKG c * rG + ratioValue c.kB * rB
  let cb := (1 / 2) / (1 - ratioValue c.kB) * (rB - y)
  let cr := (1 / 2) / (1 - ratioValue c.kR) * (rR - y)
  (ratioValue c.lumaWeight * y) ^ 2 + cb ^ 2 + cr ^ 2

/-- round(2^F · sqrt(S)) with halves rounded up, F = FRAC_BITS (R125). -/
def fixedRoot (s : ℚ) : Nat := (isqrt (s * 4 ^ (fracBits + 1)).floor.toNat + 1) / 2

/-- E for three channel codes (R125). -/
def entryOfCodes (b : Build) (cR cG cB : Nat) : Nat :=
  let l := b.lutBits
  if cR > 2 * lutLevels l ∨ cG > 2 * lutLevels l ∨ cB > 2 * lutLevels l then 0
  else fixedRoot (squaredDistance b.coefficients (representative l cR) (representative l cG) (representative l cB))

/-- The entry function E(k) (R125): the codes are k[3B−1:2B], k[2B−1:B] and k[B−1:0]. -/
def entryValue (b : Build) (k : Nat) : Nat :=
  let w := lutWidth b.lutBits
  entryOfCodes b (k / 2 ^ (2 * w) % 2 ^ w) (k / 2 ^ w % 2 ^ w) (k % 2 ^ w)

/-- E(k) as the 32-bit word of an entry (R42). With the coefficients of R10 every E(k) fits (R126); what the entry of a build whose
E(k) does not fit holds is a free value (log entry 25). -/
def entryWord (b : Build) (k : Nat) : Word :=
  if entryValue b k < 2 ^ 32 then BitVec.ofNat 32 (entryValue b k) else Config.wideEntry (entryValue b k)

/-- The LUT after LUT_FILL: entry k holds E(k) for every k (R130). -/
def lutFill (b : Build) : List Word := (List.range (lutSize b.lutBits)).map (entryWord b)

/-- LUT[k]. Before the first fill no entry is listed and the contents are a free value (R42, U1; log entry 6). -/
def lutRead (lut : List Word) (k : Nat) : Word := lut.getD k (Config.lutPowerOn k)

/-- LOOKUP: dist(p1, p2) = LUT[idx(p1, p2)] (R127). -/
def lutDist (b : LutBits) (lut : List Word) (p q : Pixel) : Nat := (lutRead lut (lutIndex b p q)).toNat

/-- EQUAL: dist(p1, p2) < EQUAL_TOLERANCE · 2^FRAC_BITS (R129), for a distance function `d`. -/
def similar (t : Thresholds) (d : Pixel → Pixel → Nat) (p q : Pixel) : Bool :=
  decide (t.equalTolerance.den * d p q < t.equalTolerance.num * 2 ^ fracBits)

end Sys2Proof.Machine
end

