-- ==== Sys2Proof/Machine/Classifier.lean ====
section
/-! DEFINITION. The edge classifier, unit CLS (42_edge_classifier.md R170 to R180), over a window and a distance
function (40_color_distance_lut.md R127). -/

namespace Sys2Proof.Machine

/-- The 5×5 neighbourhood window w(dy, dx) of one source pixel (R152). It is transient, never in State (R44). -/
abbrev Window := Int → Int → Pixel

/-- The 4×4 corner window: its 16 pixels A..P row by row (R154). -/
structure CornerWindow where
  pA : Pixel
  pB : Pixel
  pC : Pixel
  pD : Pixel
  pE : Pixel
  pF : Pixel
  pG : Pixel
  pH : Pixel
  pI : Pixel
  pJ : Pixel
  pK : Pixel
  pL : Pixel
  pM : Pixel
  pN : Pixel
  pO : Pixel
  pP : Pixel
  deriving DecidableEq, Repr

/-- K4(x + ax, y + ay) as a part of the window of (x, y): the letter at row r, column c is
w(ay − 1 + r, ax − 1 + c) (R154). -/
def cornerWindow (w : Window) (ax ay : Int) : CornerWindow :=
  { pA := w (ay - 1) (ax - 1), pB := w (ay - 1) ax, pC := w (ay - 1) (ax + 1), pD := w (ay - 1) (ax + 2)
    pE := w ay (ax - 1), pF := w ay ax, pG := w ay (ax + 1), pH := w ay (ax + 2)
    pI := w (ay + 1) (ax - 1), pJ := w (ay + 1) ax, pK := w (ay + 1) (ax + 1), pL := w (ay + 1) (ax + 2)
    pM := w (ay + 2) (ax - 1), pN := w (ay + 2) ax, pO := w (ay + 2) (ax + 1), pP := w (ay + 2) (ax + 2) }

/-- The blend types a corner gives to the four pixels that meet there (R171). -/
structure CornerMarks where
  bF : BlendType
  bG : BlendType
  bJ : BlendType
  bK : BlendType
  deriving DecidableEq, Repr

/-- All four pixels of a corner unmarked (R171). -/
def noMarks : CornerMarks := { bF := .none, bG := .none, bJ := .none, bK := .none }

/-- The flat-block test of R171: either pair of opposite sides is equal. -/
def cornerFlat (k : CornerWindow) : Bool :=
  (k.pF == k.pG && k.pJ == k.pK) || (k.pF == k.pJ && k.pG == k.pK)

/-- jg, the colour change along and around the J–G diagonal (R171), times the denominator of CENTER_WEIGHT, which is 1 for the value
R11 gives. R171 only compares the two sums, so the common factor changes no outcome. -/
def sumJG (t : Thresholds) (d : Pixel → Pixel → Nat) (k : CornerWindow) : Nat :=
  t.centerWeight.den * (d k.pI k.pF + d k.pF k.pC + d k.pN k.pK + d k.pK k.pH) + t.centerWeight.num * d k.pJ k.pG

/-- fk, the colour change along and around the F–K diagonal (R171), times the same denominator. -/
def sumFK (t : Thresholds) (d : Pixel → Pixel → Nat) (k : CornerWindow) : Nat :=
  t.centerWeight.den * (d k.pE k.pJ + d k.pJ k.pO + d k.pB k.pG + d k.pG k.pL) + t.centerWeight.num * d k.pF k.pK

/-- DOMINANT exactly when DOM_NUM · smaller < DOM_DEN · larger (R173). -/
def dominance (t : Thresholds) (smaller larger : Nat) : BlendType :=
  if t.dominant.num * smaller < t.dominant.den * larger then .dominant else .normal

/-- The mark `t` for a pixel that differs from both its neighbours on the corner, NONE otherwise (R171). -/
def markIf (p n1 n2 : Pixel) (t : BlendType) : BlendType :=
  if p ≠ n1 ∧ p ≠ n2 then t else .none

/-- CORNER_CLASSIFY (R171). -/
def cornerClassify (t : Thresholds) (d : Pixel → Pixel → Nat) (k : CornerWindow) : CornerMarks :=
  if cornerFlat k then noMarks
  else
    let jg := sumJG t d k
    let fk := sumFK t d k
    if jg < fk then
      { noMarks with
        bF := markIf k.pF k.pG k.pJ (dominance t jg fk)
        bK := markIf k.pK k.pJ k.pG (dominance t jg fk) }
    else if fk < jg then
      { noMarks with
        bJ := markIf k.pJ k.pF k.pK (dominance t fk jg)
        bG := markIf k.pG k.pF k.pK (dominance t fk jg) }
    else noMarks

/-- SIGNATURE (R176): the marks the pixel gets at its four corners. -/
def signature (t : Thresholds) (d : Pixel → Pixel → Nat) (w : Window) : BitVec 8 :=
  packSignature (cornerClassify t d (cornerWindow w (-1) (-1))).bK (cornerClassify t d (cornerWindow w 0 (-1))).bJ
    (cornerClassify t d (cornerWindow w 0 0)).bF (cornerClassify t d (cornerWindow w (-1) 0)).bG

end Sys2Proof.Machine
end

