-- ==== Sys2Proof/Machine/Resolver.lean ====
section
/-! DEFINITION. The blend resolver, unit RES (43_blend_resolver.md R190 to R199, R210 to R215). -/

namespace Sys2Proof.Machine

/-- The letters of the 3×3 centre kernel (R155). -/
inductive Letter where
  | a
  | b
  | c
  | d
  | e
  | f
  | g
  | h
  | i
  deriving DecidableEq, Repr

/-- The offset (dy, dx) of a kernel letter from the centre pixel (R155). -/
def letterOffset : Letter → Int × Int
  | .a => (-1, -1)
  | .b => (-1, 0)
  | .c => (-1, 1)
  | .d => (0, -1)
  | .e => (0, 0)
  | .f => (0, 1)
  | .g => (1, -1)
  | .h => (1, 0)
  | .i => (1, 1)

/-- The centre kernel, a letter's pixel (R155). It is transient, never in State (R44). -/
abbrev Kernel := Letter → Pixel

/-- The centre kernel of a window: the inner 3×3 part (R155). -/
def kernelOf (w : Window) : Kernel := fun l => w (letterOffset l).1 (letterOffset l).2

/-- ROT_1, one quarter turn of the letters (R191). -/
def quarterTurn : Letter → Letter
  | .a => .g
  | .b => .d
  | .c => .a
  | .d => .h
  | .e => .e
  | .f => .b
  | .g => .i
  | .h => .f
  | .i => .c

/-- ROT_r: a letter turned r times (R191). -/
def rotLetter : Nat → Letter → Letter
  | 0, l => l
  | r + 1, l => quarterTurn (rotLetter r l)

/-- k_r(l) = k(ROT_r(l)) (R191). -/
def rotKernel (r : Nat) (k : Kernel) : Kernel := fun l => k (rotLetter r l)

/-- S_r: S_0 = S, and S rotated left by 2r bits for r ≥ 1 (R192). -/
def rotSignature (r : Nat) (s : BitVec 8) : BitVec 8 :=
  match r with
  | 0 => s
  | r + 1 => (s <<< (2 * (r + 1))) ||| (s >>> (8 - 2 * (r + 1)))

/-- LINE_BLEND: dominant-edge suppression (R194), on the rotated signature and kernel. -/
def lineBlend (t : Thresholds) (d : Pixel → Pixel → Nat) (s : BitVec 8) (k : Kernel) : Bool :=
  if sigBR s ≥ 2 then true
  else if sigTR s ≠ 0 ∧ similar t d (k .e) (k .g) = false then false
  else if sigBL s ≠ 0 ∧ similar t d (k .e) (k .c) = false then false
  else if similar t d (k .e) (k .i) = false ∧ similar t d (k .g) (k .h) = true ∧ similar t d (k .h) (k .i) = true ∧
      similar t d (k .i) (k .f) = true ∧ similar t d (k .f) (k .c) = true then false
  else true

/-- The shallow test of LINE_PATTERN (R195). -/
def lineShallow (t : Thresholds) (d : Pixel → Pixel → Nat) (k : Kernel) : Bool :=
  decide (t.steep.num * d (k .f) (k .g) ≤ t.steep.den * d (k .h) (k .c) ∧ k .e ≠ k .g ∧ k .d ≠ k .g)

/-- The steep test of LINE_PATTERN (R195). -/
def lineSteep (t : Thresholds) (d : Pixel → Pixel → Nat) (k : Kernel) : Bool :=
  decide (t.steep.num * d (k .h) (k .c) ≤ t.steep.den * d (k .f) (k .g) ∧ k .e ≠ k .c ∧ k .b ≠ k .c)

/-- LINE_PATTERN: the slope of a line blend (R195), on the rotated kernel. -/
def linePattern (t : Thresholds) (d : Pixel → Pixel → Nat) (k : Kernel) : Pattern :=
  match lineShallow t d k, lineSteep t d k with
  | true, true => .steepAndShallow
  | true, false => .shallow
  | false, true => .steep
  | false, false => .diagonal

/-- What RESOLVE answers for one rotation (R193). -/
structure Resolved where
  pattern : Pattern
  sel : Bool
  partner : Option Letter
  deriving DecidableEq, Repr

/-- The partner select: false for the rotation's f neighbour, true for its h neighbour (R196). -/
def partnerSelect (d : Pixel → Pixel → Nat) (k : Kernel) : Bool := decide (¬ d (k .e) (k .f) ≤ d (k .e) (k .h))

/-- The partner as an original letter: ROT_r(f) or ROT_r(h) (R193, R196). -/
def partnerLetter (r : Nat) (sel : Bool) : Letter := if sel then rotLetter r .h else rotLetter r .f

/-- RESOLVE: resolve one rotation of a pixel with signature `s` and kernel `k` (R193). -/
def resolve (t : Thresholds) (d : Pixel → Pixel → Nat) (s : BitVec 8) (k : Kernel) (r : Nat) : Resolved :=
  if sigBR (rotSignature r s) < 1 then { pattern := .none, sel := false, partner := none }
  else
    let sel := partnerSelect d (rotKernel r k)
    { pattern := if lineBlend t d (rotSignature r s) (rotKernel r k) then linePattern t d (rotKernel r k) else .corner
      sel := sel
      partner := some (partnerLetter r sel) }

/-- The nibble of one rotation (R104, R199). -/
def resolvedNibble (x : Resolved) : BitVec 4 := patternNibble x.pattern x.sel

/-- PW, the resolved-pattern word of the four rotations (R199). -/
def patternWord (res : Nat → Resolved) : BitVec 16 :=
  packPatternWord (resolvedNibble (res 0)) (resolvedNibble (res 1)) (resolvedNibble (res 2)) (resolvedNibble (res 3))

/-- RP_r(i, j): the block sub-pixel of a rotated-frame sub-pixel (R210). -/
def rotSub (n r i j : Nat) : Nat × Nat :=
  match r with
  | 0 => (i, j)
  | 1 => (n - 1 - j, i)
  | 2 => (n - 1 - i, n - 1 - j)
  | _ => (j, n - 1 - i)

/-- A weight vector: a map from kernel letters to ℚ (R211). -/
abbrev Weights := Letter → ℚ

/-- unit(l): weight 1 on l and 0 elsewhere (R211). -/
def unitWeights (l : Letter) : Weights := fun m => if m = l then 1 else 0

/-- (1 − q)·w + q·unit(p) (R211). -/
def blendWeights (q : ℚ) (p : Letter) (w : Weights) : Weights := fun m => (1 - q) * w m + q * unitWeights p m

/-- A weight map: the weight vector of each sub-pixel (i, j). It is transient, never in State (R44). -/
abbrev WeightMap := Nat → Nat → Weights

/-- Apply one catalogue operation of rotation `r` (R200, R211). -/
def applyCatOp (n r : Nat) (p : Letter) (wt : WeightMap) (o : CatOp) : WeightMap := fun i j =>
  if (i, j) = rotSub n r o.i o.j then blendWeights (catFraction o) p (wt i j) else wt i j

/-- Apply the operations of one rotation in the order of its list (R211). A NONE pattern has no operation (R201). -/
def applyRotation (c : Catalogue) (n : Nat) (res : Nat → Resolved) (wt : WeightMap) (r : Nat) : WeightMap :=
  match (res r).partner with
  | none => wt
  | some p => (catalogueList c n (res r).pattern).foldl (applyCatOp n r p) wt

/-- WEIGHT_MAP: the four rotations composed in the order 0, 1, 2, 3 (R211, R215). -/
def weightMap (c : Catalogue) (n : Nat) (res : Nat → Resolved) : WeightMap :=
  [0, 1, 2, 3].foldl (applyRotation c n res) fun _ _ => unitWeights .e

/-- The letters that can contribute colour to a sub-pixel (R196, R211). -/
def contributors : List Letter := [.e, .b, .d, .f, .h]

end Sys2Proof.Machine
end

