-- ==== Sys2Proof/Machine/Combiner.lean ====
section
/-! DEFINITION. The output combiner of unit OUT (44_output_combiner.md R230, R231, R233, R234). The writer is in Writer.lean. -/

namespace Sys2Proof.Machine

/-- clamp255 (R230). -/
def clamp255 (n : Int) : Nat := if n < 0 then 0 else if n > 255 then 255 else n.toNat

/-- The exact weighted sum of one channel over the letters e, b, d, f, h (R230). -/
def weightedSum (w : Weights) (ch : Letter → Byte) : ℚ :=
  (contributors.map fun l => w l * ((ch l).toNat : ℚ)).sum

/-- Round half up, once: clamp255(floor(v + 1/2)) (R230, R231). -/
def roundChannel (v : ℚ) : Byte := BitVec.ofNat 8 (clamp255 (v + 1 / 2).floor)

/-- COMBINE: one output sub-pixel; alpha is weighted like the colours (R230, R233). -/
def combine (w : Weights) (k : Kernel) : Pixel :=
  { r := roundChannel (weightedSum w fun l => (k l).r)
    g := roundChannel (weightedSum w fun l => (k l).g)
    b := roundChannel (weightedSum w fun l => (k l).b)
    a := roundChannel (weightedSum w fun l => (k l).a) }

end Sys2Proof.Machine
end

