-- ==== Sys2Proof/Machine/HostOp.lean ====
section
/-! DEFINITION. What the host can do to the block and to host memory, as syntax (30_encoding.md R90, R108; 20_memory.md R60, R65). -/

namespace Sys2Proof.Machine

/-- One line of a host program (R108). Offsets are byte offsets in the 256-byte register window (R22). -/
inductive HostLine where
  /-- `WR <REG>, <value>`: RegWrite. -/
  | wr (offset : BitVec 8) (value : Word)
  /-- `RD <REG>`: RegRead. -/
  | rd (offset : BitVec 8)
  /-- `POLL <REG>, <mask>, <value>`: RegRead until (result AND mask) = value. -/
  | poll (offset : BitVec 8) (mask value : Word)
  deriving DecidableEq, Repr

/-- One access of the host. -/
inductive HostOp where
  /-- A 32-bit register access. -/
  | line (l : HostLine)
  /-- A register access of a width other than 32 bits (R65). -/
  | narrow (offset : BitVec 8) (bits : Nat)
  /-- The host writes one byte of host memory; only single bytes are atomic (R67). -/
  | store (address : Word) (value : Byte)
  /-- The host reads one byte of host memory. -/
  | load (address : Word)
  deriving DecidableEq, Repr

/-- Who moves next: the host makes its next access, the engine takes a step if it may, or the block is reset
(R254, R255, R340). -/
inductive Turn where
  | host
  | engine
  | reset
  deriving DecidableEq, Repr

end Sys2Proof.Machine
end

