-- ==== Sys2Proof/Machine/State.lean ====
section
/-! DEFINITION. The state of one XBRZ_CORE instance with host memory and the host's side of the bus (10_state.md R20 to R47),
the reasons a step stops, and the state after reset (70_reset_and_hazards.md R340). -/

namespace Sys2Proof.Machine

/-- Host memory: the bytes that differ from what an unlisted address reads as, addresses strictly rising (R60).
The operations are in Ops.lean. -/
abbrev Memory := List Host.Cell

/-- The outcome codes of STATUS.ERR (R105). Codes 7..15 are never produced and have no constructor. -/
inductive ErrCode where
  | ok
  | invalidDimensions
  | unsupportedFactor
  | allocationFailure
  | regionFault
  | illegalCommand
  | cancelled
  deriving DecidableEq, Repr

/-- CTRL's fields (R25). CTRL[31:2] reads 0 and is not stored (R92). -/
structure Ctrl where
  irqEn : Bool
  cancel : Bool
  deriving DecidableEq, Repr

/-- STATUS's fields (R26). STATUS[7:4] and STATUS[31:12] read 0 and are not stored (R92). -/
structure Status where
  busy : Bool
  done : Bool
  lutReady : Bool
  ovr : Bool
  err : ErrCode
  deriving DecidableEq, Repr

/-- The parameter registers SRC_BASE .. ARG1 (R28 to R37). -/
structure Params where
  srcBase : Word
  srcWidth : Word
  srcHeight : Word
  srcLen : Word
  dstBase : Word
  dstLen : Word
  factor : Word
  rowFirst : Word
  rowLast : Word
  arg0 : Word
  arg1 : Word
  deriving DecidableEq, Repr

/-- The job latch JOB (R40). -/
structure Job where
  op : BitVec 8
  srcBase : Word
  w : Word
  h : Word
  srcLen : Word
  dstBase : Word
  dstLen : Word
  n : Word
  rowFirst : Word
  rowLast : Word
  arg0 : Word
  arg1 : Word
  deriving DecidableEq, Repr

/-- What follows a LUT fill (R41). -/
inductive BuildNext where
  | dist
  | classify
  | scale
  | none
  deriving DecidableEq, Repr

/-- The sequencer state ENG (R41). `scale y x`: the next pixel to process is source pixel (x, y). -/
inductive Eng where
  | idle
  | build (next : BuildNext)
  | dist
  | classify
  | scale (y x : Nat)
  deriving DecidableEq, Repr

/-- The MODEL's own record of what races with the running job need (R74, R75, R347; log entries 7 to 11). -/
structure Race where
  /-- Host memory when the engine was started (R75). -/
  before : Memory
  /-- Source bytes the host overwrote since then, each with the value it had (R74). -/
  srcOld : List Host.Cell
  /-- Addresses the host stored to since then that the job has still to write (R347). -/
  contested : List Nat
  deriving DecidableEq, Repr

/-- A memory event of an engine step, of one pixel: `MemRead(addr, 4)` of a source pixel or `MemWrite(addr, 4, value)` of an output
pixel (R60, R67). -/
inductive MemEvent where
  | read (addr : Nat) (value : Pixel)
  | write (addr : Nat) (value : Pixel)
  deriving DecidableEq, Repr

/-- The state: `{ regs, JOB, ENG, LUT }` (R21), the build parameters, host memory (R60), and the model's own fields. -/
structure State where
  /-- The configuration of the instance (R21). No step changes it. -/
  build : Build
  ctrl : Ctrl
  status : Status
  params : Params
  /-- RESULT0 (R38). -/
  result0 : Word
  /-- RESULT1 (R38). -/
  result1 : Word
  /-- ROWS_DONE (R39). -/
  rowsDone : Word
  job : Job
  eng : Eng
  /-- The LUT's entries in index order; no entry while its contents are unspecified (R42). -/
  lut : List Word
  mem : Memory
  /-- MODEL's own: the host accesses still to be made, in program order (log entry 3). -/
  program : List HostOp
  /-- MODEL's own: who moves next (log entry 3). -/
  schedule : List Turn
  /-- MODEL's own: the value the last host read returned. -/
  rdata : Word
  race : Race
  /-- MODEL's own record: the memory events of the latest engine step, in the order of R267 (log entries 12 and 18). -/
  events : List MemEvent
  /-- MODEL's own: numbers the draws of the free values (log entry 7). -/
  tick : Nat
  deriving DecidableEq, Repr

/-- Why a step stops with a fault. The block itself has no fault (R45, R311): both reasons arise only in states that
no run from a reset state reaches, so stopping there is safe. -/
inductive Fault where
  /-- Raised by an engine step with BUSY = 1 and ENG = IDLE, for which no rule gives a step (R41, R254). Safe. -/
  | engineWithoutRule
  /-- Raised by a CLASSIFY or SCALE engine step on a job that validation rejects, or with a cursor outside the job's rows
  and columns: the rules of the step do not apply and its addresses may not exist (R60, R266, R309). Safe. -/
  | jobOutsideRule
  deriving DecidableEq, Repr

/-- Why a step is refused. -/
inductive Refusal where
  /-- Raised by an arm of exec whose instruction has no meaning yet. Safe. No arm of this model raises it. -/
  | notModelled (mnemonic : String)
  /-- Raised by a register access that is not 32 bits wide: it has no host step (R65, U3). Safe. -/
  | registerAccessWidth
  /-- Raised by a register access at an offset that is not a multiple of 4: it has no host step (R65, U3). Safe. -/
  | registerAccessUnaligned
  deriving DecidableEq, Repr

/-- The outcome of a step of this machine. -/
abbrev Out := Host.Outcome State Fault Refusal

/-- JOB after reset: every field 0 (R40). -/
def jobReset : Job :=
  { op := 0, srcBase := 0, w := 0, h := 0, srcLen := 0, dstBase := 0, dstLen := 0, n := 0, rowFirst := 0
    rowLast := 0, arg0 := 0, arg1 := 0 }

/-- The parameter registers after reset (R340). -/
def paramsReset : Params :=
  { srcBase := 0, srcWidth := 0, srcHeight := 0, srcLen := 0, dstBase := 0, dstLen := 0, factor := 0
    rowFirst := 0, rowLast := 0, arg0 := 0, arg1 := 0 }

/-- The model's race record with nothing recorded. -/
def raceReset : Race := { before := [], srcOld := [], contested := [] }

/-- The state right after reset of an instance of build `b` (R340). Host memory has nothing listed (log entry 5), the
host has no access to make (log entry 4), and the model's own fields are empty (log entry 18). -/
def State.resetOf (b : Build) : State :=
  { build := b
    ctrl := { irqEn := false, cancel := false }
    status := { busy := false, done := false, lutReady := b.lutStatic, ovr := false, err := .ok }
    params := paramsReset
    result0 := 0
    result1 := 0
    rowsDone := 0
    job := jobReset
    eng := .idle
    lut := if b.lutStatic then lutFill b else []
    mem := []
    program := []
    schedule := []
    rdata := 0
    race := raceReset
    events := []
    tick := 0 }

/-- The build State.reset takes: LUT_BITS = 5, LUT_STATIC = false, DESIGN CHOICE, log entry 1: the spec leaves both open; and the
constants the spec gives (R10 to R12). -/
def defaultBuild : Build := referenceBuild .five false

/-- The machine right after reset. -/
def State.reset : State := State.resetOf defaultBuild

end Sys2Proof.Machine
end

