-- ==== Sys2Proof/Machine/Flags.lean ====
section
/-! DEFINITION. The flag and status words: ID, CFG, CTRL, STATUS, ERR codes, irq (10_state.md R23 to R26, 30_encoding.md
R92, R93, R105, 60_exceptions.md R320). -/

namespace Sys2Proof.Machine

/-- The 4-bit outcome code (R105). -/
def errBits : ErrCode → BitVec 4
  | .ok => 0#4
  | .invalidDimensions => 1#4
  | .unsupportedFactor => 2#4
  | .allocationFailure => 3#4
  | .regionFault => 4#4
  | .illegalCommand => 5#4
  | .cancelled => 6#4

/-- ID: the ASCII bytes "xBRZ" in increasing byte-address order (R23). -/
def idWord : Word := 0x5A524278#32

/-- CFG: LUT_BITS in [3:0], FRAC_BITS in [7:4], LUT_STATIC in [8], zero above (R24). -/
def cfgWord (b : Build) : Word :=
  0#23 ++ BitVec.ofBool b.lutStatic ++ BitVec.ofNat 4 fracBits ++ BitVec.ofNat 4 (lutWidth b.lutBits)

/-- CTRL as it reads: IRQ_EN in bit 0, CANCEL in bit 1, zero above (R25, R92). -/
def ctrlWord (c : Ctrl) : Word := 0#30 ++ BitVec.ofBool c.cancel ++ BitVec.ofBool c.irqEn

/-- STATUS as it reads: BUSY, DONE, LUT_READY, OVR in bits 0 to 3, ERR in [11:8], zero elsewhere (R26, R92). -/
def statusWord (t : Status) : Word :=
  0#20 ++ errBits t.err ++ 0#4 ++ BitVec.ofBool t.ovr ++ BitVec.ofBool t.lutReady ++ BitVec.ofBool t.done ++
    BitVec.ofBool t.busy

/-- A host write to CTRL sets both fields from bits 1:0 (R25). -/
def ctrlWrite (v : Word) : Ctrl := { irqEn := v.getLsbD 0, cancel := v.getLsbD 1 }

/-- A host write to STATUS clears DONE if bit 1 is 1 and OVR if bit 3 is 1, and nothing else (R26, R93). -/
def statusWrite (v : Word) (t : Status) : Status :=
  { t with done := t.done && !v.getLsbD 1, ovr := t.ovr && !v.getLsbD 3 }

/-- The status flags after COMPLETE(code) (R310). -/
def statusComplete (code : ErrCode) (t : Status) : Status := { t with err := code, busy := false, done := true }

/-- The status flags after the clears of acceptance (R251). -/
def statusAccept (t : Status) : Status := { t with done := false, err := .ok }

/-- irq = CTRL.IRQ_EN ∧ STATUS.DONE (R320). -/
def irq (s : State) : Bool := s.ctrl.irqEn && s.status.done

/-- The platform line and the level the block drives on it (R320; log entry 2). -/
def irqOutput (s : State) : Nat × Bool := (Config.irqLine, irq s)

end Sys2Proof.Machine
end

