-- ==== Sys2Proof/Syntax.lean ====
section
/-! DEFINITION. The command set: one constructor per row of spec/opcode_table.json (30_encoding.md R96). -/

namespace Sys2Proof

/-- The five commands. A command word has no operand field: the operands are the latched registers (R95). -/
inductive Instr where
  /-- NOP, word 0x00000000 (R258). -/
  | nop
  /-- LUT_INIT, word 0x00000001 (R259). -/
  | lutInit
  /-- SCALE, word 0x00000002 (R260). -/
  | scale
  /-- DIST, word 0x00000003 (R262). -/
  | dist
  /-- CLASSIFY, word 0x00000004 (R264). -/
  | classify
  deriving DecidableEq, Repr

end Sys2Proof
end

