-- ==== Sys2Proof/WellFormed.lean ====
section
/-! DEFINITION. Which terms are well-formed: commands, command words (30_encoding.md R95, R96), host accesses (20_memory.md R65). -/

namespace Sys2Proof

/-- A command carries no operand, so every command is well-formed (R95). -/
def Instr.wf : Instr → Bool
  | .nop => true
  | .lutInit => true
  | .scale => true
  | .dist => true
  | .classify => true

/-- The MBZ field of a command word is zero (R95). -/
def mbzZero (w : Word) : Bool := w.extractLsb' 8 24 == 0#24

/-- The OPC field of a command word is one of the five opcodes (R96). -/
def opcodeDefined (w : Word) : Bool := decide ((w.extractLsb' 0 8).toNat ≤ 4)

/-- A legal command word (R96, R106). -/
def wordLegal (w : Word) : Bool := mbzZero w && opcodeDefined w

namespace Machine

/-- A register offset is a multiple of 4 (R65). -/
def offsetAligned (o : BitVec 8) : Bool := o.toNat % 4 == 0

/-- A host-program line accesses an aligned offset (R65). -/
def lineWf : HostLine → Bool
  | .wr o _ => offsetAligned o
  | .rd o => offsetAligned o
  | .poll o _ _ => offsetAligned o

/-- A host access the spec has a step for (R65): 32 bits wide and aligned, or an access of host memory. -/
def hostOpWf : HostOp → Bool
  | .line l => lineWf l
  | .narrow _ _ => false
  | .store _ _ => true
  | .load _ => true

end Machine

end Sys2Proof
end

