-- ==== Sys2Proof/Decode.lean ====
section
/-! DEFINITION. Decoding and encoding: the command word (30_encoding.md R94 to R96, R106), its bytes on the little-endian
register bus (20_memory.md R64), and the binary form of a host program (R108 to R110). -/

namespace Sys2Proof

/-- Why bytes are no command. -/
inductive DecodeReject where
  /-- Fewer than four bytes. -/
  | truncated
  /-- CMD[31:8] is not zero (R95, R106). -/
  | mbzNotZero
  /-- CMD[7:0] is in 0x05..0xFF (R96, R106). -/
  | reservedOpcode
  deriving DecidableEq, Repr

/-- Decode a command word: OPC in bits 7:0, bits 31:8 zero (R95, R96). -/
def decodeWord (w : Word) : Except DecodeReject Instr :=
  if mbzZero w then
    match (w.extractLsb' 0 8).toNat with
    | 0 => .ok .nop
    | 1 => .ok .lutInit
    | 2 => .ok .scale
    | 3 => .ok .dist
    | 4 => .ok .classify
    | _ => .error .reservedOpcode
  else .error .mbzNotZero

/-- The command word of a command (R96). -/
def encode : Instr → Word
  | .nop => 0x00000000#32
  | .lutInit => 0x00000001#32
  | .scale => 0x00000002#32
  | .dist => 0x00000003#32
  | .classify => 0x00000004#32

/-- Byte `k` of a register is bits [8k+7 : 8k] (R64). -/
def wordByte (w : Word) (k : Nat) : Byte := w.extractLsb' (8 * k) 8

/-- The four bytes of a word in increasing address order (R64). -/
def wordBytes (w : Word) : List Byte := [wordByte w 0, wordByte w 1, wordByte w 2, wordByte w 3]

/-- The word with these four bytes, the first at the lowest address (R64). -/
def wordOfBytes (b0 b1 b2 b3 : Byte) : Word := b3 ++ b2 ++ b1 ++ b0

/-- Decode a command from bytes in increasing address order; answers the bytes that remain. -/
def decodeBytes : List Byte → Except DecodeReject (Instr × List Byte)
  | b0 :: b1 :: b2 :: b3 :: rest =>
    match decodeWord (wordOfBytes b0 b1 b2 b3) with
    | .ok i => .ok (i, rest)
    | .error e => .error e
  | _ => .error .truncated

/-- The bytes of a command in increasing address order. -/
def encodeBytes (i : Instr) : List Byte := wordBytes (encode i)

/-- The instruction the decoder reads from a row of the opcode table whose bits are `w`. Bits from `nbits` up are 0. -/
def decodeTableWord (nbits w : Nat) : Option Instr :=
  match decodeBytes (wordBytes (BitVec.ofNat 32 (w % 2 ^ nbits))) with
  | .ok (i, _) => some i
  | .error _ => none

namespace Machine

/-- The byte offset of CMD in the register window (R22). -/
def cmdOffset : BitVec 8 := 0x10#8

/-- The byte offset of STATUS in the register window (R22). -/
def statusOffset : BitVec 8 := 0x0C#8

/-- `CMD <MNEMONIC>` (R109). -/
def pseudoCmd (i : Instr) : List HostLine := [.wr cmdOffset (encode i)]

/-- `WAIT`: wait for DONE (R109). -/
def pseudoWait : List HostLine := [.poll statusOffset 0x00000002#32 0x00000002#32]

/-- `ACK`: clear DONE and OVR (R109). -/
def pseudoAck : List HostLine := [.wr statusOffset 0x0000000A#32]

/-- `RUN <MNEMONIC>` (R109). -/
def pseudoRun (i : Instr) : List HostLine := pseudoCmd i ++ pseudoWait

/-- Word 0 of a line: kind in bits 9:8, offset in bits 7:0, zeros elsewhere (R110). -/
def lineHead (kind : BitVec 2) (offset : BitVec 8) : Word := (kind ++ offset).setWidth 32

/-- The binary form of one line: two words, three for POLL (R110). -/
def encodeLine : HostLine → List Word
  | .wr o v => [lineHead 0#2 o, v]
  | .rd o => [lineHead 1#2 o, 0#32]
  | .poll o m v => [lineHead 2#2 o, m, v]

/-- The binary form of a host program: its lines in order (R110). -/
def encodeProgram : List HostLine → List Word
  | [] => []
  | l :: ls => encodeLine l ++ encodeProgram ls

/-- Why words are no host program. -/
inductive ProgramReject where
  /-- The words end inside a line. -/
  | truncated
  /-- Bits 31:10 of word 0 are not zero. -/
  | headNotZero
  /-- Kind 3 is no kind of line. -/
  | kindUndefined
  /-- Word 1 of a RD line is not zero. -/
  | readNotZero
  deriving DecidableEq, Repr

/-- Decode the first line of a binary host program; answers the words that remain (R110). -/
def decodeLine : List Word → Except ProgramReject (HostLine × List Word)
  | h :: w :: rest =>
    if h.extractLsb' 10 22 = 0#22 then
      match (h.extractLsb' 8 2).toNat with
      | 0 => .ok (.wr (h.extractLsb' 0 8) w, rest)
      | 1 => if w = 0#32 then .ok (.rd (h.extractLsb' 0 8), rest) else .error .readNotZero
      | 2 =>
        match rest with
        | v :: rest' => .ok (.poll (h.extractLsb' 0 8) w v, rest')
        | [] => .error .truncated
      | _ => .error .kindUndefined
    else .error .headNotZero
  | _ => .error .truncated

/-- Decode a binary host program, at most `fuel` lines. -/
def decodeLines : Nat → List Word → Except ProgramReject (List HostLine)
  | _, [] => .ok []
  | 0, _ :: _ => .error .truncated
  | fuel + 1, ws@(_ :: _) =>
    match decodeLine ws with
    | .error e => .error e
    | .ok (l, rest) =>
      match decodeLines fuel rest with
      | .error e => .error e
      | .ok ls => .ok (l :: ls)

/-- Decode a binary host program (R110). Every line has at least two words, so this fuel is enough. -/
def decodeProgram (ws : List Word) : Except ProgramReject (List HostLine) := decodeLines ws.length ws

/-- The words of a host program as bytes, each word little-endian (R110). -/
def encodeProgramBytes (p : List HostLine) : List Byte := (encodeProgram p).flatMap wordBytes

/-- The words that bytes hold, each word little-endian; none if the bytes end inside a word. -/
def wordsOfBytes : List Byte → Option (List Word)
  | [] => some []
  | b0 :: b1 :: b2 :: b3 :: rest => (wordsOfBytes rest).map fun ws => wordOfBytes b0 b1 b2 b3 :: ws
  | _ => none

/-- Decode the bytes of a binary host program (R110). -/
def decodeProgramBytes (bs : List Byte) : Except ProgramReject (List HostLine) :=
  match wordsOfBytes bs with
  | none => .error .truncated
  | some ws => decodeProgram ws

end Machine

end Sys2Proof
end

