-- ==== Sys2Proof/Machine/Validate.lean ====
section
/-! DEFINITION. Validation of a command at acceptance (60_exceptions.md R300 to R309), in exact natural-number arithmetic. -/

namespace Sys2Proof.Machine

/-- W · H · 4, the exact source size in bytes (R301). -/
def sourceBytes (j : Job) : Nat := j.w.toNat * j.h.toNat * 4

/-- D = (W · N) · (H · N) · 4, the exact destination size in bytes (R304). -/
def destBytes (j : Job) : Nat := j.w.toNat * j.n.toNat * (j.h.toNat * j.n.toNat) * 4

/-- The part of INVALID_DIMENSIONS common to SCALE and CLASSIFY (R301). -/
def badDimensions (j : Job) : Bool :=
  decide (j.w.toNat = 0 ∨ j.h.toNat = 0 ∨ sourceBytes j ≠ j.srcLen.toNat)

/-- The row range part of INVALID_DIMENSIONS for SCALE (R301). -/
def badRows (j : Job) : Bool := decide (j.rowFirst.toNat > j.rowLast.toNat ∨ j.rowLast.toNat > j.h.toNat)

/-- The coordinate part of INVALID_DIMENSIONS for CLASSIFY (R301). -/
def badCoordinates (j : Job) : Bool := decide (j.arg0.toNat ≥ j.w.toNat ∨ j.arg1.toNat ≥ j.h.toNat)

/-- UNSUPPORTED_FACTOR (R302). -/
def badFactor (j : Job) : Bool := decide (j.n.toNat ∉ supportedFactors)

/-- REGION_FAULT, source part (R303). -/
def sourceWraps (j : Job) : Bool := decide (j.srcBase.toNat + j.srcLen.toNat > addrSpace)

/-- ALLOCATION_FAILURE (R304). -/
def badAllocation (j : Job) : Bool :=
  decide (destBytes j > j.dstLen.toNat ∨ j.dstBase.toNat + destBytes j > addrSpace)

/-- REGION_FAULT, overlap part (R305). -/
def regionsOverlap (j : Job) : Bool :=
  decide (j.srcBase.toNat < j.dstBase.toNat + destBytes j ∧ j.dstBase.toNat < j.srcBase.toNat + j.srcLen.toNat)

/-- Checks 2 to 6 of R308, in order, for SCALE (R309). -/
def validateScale (j : Job) : ErrCode :=
  if badDimensions j || badRows j then .invalidDimensions
  else if badFactor j then .unsupportedFactor
  else if sourceWraps j then .regionFault
  else if badAllocation j then .allocationFailure
  else if regionsOverlap j then .regionFault
  else .ok

/-- Checks 2 and 4 of R308, in order, for CLASSIFY (R309). -/
def validateClassify (j : Job) : ErrCode :=
  if badDimensions j || badCoordinates j then .invalidDimensions
  else if sourceWraps j then .regionFault
  else .ok

/-- VALIDATE(v, JOB): the first failing check, or OK (R308); the checks per command are those of R309. -/
def validate (v : Word) (j : Job) : ErrCode :=
  match decodeWord v with
  | .error _ => .illegalCommand
  | .ok .nop => .ok
  | .ok .lutInit => .ok
  | .ok .dist => .ok
  | .ok .classify => validateClassify j
  | .ok .scale => validateScale j

end Sys2Proof.Machine
end

