-- ==== Sys2Proof/Machine/Ops.lean ====
section
/-! DEFINITION. The shared operations: host memory (20_memory.md R60, R61), pixel addresses (R62, R63), the register
window (10_state.md R22, 30_encoding.md R90 to R93), LUT_FILL (40_color_distance_lut.md R130), acceptance, start and completion of a command (45_commands.md R250 to
R252, 60_exceptions.md R310). -/

namespace Sys2Proof.Machine

/-! Host memory. -/

/-- What an address that is not listed reads as. DESIGN CHOICE, log entry 5: the spec gives host memory no contents. -/
def unlistedByte : Byte := 0

/-- Read one byte. -/
def memRead : Memory → Nat → Byte
  | [], _ => unlistedByte
  | (k, c) :: m, a => if k = a then c else memRead m a

/-- The memory `m` with `(a, b)` in front, unless `b` is what an unlisted address reads as. -/
def memCons (a : Nat) (b : Byte) (m : Memory) : Memory := if b = unlistedByte then m else (a, b) :: m

/-- Write one byte, keeping the canonical form. -/
def memWrite : Memory → Nat → Byte → Memory
  | [], a, b => memCons a b []
  | (k, c) :: m, a, b =>
    if a < k then memCons a b ((k, c) :: m)
    else if a = k then memCons a b m
    else (k, c) :: memWrite m a b

/-- Write a list of bytes, each at its address, in order. -/
def memWriteAll (m : Memory) (cs : List Host.Cell) : Memory := cs.foldl (fun m c => memWrite m c.1 c.2) m

/-- A `MEM <addr>: <bytes>` line: host memory with those bytes from the address on (R108). -/
def memLine (a : Nat) (bs : List Byte) (m : Memory) : Memory :=
  memWriteAll m ((List.range bs.length).map fun k => (a + k, bs.getD k 0))

/-- The addresses of a memory rise strictly. -/
def addressesRise : Memory → Bool
  | [] => true
  | [_] => true
  | (a, _) :: (b, c) :: m => decide (a < b) && addressesRise ((b, c) :: m)

/-- The canonical form: addresses strictly rising and inside the 2^32-byte space (R60), and no entry equal to what an
unlisted address reads as. -/
def Memory.wf (m : Memory) : Bool :=
  addressesRise m && m.all fun c => decide (c.1 < addrSpace) && c.2 != unlistedByte

/-! Pixel addresses. -/

/-- SrcAddr(x, y) = src_base + 4·(y·W + x) (R62). -/
def srcAddr (j : Job) (x y : Nat) : Nat := j.srcBase.toNat + 4 * (y * j.w.toNat + x)

/-- DstAddr(x, y, i, j) = dst_base + 4·((y·N + i)·(W·N) + x·N + j) (R63). -/
def dstAddr (j : Job) (x y si sj : Nat) : Nat :=
  j.dstBase.toNat + 4 * ((y * j.n.toNat + si) * (j.w.toNat * j.n.toNat) + x * j.n.toNat + sj)

/-- The source region [src_base, src_base + src_len) (R60). -/
def inSource (j : Job) (a : Nat) : Bool := decide (j.srcBase.toNat ≤ a ∧ a < j.srcBase.toNat + j.srcLen.toNat)

/-- The first byte of the rows a SCALE job writes (R69). -/
def dstLow (j : Job) : Nat := j.dstBase.toNat + 4 * (j.rowFirst.toNat * j.n.toNat * (j.w.toNat * j.n.toNat))

/-- One past the last byte of the rows a SCALE job writes (R69). -/
def dstHigh (j : Job) : Nat := j.dstBase.toNat + 4 * (j.rowLast.toNat * j.n.toNat * (j.w.toNat * j.n.toNat))

/-- The bytes a SCALE job writes (R69, R75). -/
def inDest (j : Job) (a : Nat) : Bool := decide (dstLow j ≤ a ∧ a < dstHigh j)

/-! The register window. -/

/-- RegRead: the value of the register at an offset (R22, R90). Unmapped offsets and CMD read 0 (R27, R91). -/
def regRead (s : State) (o : BitVec 8) : Word :=
  match o.toNat with
  | 0x00 => idWord
  | 0x04 => cfgWord s.build
  | 0x08 => ctrlWord s.ctrl
  | 0x0C => statusWord s.status
  | 0x14 => s.params.srcBase
  | 0x18 => s.params.srcWidth
  | 0x1C => s.params.srcHeight
  | 0x20 => s.params.srcLen
  | 0x24 => s.params.dstBase
  | 0x28 => s.params.dstLen
  | 0x2C => s.params.factor
  | 0x30 => s.params.rowFirst
  | 0x34 => s.params.rowLast
  | 0x38 => s.params.arg0
  | 0x3C => s.params.arg1
  | 0x40 => s.result0
  | 0x44 => s.result1
  | 0x48 => s.rowsDone
  | _ => 0

/-- A write to a parameter register stores the whole word (R28 to R37, R93); any other offset changes none. -/
def paramsWrite (p : Params) (o : BitVec 8) (v : Word) : Params :=
  match o.toNat with
  | 0x14 => { p with srcBase := v }
  | 0x18 => { p with srcWidth := v }
  | 0x1C => { p with srcHeight := v }
  | 0x20 => { p with srcLen := v }
  | 0x24 => { p with dstBase := v }
  | 0x28 => { p with dstLen := v }
  | 0x2C => { p with factor := v }
  | 0x30 => { p with rowFirst := v }
  | 0x34 => { p with rowLast := v }
  | 0x38 => { p with arg0 := v }
  | 0x3C => { p with arg1 := v }
  | _ => p

/-- RegWrite to any register but CMD (R90, R93): CTRL and STATUS by their own rules, the parameter registers whole; a
read-only register or an unmapped offset ignores the write (R91, R93). -/
def regWrite (o : BitVec 8) (v : Word) (s : State) : State :=
  match o.toNat with
  | 0x08 => { s with ctrl := ctrlWrite v }
  | 0x0C => { s with status := statusWrite v s.status }
  | _ => { s with params := paramsWrite s.params o v }

/-- Byte `k` of the register at offset `o`, as byte lanes show it (R64). -/
def regByte (s : State) (o : BitVec 8) (k : Nat) : Byte := wordByte (regRead s o) k

/-- The bus address of byte `k` of the register at offset `o` (R64, R70; log entry 2). -/
def regAddress (o : BitVec 8) (k : Nat) : Nat := Config.regBase.toNat + o.toNat + k

/-! The LUT. -/

/-- LUT_FILL: every entry takes E(k), then LUT_READY <- 1 (R130). -/
def fillLut (s : State) : State :=
  { s with lut := lutFill s.build, status := { s.status with lutReady := true } }

/-! Acceptance, start and completion. -/

/-- The job a command word latches from the registers (R40, R251). -/
def jobOf (op : BitVec 8) (p : Params) : Job :=
  { op := op, srcBase := p.srcBase, w := p.srcWidth, h := p.srcHeight, srcLen := p.srcLen, dstBase := p.dstBase
    dstLen := p.dstLen, n := p.factor, rowFirst := p.rowFirst, rowLast := p.rowLast, arg0 := p.arg0, arg1 := p.arg1 }

/-- CMD[7:0] (R95). -/
def opcodeOf (v : Word) : BitVec 8 := v.extractLsb' 0 8

/-- What acceptance writes before it validates: JOB, DONE, ERR, CANCEL, ROWS_DONE (R251). -/
def latch (v : Word) (s : State) : State :=
  { s with
    job := jobOf (opcodeOf v) s.params
    status := statusAccept s.status
    ctrl := { s.ctrl with cancel := false }
    rowsDone := 0 }

/-- COMPLETE(code), the one end of every accepted command (R310). No trap is entered and none returns (R311, R312). -/
def complete (code : ErrCode) (s : State) : State := { s with status := statusComplete code s.status, eng := .idle }

/-- BUSY <- 1 and ENG <- `e` (R252). The model's race record starts afresh with the job (R74, R75). -/
def startEngine (e : Eng) (s : State) : State :=
  { s with
    status := { s.status with busy := true }
    eng := e
    race := { before := s.mem, srcOld := [], contested := [] } }

/-- START of a command that looks distances up: first BUILD unless LUT_READY (R252). -/
def startOrBuild (next : BuildNext) (e : Eng) (s : State) : State :=
  startEngine (if s.status.lutReady then e else .build next) s

/-- ACCEPT(v), with the command's START (R251). -/
def accept (v : Word) (start : State → State) (s : State) : State :=
  let s1 := latch v s
  match validate v s1.job with
  | .ok => start s1
  | code => complete code s1

/-- A CMD write of `v`: dropped with OVR <- 1 while BUSY, else accepted (R250). -/
def issue (v : Word) (start : State → State) (s : State) : State :=
  if s.status.busy then { s with status := { s.status with ovr := true } } else accept v start s

end Sys2Proof.Machine
end

