-- ==== Sys2Proof/Machine/Sampler.lean ====
section
/-! DEFINITION. The neighbourhood sampler, unit SMP (41_neighborhood_sampler.md R150 to R157), and the engine's view of the
source: signature, kernel and resolved patterns of a source pixel. -/

namespace Sys2Proof.Machine

/-- clamp(v, n) (R150). -/
def clamp (v : Int) (n : Nat) : Nat := if v < 0 then 0 else if v > (n : Int) - 1 then n - 1 else v.toNat

/-- The source byte the engine reads at an address: host memory, or, if the host overwrote the byte during the job, one of
the values it had since the job started, drawn (R74, U8; log entry 7). -/
def srcByte (s : State) (a : Nat) : Byte :=
  match s.race.srcOld.filter fun c => c.1 = a with
  | [] => memRead s.mem a
  | olds =>
    (memRead s.mem a :: olds.map fun c => c.2).getD (Config.sourceRace s.tick a % (olds.length + 1)) (memRead s.mem a)

/-- The source pixel at a byte address (R61, R67). -/
def srcPixelAt (s : State) (a : Nat) : Pixel :=
  unpack4 (srcByte s a) (srcByte s (a + 1)) (srcByte s (a + 2)) (srcByte s (a + 3))

/-- P(x, y), the source pixel at clamped coordinates (R151). -/
def srcPixel (s : State) (x y : Int) : Pixel :=
  srcPixelAt s (srcAddr s.job (clamp x s.job.w.toNat) (clamp y s.job.h.toNat))

/-- SAMPLE: the window of source pixel (x, y) (R152). Reading a clamped address once or once per position gives the same
window (R156). -/
def sample (s : State) (x y : Nat) : Window := fun dy dx => srcPixel s ((x : Int) + dx) ((y : Int) + dy)

/-- The offsets −2..2 of the window (R152). -/
def windowOffsets : List Int := [-2, -1, 0, 1, 2]

/-- The byte addresses of the source pixels in row `row` of the image at the window's columns about column `x`, left to right
(R151, R152). -/
def windowRow (j : Job) (x : Nat) (row : Nat) : List Nat :=
  windowOffsets.map fun dx => srcAddr j (clamp ((x : Int) + dx) j.w.toNat) row

/-- The addresses SAMPLE reads for source pixel (x, y): (dy, dx) in row-major order over −2..2, each distinct clamped address once
(R156, R267). -/
def windowAddrs (j : Job) (x y : Nat) : List Nat :=
  (windowOffsets.flatMap fun dy => windowRow j x (clamp ((y : Int) + dy) j.h.toNat)).eraseDups

/-- The source reads of SAMPLE for source pixel (x, y), in the order of R267, each with the pixel read (R67, R156). -/
def sourceReads (s : State) (x y : Nat) : List MemEvent :=
  (windowAddrs s.job x y).map fun a => .read a (srcPixelAt s a)

/-- The distance function of the running instance (R127). -/
def distOf (s : State) : Pixel → Pixel → Nat := lutDist s.build.lutBits s.lut

/-- The signature of source pixel (x, y) (R176). -/
def signatureAt (s : State) (x y : Nat) : BitVec 8 := signature s.build.thresholds (distOf s) (sample s x y)

/-- The centre kernel of source pixel (x, y) (R155). -/
def kernelAt (s : State) (x y : Nat) : Kernel := kernelOf (sample s x y)

/-- The four resolved rotations of source pixel (x, y) (R193). -/
def resolvedAt (s : State) (x y : Nat) : Nat → Resolved :=
  resolve s.build.thresholds (distOf s) (signatureAt s x y) (kernelAt s x y)

end Sys2Proof.Machine
end

