-- ==== Sys2Proof/Machine/Writer.lean ====
section
/-! DEFINITION. The output writer of unit OUT (44_output_combiner.md R232, R236, R238), and the host's accesses to memory while
a job runs (20_memory.md R73 to R76, 70_reset_and_hazards.md R341, R346, R347). -/

namespace Sys2Proof.Machine

/-- COMBINE(WEIGHT_MAP(S, k, N)[i][j], k): output sub-pixel (i, j) of source pixel (x, y) (R211, R230, R232). -/
def blockPixel (s : State) (x y si sj : Nat) : Pixel :=
  combine (weightMap s.build.catalogue s.job.n.toNat (resolvedAt s x y) si sj) (kernelAt s x y)

/-- One sub-pixel's four bytes with their addresses (R67). -/
def pixelCells (a : Nat) (p : Pixel) : List Host.Cell := [(a, p.r), (a + 1, p.g), (a + 2, p.b), (a + 3, p.a)]

/-- The writes of BLOCK for source pixel (x, y), sub-pixels in row-major order (R232, R267). -/
def blockCells (s : State) (x y : Nat) : List Host.Cell :=
  (List.range s.job.n.toNat).flatMap fun si =>
    (List.range s.job.n.toNat).flatMap fun sj => pixelCells (dstAddr s.job x y si sj) (blockPixel s x y si sj)

/-- The byte a job writes: the computed byte, or a free value once the host has written the source during the job (R74, U8;
log entry 8). -/
def jobByte (s : State) (c : Host.Cell) : Byte :=
  if s.race.srcOld.isEmpty then c.2 else Config.racedOutput s.tick c.1

/-- The pixel a job writes at an address: its four bytes (R67). -/
def jobPixel (s : State) (a : Nat) (p : Pixel) : Pixel :=
  unpack4 (jobByte s (a, p.r)) (jobByte s (a + 1, p.g)) (jobByte s (a + 2, p.b)) (jobByte s (a + 3, p.a))

/-- The N² writes of BLOCK for source pixel (x, y), (i, j) in row-major order (R232, R267). -/
def blockWrites (s : State) (x y : Nat) : List MemEvent :=
  (List.range s.job.n.toNat).flatMap fun si => (List.range s.job.n.toNat).map fun sj =>
    .write (dstAddr s.job x y si sj) (jobPixel s (dstAddr s.job x y si sj) (blockPixel s x y si sj))

/-- The memory events of the step that processes source pixel (x, y): its window's reads, then its block's writes (R73, R267;
log entry 12). -/
def pixelEvents (s : State) (x y : Nat) : List MemEvent := sourceReads s x y ++ blockWrites s x y

/-- One byte write of the engine. If the host stored to that byte during the job, the final byte is the host's or the job's,
drawn (R347, U10; log entry 10). -/
def engineStore (s : State) (m : Memory) (c : Host.Cell) : Memory :=
  if s.race.contested.contains c.1 && Config.writeRace s.tick c.1 then m else memWrite m c.1 (jobByte s c)

/-- Host memory after BLOCK of source pixel (x, y) (R232). -/
def writeBlock (s : State) (x y : Nat) : Memory := (blockCells s x y).foldl (engineStore s) s.mem

/-- The pixel of the output image that byte `a` of the destination belongs to, as (x, y, i, j), and the byte's place in it: the
inverse of R63. -/
def destPlace (j : Job) (a : Nat) : Nat × Nat × Nat × Nat × Nat :=
  let off := a - j.dstBase.toNat
  let row := off / 4 / (j.w.toNat * j.n.toNat)
  let col := off / 4 % (j.w.toNat * j.n.toNat)
  (col / j.n.toNat, row / j.n.toNat, row % j.n.toNat, col % j.n.toNat, off % 4)

/-- The byte the running SCALE job writes at `a` (R63, R75). The job looks distances up in the filled LUT only (R253). -/
def jobByteAt (s : State) (a : Nat) : Byte :=
  let p := destPlace s.job a
  jobByte s (a, (pixelBytes (blockPixel (fillLut s) p.1 p.2.1 p.2.2.1 p.2.2.2.1)).getD p.2.2.2.2 0)

/-- The addresses of the rows a SCALE job writes, rising (R69). -/
def destAddrs (j : Job) : List Nat := (List.range (dstHigh j - dstLow j)).map fun k => dstLow j + k

/-- A SCALE or CLASSIFY job is running: the host must not write its source (R74). -/
def readsSource (s : State) : Bool := s.status.busy && (s.job.op == 2 || s.job.op == 4)

/-- A SCALE job is running and it writes byte `a` (R75). -/
def writesByte (s : State) (a : Nat) : Bool := s.status.busy && s.job.op == 2 && inDest s.job a

/-- The engine's cursor has passed the pixel that byte `a` belongs to (R41, R266). -/
def cursorPassed (s : State) (a : Nat) : Bool :=
  match s.eng with
  | .scale y x =>
    let p := destPlace s.job a
    decide (p.2.1 < y ∨ (p.2.1 = y ∧ p.1 < x))
  | _ => false

/-- Host memory once the host has written the source of the running job: the output the job has already written is
unconstrained too (R74, U8; log entry 8). -/
def unsettleOutput (s : State) (m : Memory) : Memory :=
  ((destAddrs s.job).filter fun a => writesByte s a && cursorPassed s a).foldl
    (fun m a => memWrite m a (Config.racedOutput s.tick a)) m

/-- The host stores a byte to host memory: a plain write, or one of the races with the running job (R74, R346, R347). Of a byte the job
has written already the final value is the host's or the job's, drawn (U10; log entries 7 and 10). -/
def hostStore (a : Nat) (b : Byte) (s : State) : State :=
  if readsSource s && inSource s.job a then
    { s with
      mem := unsettleOutput s (memWrite s.mem a b)
      race := { s.race with srcOld := (a, memRead s.mem a) :: s.race.srcOld } }
  else if writesByte s a then
    if cursorPassed s a then
      { s with mem := memWrite s.mem a (if Config.storeRace s.tick a then jobByteAt s a else b) }
    else
      { s with mem := memWrite s.mem a b, race := { s.race with contested := a :: s.race.contested } }
  else { s with mem := memWrite s.mem a b }

/-- What a host load of byte `a` returns: the byte, or, while a job that writes it runs, the byte before the job or the byte the
job writes, drawn (R75, U9, U11; log entry 9). -/
def hostLoad (s : State) (a : Nat) : Byte :=
  if writesByte s a then
    [memRead s.mem a, memRead s.race.before a, jobByteAt s a].getD (Config.loadRace s.tick a % 3) (memRead s.mem a)
  else memRead s.mem a

/-- One byte of the destination after a reset during a SCALE job: as it is, old or new, drawn (R341, U13; log entry 11). -/
def tornByte (s : State) (a : Nat) : Byte :=
  [memRead s.mem a, memRead s.race.before a, jobByteAt s a].getD (Config.tornRace s.tick a % 3) (memRead s.mem a)

/-- Host memory after a reset: untouched, but for the rows of a SCALE job the reset ends (R341, U13). -/
def memAfterReset (s : State) : Memory :=
  if s.status.busy && s.job.op == 2 then
    (destAddrs s.job).foldl (fun m a => memWrite m a (tornByte s a)) s.mem
  else s.mem

end Sys2Proof.Machine
end

