-- ==== Sys2Proof/Machine/Engine.lean ====
section
/-! DEFINITION. The engine sequencer: one engine step (45_commands.md R253, R254, R262, R264, R266 to R270). -/

namespace Sys2Proof.Machine

/-- The step accesses no host memory: no memory event is recorded (R253, R262, R269, R270). -/
def noEvents (s : State) : State := { s with events := [] }

/-- The BUILD(next) step (R253). -/
def buildStep (next : BuildNext) (s : State) : State :=
  match next with
  | .dist => { fillLut (noEvents s) with eng := .dist }
  | .classify => { fillLut (noEvents s) with eng := .classify }
  | .scale => { fillLut (noEvents s) with eng := .scale s.job.rowFirst.toNat 0 }
  | .none => complete .ok (fillLut (noEvents s))

/-- The DIST step: RESULT0 <- dist(p1, p2), RESULT1 <- idx(p1, p2), COMPLETE(OK) (R262). -/
def distStep (s : State) : State :=
  complete .ok
    { s with
      result0 := BitVec.ofNat 32 (distOf s (unpack s.job.arg0) (unpack s.job.arg1))
      result1 := BitVec.ofNat 32 (lutIndex s.build.lutBits (unpack s.job.arg0) (unpack s.job.arg1))
      events := [] }

/-- The results of the CLASSIFY step: RESULT0 <- S, RESULT1 <- PW, COMPLETE(OK) (R264). If the host wrote the source during the job
they are computed from the bytes drawn (R74, U8), so they keep their format (R104, R107; log entry 8). Its memory events are the
reads of SAMPLE (R156, R264). -/
def classifyResult (s : State) : State :=
  complete .ok
    { s with
      result0 := (signatureAt s s.job.arg0.toNat s.job.arg1.toNat).setWidth 32
      result1 := (patternWord (resolvedAt s s.job.arg0.toNat s.job.arg1.toNat)).setWidth 32
      events := sourceReads s s.job.arg0.toNat s.job.arg1.toNat }

/-- The CLASSIFY step (R264). Validation has accepted the job (R309); log entry 13. -/
def classifyStep (s : State) : Out :=
  if validateClassify s.job = .ok then .next (classifyResult s) else .fault .jobOutsideRule

/-- The cursor and ROWS_DONE after the block of pixel (x, y) (R266, R268). -/
def advanceCursor (y x : Nat) (s : State) : State :=
  if x + 1 = s.job.w.toNat then { s with rowsDone := s.rowsDone + 1, eng := .scale (y + 1) 0 }
  else { s with eng := .scale y (x + 1) }

/-- Sample, classify, resolve and write the block of pixel (x, y), record the memory events, and advance (R266, R267). -/
def pixelStep (y x : Nat) (s : State) : State :=
  advanceCursor y x { s with mem := writeBlock s x y, events := pixelEvents s x y }

/-- The states SCALE(y, x) of a validated job: a pixel of the job's rows, or the row boundary after the last (R266; log
entry 13). -/
def cursorInJob (j : Job) (y x : Nat) : Bool :=
  decide (validateScale j = .ok ∧ j.rowFirst.toNat ≤ y ∧ y ≤ j.rowLast.toNat ∧ x < j.w.toNat ∧
    (y = j.rowLast.toNat → x = 0))

/-- The SCALE(y, x) step (R266): completion after the last row (R269), a cancel honoured at a row boundary (R270), both without a
memory access, else a pixel. -/
def scaleStep (y x : Nat) (s : State) : Out :=
  if cursorInJob s.job y x then
    if x = 0 ∧ y = s.job.rowLast.toNat then .next (complete .ok (noEvents s))
    else if x = 0 ∧ s.ctrl.cancel = true then
      .next (complete .cancelled { noEvents s with ctrl := { s.ctrl with cancel := false } })
    else .next (pixelStep y x s)
  else .fault .jobOutsideRule

/-- One engine step. While BUSY = 0 the engine takes no step (R254). -/
def engineStep (s : State) : Out :=
  if s.status.busy then
    match s.eng with
    | .idle => .fault .engineWithoutRule
    | .build next => .next (buildStep next s)
    | .dist => .next (distStep s)
    | .classify => classifyStep s
    | .scale y x => scaleStep y x s
  else .next s

/-- `n` engine steps with no host access between them, stopping at a fault (R254, R255). -/
def engineRun : Nat → State → Out
  | 0, s => .next s
  | n + 1, s =>
    match engineStep s with
    | .next t => engineRun n t
    | .fault f => .fault f
    | .refused r => .refused r

end Sys2Proof.Machine
end

