-- ==== Sys2Proof/Machine/Commands.lean ====
section
/-! DEFINITION. The five commands (45_commands.md R258 to R264): what writing each command word to CMD does. The engine steps a
command starts are in Engine.lean. -/

namespace Sys2Proof.Machine

/-- START of NOP: COMPLETE(OK) at once (R252, R258). -/
def startNop (s : State) : State := complete .ok s

/-- START of LUT_INIT: BUSY <- 1, ENG <- BUILD(NONE) (R252, R259). -/
def startLutInit (s : State) : State := startEngine (.build .none) s

/-- START of SCALE (R252, R260). -/
def startScale (s : State) : State := startOrBuild .scale (.scale s.job.rowFirst.toNat 0) s

/-- START of DIST (R252, R262). -/
def startDist (s : State) : State := startOrBuild .dist .dist s

/-- START of CLASSIFY (R252, R264). -/
def startClassify (s : State) : State := startOrBuild .classify .classify s

/-- NOP (R258). -/
def execNop (s : State) : Out := .next (issue (encode .nop) startNop s)

/-- LUT_INIT (R259). -/
def execLutInit (s : State) : Out := .next (issue (encode .lutInit) startLutInit s)

/-- SCALE (R260). -/
def execScale (s : State) : Out := .next (issue (encode .scale) startScale s)

/-- DIST (R262). -/
def execDist (s : State) : Out := .next (issue (encode .dist) startDist s)

/-- CLASSIFY (R264). -/
def execClassify (s : State) : Out := .next (issue (encode .classify) startClassify s)

/-- A command word that is none of the five: validation rejects it with ILLEGAL_COMMAND, so it starts nothing (R106, R306). -/
def issueIllegal (v : Word) (s : State) : Out := .next (issue v id s)

end Sys2Proof.Machine
end

