-- ==== Sys2Proof/Machine/Dispatch.lean ====
section
/-! DEFINITION. One arm per command. -/

namespace Sys2Proof.Machine

def exec (i : Instr) (s : State) : Host.Outcome State Fault Refusal :=
  match i with
  | .nop => Sys2Proof.Machine.execNop s
  | .lutInit => Sys2Proof.Machine.execLutInit s
  | .scale => Sys2Proof.Machine.execScale s
  | .dist => Sys2Proof.Machine.execDist s
  | .classify => Sys2Proof.Machine.execClassify s

end Sys2Proof.Machine
end

