-- ==== Sys2Proof/Machine/Turns.lean ====
section
/-! DEFINITION. One turn of the host, of the engine, or a reset (45_commands.md R250, R254 to R257, 70_reset_and_hazards.md
R340, R341). -/

namespace Sys2Proof.Machine

/-- Count one draw position (log entry 7). -/
def tickState (s : State) : State := { s with tick := s.tick + 1 }

/-- `tickState` on the next state of an outcome. -/
def tickOut : Out → Out
  | .next s => .next (tickState s)
  | .fault f => .fault f
  | .refused r => .refused r

/-- RegWrite(0x10, v): the word is decoded and the command runs; any other word is illegal (R250, R106). -/
def commandWrite (v : Word) (s : State) : Out :=
  match decodeWord v with
  | .ok i => exec i s
  | .error _ => issueIllegal v s

/-- RegWrite at any aligned offset (R90, R93). -/
def hostWrite (o : BitVec 8) (v : Word) (s : State) : Out :=
  if o = cmdOffset then commandWrite v s else .next (regWrite o v s)

/-- RegRead: the value goes to the host and nothing else changes (R257). -/
def hostRead (o : BitVec 8) (s : State) : State := { s with rdata := regRead s o }

/-- One access of a host-program line; `s.program` already holds what follows the line. A POLL that has not seen its value stays
the next access (R108). -/
def hostLine (l : HostLine) (s : State) : Out :=
  if lineWf l then
    match l with
    | .wr o v => hostWrite o v s
    | .rd o => .next (hostRead o s)
    | .poll o mask value =>
      if regRead s o &&& mask = value then .next (hostRead o s)
      else .next { hostRead o s with program := .line l :: s.program }
  else .refused .registerAccessUnaligned

/-- One access of the host; `s.program` already holds what follows it. -/
def hostAccess (op : HostOp) (s : State) : Out :=
  match op with
  | .line l => hostLine l s
  | .narrow _ _ => .refused .registerAccessWidth
  | .store a b => .next (tickState (hostStore a.toNat b s))
  | .load a => .next (tickState { s with rdata := (hostLoad s a.toNat).setWidth 32 })

/-- The host's turn: its next access, or nothing if it has none. -/
def hostTurn (s : State) : Out :=
  match s.program with
  | [] => .next s
  | op :: rest => hostAccess op { s with program := rest }

/-- Reset: every piece of the instance's state takes its reset value at once (R340). Host memory and the host's side of the bus are
outside the instance (R341). -/
def resetTurn (s : State) : State :=
  { State.resetOf s.build with
    mem := memAfterReset s
    program := s.program
    schedule := s.schedule
    rdata := s.rdata
    tick := s.tick + 1 }

/-- The engine's turn (R254). -/
def engineTurn (s : State) : Out := tickOut (engineStep s)

/-- Who moves: the schedule's next turn; with the schedule used up, the engine while BUSY = 1 and the host otherwise, which is a
fair continuation (R255; log entry 3). -/
def takeTurn (s : State) : Out :=
  match s.schedule with
  | .host :: rest => hostTurn { s with schedule := rest }
  | .engine :: rest => engineTurn { s with schedule := rest }
  | .reset :: rest => .next (resetTurn { s with schedule := rest })
  | [] => if s.status.busy then engineTurn s else hostTurn s

/-- The state whose next turn is the host's CMD write of the word with bits `w`. -/
def placeCommand (s : State) (nbits w : Nat) : State :=
  { s with
    program := .line (.wr cmdOffset (BitVec.ofNat 32 (w % 2 ^ nbits))) :: s.program
    schedule := .host :: s.schedule }

end Sys2Proof.Machine
end

