-- ==== Sys2Proof/Machine/Step.lean ====
section
/-! DEFINITION. One step of the machine (45_commands.md R254, R255), and where it fetches its next command. -/

namespace Sys2Proof.Machine

/-- One step: one turn of the host, of the engine, or a reset. -/
def step (s : State) : Host.Outcome State Fault Refusal := takeTurn s

/-- `s` with the command word `w` as the host's next CMD write and the next turn the host's (log entry 4). -/
def State.withFetchWord (s : State) (nbits w : Nat) : State := placeCommand s nbits w

end Sys2Proof.Machine
end

