-- ==== Sys2Proof/Safety.lean ====
section
/-! DEFINITION. The terms the statements are made in: the image a memory holds, the distance and the output the spec computes
from it, the invariant of the machine, and the bound on the steps of a job. -/

namespace Sys2Proof.Machine

/-- The distance of a pixel pair straight from the entry function, E(idx(p1, p2)) as the LUT's word holds it (R125, R127). -/
def entryDist (b : Build) (p q : Pixel) : Nat := (entryWord b (lutIndex b.lutBits p q)).toNat

/-- The pixel whose four bytes stand at address `a` (R61). -/
def memPixel (m : Memory) (a : Nat) : Pixel :=
  unpack4 (memRead m a) (memRead m (a + 1)) (memRead m (a + 2)) (memRead m (a + 3))

/-- P(x, y) of the source image a memory holds (R151). -/
def imagePixel (m : Memory) (j : Job) (x y : Int) : Pixel :=
  memPixel m (srcAddr j (clamp x j.w.toNat) (clamp y j.h.toNat))

/-- The window of pixel (x, y) of that image (R152). -/
def imageWindow (m : Memory) (j : Job) (x y : Nat) : Window :=
  fun dy dx => imagePixel m j ((x : Int) + dx) ((y : Int) + dy)

/-- The signature of pixel (x, y) of that image (R176). -/
def imageSignature (b : Build) (m : Memory) (j : Job) (x y : Nat) : BitVec 8 :=
  signature b.thresholds (entryDist b) (imageWindow m j x y)

/-- The resolved rotations of pixel (x, y) of that image (R193). -/
def imageResolved (b : Build) (m : Memory) (j : Job) (x y : Nat) : Nat → Resolved :=
  resolve b.thresholds (entryDist b) (imageSignature b m j x y) (kernelOf (imageWindow m j x y))

/-- COMBINE(WEIGHT_MAP(S(x, y), k(x, y), N)[i][j], k(x, y)) for that image (R261). -/
def scaledPixel (b : Build) (m : Memory) (j : Job) (x y si sj : Nat) : Pixel :=
  combine (weightMap b.catalogue j.n.toNat (imageResolved b m j x y) si sj) (kernelOf (imageWindow m j x y))

/-- Once LUT_READY is set the LUT holds E(k) at every index (R42, R130). -/
def LutSound (s : State) : Prop := s.status.lutReady = true → s.lut = lutFill s.build

/-- BUSY = 0 exactly when ENG = IDLE (R41). -/
def BusyMatchesEngine (s : State) : Prop := s.status.busy = false ↔ s.eng = .idle

/-- DONE and an error code stand only while no job runs (R251, R310, R350). -/
def FlagsSettled (s : State) : Prop := s.status.busy = true → s.status.done = false ∧ s.status.err = .ok

/-- A static LUT is always ready (R14, R340). -/
def StaticReady (s : State) : Prop := s.build.lutStatic = true → s.status.lutReady = true

/-- The running job is one validation accepts, its command is the one ENG runs, the LUT is ready before the first lookup (R253,
R309), the cursor stands in the job's rows (R266), and ROWS_DONE counts the rows before it (R268). -/
def JobMatchesEngine (s : State) : Prop :=
  match s.eng with
  | .idle => True
  | .build .none => s.job.op = 1
  | .build .dist => s.job.op = 3
  | .build .classify => s.job.op = 4 ∧ validateClassify s.job = .ok
  | .build .scale => s.job.op = 2 ∧ validateScale s.job = .ok ∧ s.rowsDone = 0
  | .dist => s.job.op = 3 ∧ s.status.lutReady = true
  | .classify => s.job.op = 4 ∧ s.status.lutReady = true ∧ validateClassify s.job = .ok
  | .scale y x =>
    s.job.op = 2 ∧ s.status.lutReady = true ∧ cursorInJob s.job y x = true ∧
      s.rowsDone.toNat = y - s.job.rowFirst.toNat

/-- What holds in every state a run from a reset state reaches. -/
structure Invariant (s : State) : Prop where
  busy : BusyMatchesEngine s
  flags : FlagsSettled s
  lut : LutSound s
  static : StaticReady s
  job : JobMatchesEngine s
  memory : Memory.wf s.mem = true

/-- The number of engine steps the running job still takes at most (R269, R271). -/
def stepsLeft (s : State) : Nat :=
  let rows := s.job.rowLast.toNat - s.job.rowFirst.toNat
  match s.eng with
  | .idle => 0
  | .build .none => 1
  | .build .dist => 2
  | .build .classify => 2
  | .build .scale => rows * s.job.w.toNat + 2
  | .dist => 1
  | .classify => 1
  | .scale y x => (s.job.rowLast.toNat - y) * s.job.w.toNat - x + 1

/-- A step is safe if it does not stop with a fault: it goes on, or refuses an access that has no host step. -/
def SafeStep (s : State) : Prop := ∀ f, step s ≠ .fault f

end Sys2Proof.Machine
end

