-- ==== Sys2Proof/Certificates/Slice0/Obligations.lean ====
section
/-! DEFINITION. The statements for the provers. Each docstring says which rule of spec/ the statement formalises. -/

open Sys2Proof Sys2Proof.Machine

/-! Encoding (30_encoding.md). -/

/-- R96, R106: a word decodes to a command exactly when it is that command's word, and every other word is refused: MBZ not
zero, or OPC above 4. -/
def Obligations.DecodeAcceptsExactlyTheFiveWords : Prop :=
  (∀ (v : Word) (i : Instr), decodeWord v = .ok i ↔ v = encode i) ∧
  (∀ v : Word, (∃ e, decodeWord v = .error e) ↔ (v.extractLsb' 8 24 ≠ 0#24 ∨ 4 < (v.extractLsb' 0 8).toNat))

/-- R110: decoding the binary form of a host program gives the program back, as words and as little-endian bytes, and a list of
words that decodes is the binary form of what it decodes to, so no bit of the form is dropped. -/
def Obligations.HostProgramBinaryRoundTrip : Prop :=
  (∀ p : List HostLine, decodeProgram (encodeProgram p) = .ok p ∧ decodeProgramBytes (encodeProgramBytes p) = .ok p) ∧
  (∀ (ws : List Word) (p : List HostLine), decodeProgram ws = .ok p → encodeProgram p = ws)

/-- R96, R106, R110: the five words of the opcode table, a few words outside it, and the two examples of R110. -/
def Obligations.SampleWordsDecode : Prop :=
  decodeTableWord 32 0x00000000 = some .nop ∧ decodeTableWord 32 0x00000001 = some .lutInit ∧
  decodeTableWord 32 0x00000002 = some .scale ∧ decodeTableWord 32 0x00000003 = some .dist ∧
  decodeTableWord 32 0x00000004 = some .classify ∧ decodeTableWord 32 0x00000005 = none ∧
  decodeTableWord 32 0x00000102 = none ∧ decodeTableWord 32 0x80000000 = none ∧
  encodeLine (.wr 0x2C#8 3#32) = [0x0000002C#32, 0x00000003#32] ∧
  encodeProgram pseudoWait = [0x0000020C#32, 0x00000002#32, 0x00000002#32] ∧
  (∀ b0 b1 b2 b3 : Byte, ∀ rest, decodeBytes (b0 :: b1 :: b2 :: b3 :: rest) = .ok (.scale, rest) ↔
    b0 = 2 ∧ b1 = 0 ∧ b2 = 0 ∧ b3 = 0)

/-! Reset (70_reset_and_hazards.md). -/

/-- R340: every piece of the instance's state after a reset, from any state, and the value every offset of the window then
reads. -/
def Obligations.ResetSetsEveryPieceOfState : Prop :=
  ∀ s : State, ∃ t, step { s with schedule := .reset :: s.schedule } = .next t ∧
    t.build = s.build ∧ t.ctrl.irqEn = false ∧ t.ctrl.cancel = false ∧
    t.status.busy = false ∧ t.status.done = false ∧ t.status.ovr = false ∧ t.status.err = .ok ∧
    t.status.lutReady = s.build.lutStatic ∧
    t.params = { srcBase := 0, srcWidth := 0, srcHeight := 0, srcLen := 0, dstBase := 0, dstLen := 0, factor := 0,
                 rowFirst := 0, rowLast := 0, arg0 := 0, arg1 := 0 } ∧
    t.result0 = 0 ∧ t.result1 = 0 ∧ t.rowsDone = 0 ∧
    t.job = { op := 0, srcBase := 0, w := 0, h := 0, srcLen := 0, dstBase := 0, dstLen := 0, n := 0, rowFirst := 0,
              rowLast := 0, arg0 := 0, arg1 := 0 } ∧
    t.eng = .idle ∧ (s.build.lutStatic = true → ∀ k, k < lutSize s.build.lutBits →
      lutRead t.lut k = entryWord s.build k ∧
      (entryValue s.build k < 2 ^ 32 → (lutRead t.lut k).toNat = entryValue s.build k)) ∧
    irq t = false ∧
    (∀ o : BitVec 8, regRead t o =
      if o = 0x00 then 0x5A524278#32
      else if o = 0x04 then cfgWord s.build
      else if o = 0x0C ∧ s.build.lutStatic = true then 0x00000004#32 else 0)

/-- R341: reset leaves every byte outside the rows of a running SCALE job as it is. A byte of those rows holds what it holds, what it
held before the job, or what the job writes there: that form of U13 is the model's choice, log entry 11. -/
def Obligations.ResetLeavesHostMemoryOutsideARunningJob : Prop :=
  ∀ (s : State) (a : Nat), Invariant s →
    ((s.status.busy = false ∨ s.job.op ≠ 2 ∨ inDest s.job a = false) → memRead (resetTurn s).mem a = memRead s.mem a) ∧
    (s.status.busy = true → s.job.op = 2 → inDest s.job a = true →
      memRead (resetTurn s).mem a = memRead s.mem a ∨ memRead (resetTurn s).mem a = memRead s.race.before a ∨
        memRead (resetTurn s).mem a = jobByteAt s a)

/-! The register window (10_state.md, 20_memory.md, 30_encoding.md). -/

/-- R24: the value of CFG for the builds of either LUT_BITS and LUT_STATIC. No step changes the build or what CFG reads, ID reads its
constant, and a write to either is ignored (R23). -/
def Obligations.CfgAndIdAreBuildConstants : Prop :=
  (∀ b : Build, cfgWord b = match b.lutBits, b.lutStatic with
    | .five, false => 0x00000085#32
    | .five, true => 0x00000185#32
    | .eight, false => 0x00000088#32
    | .eight, true => 0x00000188#32) ∧
  (∀ s : State, regRead s 0x04 = cfgWord s.build ∧ regRead s 0x00 = 0x5A524278#32) ∧
  (∀ s t : State, step s = .next t → t.build = s.build ∧ regRead t 0x04 = regRead s 0x04) ∧
  (∀ (s : State) (v : Word), hostWrite 0x00 v s = .next s ∧ hostWrite 0x04 v s = .next s)

/-- R93: the access classes. RW stores the whole word (CTRL its two defined fields), RO ignores writes, W1C clears where 1 is
written, WO (CMD) stores nothing and reads 0. R91: an unmapped offset reads 0 and ignores writes. -/
def Obligations.RegisterAccessClasses : Prop :=
  (∀ (s : State) (o : BitVec 8) (v : Word), 0x14 ≤ o.toNat → o.toNat ≤ 0x3C → o.toNat % 4 = 0 →
    ∃ p, hostWrite o v s = .next { s with params := p } ∧ regRead { s with params := p } o = v ∧
      ∀ o' : BitVec 8, o' ≠ o → regRead { s with params := p } o' = regRead s o') ∧
  (∀ (s : State) (v : Word), ∃ c, hostWrite 0x08 v s = .next { s with ctrl := c } ∧
    regRead { s with ctrl := c } 0x08 = v &&& 0x00000003#32) ∧
  (∀ (s : State) (v : Word), ∃ u, hostWrite 0x0C v s = .next { s with status := u } ∧
    regRead { s with status := u } 0x0C = regRead s 0x0C &&& ~~~(v &&& 0x0000000A#32)) ∧
  (∀ (s : State) (o : BitVec 8) (v : Word), o ∈ [0x00#8, 0x04#8, 0x40#8, 0x44#8, 0x48#8] → hostWrite o v s = .next s) ∧
  (∀ (s : State) (v : Word), hostWrite 0x10 v s = commandWrite v s ∧ regRead s 0x10 = 0) ∧
  (∀ (s : State) (o : BitVec 8) (v : Word), 0x4C ≤ o.toNat → o.toNat % 4 = 0 → regRead s o = 0 ∧ hostWrite o v s = .next s)

/-- R92: the reserved fields of CFG, CTRL and STATUS read 0, and the value written to them is ignored. -/
def Obligations.ReservedFieldsReadZero : Prop :=
  ∀ s : State, (regRead s 0x04).extractLsb' 9 23 = 0 ∧ (regRead s 0x08).extractLsb' 2 30 = 0 ∧
    (regRead s 0x0C).extractLsb' 4 4 = 0 ∧ (regRead s 0x0C).extractLsb' 12 20 = 0 ∧
    (∀ v, hostWrite 0x08 v s = hostWrite 0x08 (v &&& 0x00000003#32) s) ∧
    (∀ v, hostWrite 0x0C v s = hostWrite 0x0C (v &&& 0x00000F0F#32) s) ∧
    (∀ v, hostWrite 0x04 v s = .next s)

/-- R257, R108: a register read, at any time, answers the register's value and changes nothing else; so does a POLL, which the host has
done with when the value masked is the one it waits for, and which stays its next access otherwise. The `rdata` field is the model's
record of the value (log entry 18), and one read in each host turn is how the model takes a POLL (log entry 21). -/
def Obligations.RegisterReadsChangeNothing : Prop :=
  ∀ (s : State) (o : BitVec 8) (rest : List HostOp) (sch : List Turn), o.toNat % 4 = 0 →
    step { s with schedule := .host :: sch, program := .line (.rd o) :: rest } =
      .next { s with schedule := sch, program := rest, rdata := regRead s o } ∧
    ∀ mask value : Word,
      (regRead s o &&& mask = value →
        step { s with schedule := .host :: sch, program := .line (.poll o mask value) :: rest } =
          .next { s with schedule := sch, program := rest, rdata := regRead s o }) ∧
      (regRead s o &&& mask ≠ value →
        step { s with schedule := .host :: sch, program := .line (.poll o mask value) :: rest } =
          .next { s with schedule := sch, program := .line (.poll o mask value) :: rest, rdata := regRead s o })

/-- R65: a register access that is not 32 bits wide, or at an offset that is not a multiple of 4, is refused. -/
def Obligations.BadRegisterAccessesAreRefused : Prop :=
  (∀ (s : State) (o : BitVec 8) (v m : Word), o.toNat % 4 ≠ 0 →
    hostAccess (.line (.wr o v)) s = .refused .registerAccessUnaligned ∧
    hostAccess (.line (.rd o)) s = .refused .registerAccessUnaligned ∧
    hostAccess (.line (.poll o m v)) s = .refused .registerAccessUnaligned) ∧
  (∀ (s : State) (o : BitVec 8) (n : Nat), hostAccess (.narrow o n) s = .refused .registerAccessWidth) ∧
  (∀ (s : State) (r : Refusal), step s = .refused r →
    ∃ op rest, s.program = op :: rest ∧ hostOpWf op = false)

/-- R320: irq is IRQ_EN and DONE as CTRL and STATUS read them. A completion raises it when it is enabled, and a W1C write of DONE,
a write that clears IRQ_EN, or an acceptance that starts the engine clears it. -/
def Obligations.IrqIsEnableAndDone : Prop :=
  (∀ s : State, irq s = ((regRead s 0x08).getLsbD 0 && (regRead s 0x0C).getLsbD 1)) ∧
  (∀ (s : State) (c : ErrCode), irq (complete c s) = s.ctrl.irqEn) ∧
  (∀ (s t : State) (v : Word), v.getLsbD 1 = true → hostWrite 0x0C v s = .next t → irq t = false) ∧
  (∀ (s t : State) (v : Word), v.getLsbD 0 = false → hostWrite 0x08 v s = .next t → irq t = false) ∧
  (∀ (i : Instr) (s t : State), s.status.busy = false → exec i s = .next t → t.status.busy = true → irq t = false)

/-! One step (45_commands.md). -/

/-- R250: where it is the host's turn and its next access is a CMD write of a word that decodes to a command, the step is `exec` of that
command at the state whose program and schedule have moved on; a word that does not decode is issued as an illegal one. That the host
moves when the schedule is used up and BUSY = 0 (second clause) is the model's choice, log entry 3; that `withFetchWord` places the
host's CMD write as the next turn (third clause) is the model's choice, log entry 4. -/
def Obligations.StepRunsTheDecodedCommand : Prop :=
  (∀ (s : State) (v : Word) (i : Instr) (rest : List HostOp) (sch : List Turn), decodeWord v = .ok i → i.wf = true →
    step { s with schedule := .host :: sch, program := .line (.wr 0x10 v) :: rest } =
      exec i { s with schedule := sch, program := rest }) ∧
  (∀ (s : State) (v : Word) (i : Instr) (rest : List HostOp), s.status.busy = false → decodeWord v = .ok i →
    step { s with schedule := [], program := .line (.wr 0x10 v) :: rest } =
      exec i { s with schedule := [], program := rest }) ∧
  (∀ (s : State) (nbits w : Nat) (i : Instr), decodeTableWord nbits w = some i →
    step (s.withFetchWord nbits w) = exec i s) ∧
  (∀ (s : State) (v : Word) (e : DecodeReject) (rest : List HostOp) (sch : List Turn), decodeWord v = .error e →
    step { s with schedule := .host :: sch, program := .line (.wr 0x10 v) :: rest } =
      issueIllegal v { s with schedule := sch, program := rest })

/-- R254, R255: on the engine's turn the step is one engine step, which leaves the machine as it is while BUSY = 0; and `n` engine
steps in a row are `n` steps of the machine on a schedule of engine turns, when no host access races with the job. That the engine
moves when the schedule is used up and BUSY = 1 (second clause) is the model's choice, one fair continuation of those R255 allows,
log entry 3. The counter of draws is the model's own, log entry 7. -/
def Obligations.EngineRunsAreMachineSteps : Prop :=
  (∀ (s : State) (sch : List Turn), step { s with schedule := .engine :: sch } = tickOut (engineStep { s with schedule := sch })) ∧
  (∀ s : State, s.status.busy = true → s.schedule = [] → step s = tickOut (engineStep s)) ∧
  (∀ s : State, s.status.busy = false → engineStep s = .next s) ∧
  ∀ (n : Nat) (s t : State) (sch : List Turn), s.schedule = List.replicate n .engine ++ sch → s.race.srcOld = [] →
    s.race.contested = [] → engineRun n s = .next t →
    Sys2Proof.core.run n s = .next { t with schedule := sch, tick := s.tick + n }

/-! Acceptance, validation, completion (45_commands.md, 60_exceptions.md). -/

/-- R250: a CMD write while BUSY = 1 is dropped and sets OVR. Nothing else changes, whatever the word. -/
def Obligations.CommandWhileBusyIsDropped : Prop :=
  ∀ s : State, s.status.busy = true →
    (∀ v : Word, commandWrite v s = .next { s with status := { s.status with ovr := true } }) ∧
    (∀ i : Instr, exec i s = .next { s with status := { s.status with ovr := true } })

/-- R251, R252: what the acceptance of any word latches and clears, what it leaves alone, and what starts. The `race` field is the
model's record of the job (log entries 7 to 11). -/
def Obligations.AcceptanceLatchesClearsAndStarts : Prop :=
  ∀ (s : State) (v : Word), s.status.busy = false → ∃ t, commandWrite v s = .next t ∧
    t.job = { op := v.extractLsb' 0 8, srcBase := regRead s 0x14, w := regRead s 0x18, h := regRead s 0x1C,
              srcLen := regRead s 0x20, dstBase := regRead s 0x24, dstLen := regRead s 0x28, n := regRead s 0x2C,
              rowFirst := regRead s 0x30, rowLast := regRead s 0x34, arg0 := regRead s 0x38, arg1 := regRead s 0x3C } ∧
    t.ctrl.cancel = false ∧ t.rowsDone = 0 ∧
    t = { s with job := t.job, status := t.status, ctrl := { s.ctrl with cancel := false }, rowsDone := 0,
                 eng := t.eng, race := t.race } ∧
    t.status.ovr = s.status.ovr ∧ t.status.lutReady = s.status.lutReady ∧
    (validate v t.job ≠ .ok →
      t.status.busy = false ∧ t.status.done = true ∧ t.status.err = validate v t.job ∧ t.eng = .idle) ∧
    (validate v t.job = .ok → t.status.err = .ok ∧
      (v = 0x00000000#32 ∧ t.status.busy = false ∧ t.status.done = true ∧ t.eng = .idle ∨
        v = 0x00000001#32 ∧ t.status.busy = true ∧ t.status.done = false ∧ t.eng = .build .none ∨
        v = 0x00000003#32 ∧ t.status.busy = true ∧ t.status.done = false ∧
          t.eng = (if s.status.lutReady then .dist else .build .dist) ∨
        v = 0x00000004#32 ∧ t.status.busy = true ∧ t.status.done = false ∧
          t.eng = (if s.status.lutReady then .classify else .build .classify) ∨
        v = 0x00000002#32 ∧ t.status.busy = true ∧ t.status.done = false ∧
          t.eng = (if s.status.lutReady then .scale (regRead s 0x30).toNat 0 else .build .scale)))

/-- R106, R306: an illegal command word written while BUSY = 0 completes at once with ILLEGAL_COMMAND; JOB.op holds v[7:0], and
nothing but the acceptance effects of R251 happens. -/
def Obligations.IllegalWordCompletesAtOnce : Prop :=
  ∀ (s : State) (v : Word), s.status.busy = false → (v.extractLsb' 8 24 ≠ 0#24 ∨ 4 < (v.extractLsb' 0 8).toNat) →
    commandWrite v s = .next
      { s with
        job := jobOf (v.extractLsb' 0 8) s.params
        status := { busy := false, done := true, lutReady := s.status.lutReady, ovr := s.status.ovr,
                    err := .illegalCommand }
        ctrl := { s.ctrl with cancel := false }
        rowsDone := 0
        eng := .idle }

/-- R301 to R306, R308, R309: which outcome validation gives, by the exact conditions of each check and their order. -/
def Obligations.ValidationReportsTheFirstFailingCheck : Prop :=
  ∀ (v : Word) (j : Job),
    let W := j.w.toNat
    let H := j.h.toNat
    let N := j.n.toNat
    let D := W * N * (H * N) * 4
    let dims := W = 0 ∨ H = 0 ∨ W * H * 4 ≠ j.srcLen.toNat
    let rows := j.rowFirst.toNat > j.rowLast.toNat ∨ j.rowLast.toNat > H
    let coords := j.arg0.toNat ≥ W ∨ j.arg1.toNat ≥ H
    let factor := N ≠ 2 ∧ N ≠ 3 ∧ N ≠ 4 ∧ N ≠ 5 ∧ N ≠ 6
    let wraps := j.srcBase.toNat + j.srcLen.toNat > 2 ^ 32
    let alloc := D > j.dstLen.toNat ∨ j.dstBase.toNat + D > 2 ^ 32
    let overlap := j.srcBase.toNat < j.dstBase.toNat + D ∧ j.dstBase.toNat < j.srcBase.toNat + j.srcLen.toNat
    (validate v j = .illegalCommand ↔ v.extractLsb' 8 24 ≠ 0#24 ∨ 4 < (v.extractLsb' 0 8).toNat) ∧
    (v ∈ [encode .nop, encode .lutInit, encode .dist] → validate v j = .ok) ∧
    (v = encode .scale →
      (validate v j = .invalidDimensions ↔ dims ∨ rows) ∧
      (validate v j = .unsupportedFactor ↔ ¬(dims ∨ rows) ∧ factor) ∧
      (validate v j = .allocationFailure ↔ ¬(dims ∨ rows) ∧ ¬factor ∧ ¬wraps ∧ alloc) ∧
      (validate v j = .regionFault ↔ ¬(dims ∨ rows) ∧ ¬factor ∧ (wraps ∨ ¬alloc ∧ overlap)) ∧
      (validate v j = .ok ↔ ¬(dims ∨ rows) ∧ ¬factor ∧ ¬wraps ∧ ¬alloc ∧ ¬overlap)) ∧
    (v = encode .classify →
      (validate v j = .invalidDimensions ↔ dims ∨ coords) ∧
      (validate v j = .regionFault ↔ ¬(dims ∨ coords) ∧ wraps) ∧
      (validate v j = .ok ↔ ¬(dims ∨ coords) ∧ ¬wraps))

/-- R305: once the earlier checks have passed, SCALE is rejected with REGION_FAULT exactly when the source region and the destination
region share a byte. -/
def Obligations.OverlapCheckFindsASharedByte : Prop :=
  ∀ j : Job, badDimensions j = false → badRows j = false → badFactor j = false → sourceWraps j = false →
    badAllocation j = false →
    (validate (encode .scale) j = .regionFault ↔
      ∃ a, (j.srcBase.toNat ≤ a ∧ a < j.srcBase.toNat + j.srcLen.toNat) ∧
        (j.dstBase.toNat ≤ a ∧ a < j.dstBase.toNat + j.w.toNat * j.n.toNat * (j.h.toNat * j.n.toNat) * 4))

/-- R310: the engine step that ends a job sets DONE and an outcome code, clears BUSY, leaves the sequencer idle, and writes no host
memory; unless it is a CLASSIFY step it accesses none (R264, R269, R270). Afterwards a host load reads memory as it is (R76). That a load right after BUSY = 0 does so, with no read of STATUS
before it, is read from R74 to R76, log entry 19; `events`, the step's memory events, is the model's record, log entry 18. -/
def Obligations.CompletionIsPrecise : Prop :=
  ∀ s t : State, s.status.busy = true → engineStep s = .next t → t.status.busy = false →
    t.status.done = true ∧ t.eng = .idle ∧ (t.status.err = .ok ∨ t.status.err = .cancelled) ∧
    t.job = s.job ∧ t.rowsDone = s.rowsDone ∧ t.status.ovr = s.status.ovr ∧ t.ctrl.irqEn = s.ctrl.irqEn ∧
    t.mem = s.mem ∧ (∀ a p, MemEvent.write a p ∉ t.events) ∧ (s.eng ≠ .classify → t.events = []) ∧
    ∀ a, hostLoad t a = memRead s.mem a

/-! The commands (45_commands.md). -/

/-- R258: NOP, written while BUSY = 0, completes at acceptance; BUSY stays 0. While BUSY = 1 it is dropped and sets OVR. -/
def Obligations.NopCompletesAtAcceptance : Prop :=
  (∀ s : State, s.status.busy = false →
    exec .nop s = .next
      { s with
        job := jobOf 0 s.params
        status := { busy := false, done := true, lutReady := s.status.lutReady, ovr := s.status.ovr, err := .ok }
        ctrl := { s.ctrl with cancel := false }
        rowsDone := 0
        eng := .idle }) ∧
  (∀ s : State, s.status.busy = true → exec .nop s = .next { s with status := { s.status with ovr := true } })

/-- R259, R130, R253: LUT_INIT, written while BUSY = 0, runs for one engine step, which fills the LUT with E(k) at every index k and
completes with OK. Memory and the results are unchanged, and the step accesses no host memory (`events` is the model's record of a step's memory events,
log entry 18). (Where a build's E(k) does not fit the 32-bit word of R42 the word is a free
value, log entry 25; with the coefficients of R10 every E(k) fits, EveryEntryIsAtMost87176.) -/
def Obligations.LutInitFillsTheLut : Prop :=
  ∀ s : State, s.status.busy = false → ∃ t u, exec .lutInit s = .next t ∧ t.status.busy = true ∧ t.status.done = false ∧
    engineRun 1 t = .next u ∧
    u = { s with
          job := jobOf 1 s.params
          status := { busy := false, done := true, lutReady := true, ovr := s.status.ovr, err := .ok }
          ctrl := { s.ctrl with cancel := false }
          rowsDone := 0
          eng := .idle
          lut := u.lut
          race := { before := s.mem, srcOld := [], contested := [] }
          events := [] } ∧
    u.lut.length = lutSize s.build.lutBits ∧
    (∀ k, k < lutSize s.build.lutBits → lutRead u.lut k = entryWord s.build k ∧
      (entryValue s.build k < 2 ^ 32 → (lutRead u.lut k).toNat = entryValue s.build k))

/-- R262: DIST, written while BUSY = 0, gives the distance and the LUT index of the two packed pixels, after one engine step, or two if
the LUT is not ready. Its step, and the build's, access no host memory: no event is recorded (log entry 18). -/
def Obligations.DistGivesDistanceAndIndex : Prop :=
  ∀ s : State, s.status.busy = false → LutSound s →
    ∃ t u, exec .dist s = .next t ∧ engineRun (if s.status.lutReady then 1 else 2) t = .next u ∧
      (∀ v, engineStep t = .next v → v.events = []) ∧
      u = { s with
            job := jobOf 3 s.params
            status := { busy := false, done := true, lutReady := true, ovr := s.status.ovr, err := .ok }
            ctrl := { s.ctrl with cancel := false }
            result0 := u.result0
            result1 := u.result1
            rowsDone := 0
            eng := .idle
            lut := lutFill s.build
            race := { before := s.mem, srcOld := [], contested := [] }
            events := [] } ∧
      (let k := lutIndex s.build.lutBits (unpack s.params.arg0) (unpack s.params.arg1)
       u.result0 = entryWord s.build k ∧ (entryValue s.build k < 2 ^ 32 → u.result0.toNat = entryValue s.build k) ∧
       u.result1.toNat = k)

/-- R264: CLASSIFY of a pixel validation accepts, written while BUSY = 0, gives the signature and the resolved-pattern word of source
pixel (arg0, arg1) of the image in host memory. It reads the pixels of the window, each address once (R156), and writes no host
memory. That a CLASSIFY step's reads are recorded, and the order of the record, that of R267 for SCALE, are the model's
choice, log entry 12: no rule gives them. -/
def Obligations.ClassifyGivesSignatureAndPatterns : Prop :=
  ∀ s : State, s.status.busy = false → LutSound s → validateClassify (jobOf 4 s.params) = .ok →
    ∃ t, exec .classify s = .next t ∧
      engineRun (if s.status.lutReady then 1 else 2) t = .next
        { s with
          job := jobOf 4 s.params
          status := { busy := false, done := true, lutReady := true, ovr := s.status.ovr, err := .ok }
          ctrl := { s.ctrl with cancel := false }
          result0 := (imageSignature s.build s.mem (jobOf 4 s.params) s.params.arg0.toNat
            s.params.arg1.toNat).setWidth 32
          result1 := (patternWord (imageResolved s.build s.mem (jobOf 4 s.params) s.params.arg0.toNat
            s.params.arg1.toNat)).setWidth 32
          rowsDone := 0
          eng := .idle
          lut := lutFill s.build
          race := { before := s.mem, srcOld := [], contested := [] }
          events := (windowAddrs (jobOf 4 s.params) s.params.arg0.toNat s.params.arg1.toNat).map fun a =>
            .read a (memPixel s.mem a) }

/-- R260, R266, R268, R269: a SCALE job that validation accepts, with no host access while it runs, ends after R·W + 1 engine steps
(one more if it builds the LUT) with OK, the scaled block of every pixel of its rows in place, every other byte of host memory
unchanged, and ROWS_DONE = R. -/
def Obligations.ScaleWritesEveryBlockOfItsRows : Prop :=
  ∀ s : State, s.status.busy = false → LutSound s → Memory.wf s.mem = true → validateScale (jobOf 2 s.params) = .ok →
    let j := jobOf 2 s.params
    let rows := j.rowLast.toNat - j.rowFirst.toNat
    ∃ t u, exec .scale s = .next t ∧
      engineRun ((if s.status.lutReady then 0 else 1) + rows * j.w.toNat + 1) t = .next u ∧
      u = { s with
            job := j
            status := { busy := false, done := true, lutReady := true, ovr := s.status.ovr, err := .ok }
            ctrl := { s.ctrl with cancel := false }
            rowsDone := BitVec.ofNat 32 rows
            eng := .idle
            lut := lutFill s.build
            mem := u.mem
            race := { before := s.mem, srcOld := [], contested := [] }
            events := [] } ∧
      (∀ x y si sj k, x < j.w.toNat → j.rowFirst.toNat ≤ y → y < j.rowLast.toNat → si < j.n.toNat → sj < j.n.toNat → k < 4 →
        memRead u.mem (dstAddr j x y si sj + k) =
          (pixelBytes (scaledPixel s.build s.mem j x y si sj)).getD k 0) ∧
      (∀ a, inDest j a = false → memRead u.mem a = memRead s.mem a) ∧ Memory.wf u.mem = true

/-- R261, R236: SCALE with ROW_FIRST = 0 and ROW_LAST = H scales the whole image: the four bytes at DstAddr(x, y, i, j) hold the
combined pixel for every pixel and sub-pixel, and no byte outside the (W·N)·(H·N)·4 bytes at DST_BASE changes. -/
def Obligations.WholeImageScale : Prop :=
  ∀ s : State, s.status.busy = false → LutSound s → Memory.wf s.mem = true → s.params.rowFirst = 0 →
    s.params.rowLast = s.params.srcHeight → validateScale (jobOf 2 s.params) = .ok →
    let j := jobOf 2 s.params
    ∃ t n u, exec .scale s = .next t ∧ engineRun n t = .next u ∧ u.status.busy = false ∧ u.status.done = true ∧
      u.status.err = .ok ∧
      (∀ x y si sj, x < j.w.toNat → y < j.h.toNat → si < j.n.toNat → sj < j.n.toNat →
        memPixel u.mem (dstAddr j x y si sj) = scaledPixel s.build s.mem j x y si sj) ∧
      (∀ a, (a < j.dstBase.toNat ∨ j.dstBase.toNat + j.w.toNat * j.n.toNat * (j.h.toNat * j.n.toNat) * 4 ≤ a) →
        memRead u.mem a = memRead s.mem a)

/-- R270, R307: a cancel requested while row `row_first + m` is the next to start ends the job there with CANCELLED and
ROWS_DONE = m: the rows before are completely written, and every other byte of host memory is unchanged. -/
def Obligations.CancelledScaleLeavesWholeRows : Prop :=
  ∀ (s : State) (m : Nat), s.status.busy = false → LutSound s → Memory.wf s.mem = true →
    validateScale (jobOf 2 s.params) = .ok →
    m < s.params.rowLast.toNat - s.params.rowFirst.toNat →
    let j := jobOf 2 s.params
    ∃ t u c, exec .scale s = .next t ∧ engineRun ((if s.status.lutReady then 0 else 1) + m * j.w.toNat) t = .next u ∧
      hostWrite 0x08 0x00000002#32 u = .next c ∧
      engineStep c = .next
        { s with
          job := j
          status := { busy := false, done := true, lutReady := true, ovr := s.status.ovr, err := .cancelled }
          ctrl := { irqEn := false, cancel := false }
          rowsDone := BitVec.ofNat 32 m
          eng := .idle
          lut := lutFill s.build
          mem := u.mem
          race := { before := s.mem, srcOld := [], contested := [] }
          events := [] } ∧
      (∀ x y si sj, x < j.w.toNat → j.rowFirst.toNat ≤ y → y < j.rowFirst.toNat + m → si < j.n.toNat → sj < j.n.toNat →
        memPixel u.mem (dstAddr j x y si sj) = scaledPixel s.build s.mem j x y si sj) ∧
      (∀ a, (a < dstLow j ∨
          j.dstBase.toNat + 4 * ((j.rowFirst.toNat + m) * j.n.toNat * (j.w.toNat * j.n.toNat)) ≤ a) →
        memRead u.mem a = memRead s.mem a)

/-- R270: only at a row boundary before the last row's end does an engine step read CANCEL: anywhere else a job that runs with CANCEL
set does exactly what it does without, and CANCEL stays set. -/
def Obligations.CancelIsTestedOnlyAtRowBoundaries : Prop :=
  ∀ s t : State, (∀ y, s.eng = .scale y 0 → y = s.job.rowLast.toNat) → engineStep s = .next t →
    engineStep { s with ctrl := { s.ctrl with cancel := true } } =
      .next { t with ctrl := { t.ctrl with cancel := true } }

/-- R266, R232, R268: one pixel step of a SCALE job with no race writes the N×N block of its pixel and nothing else, moves the cursor
in row-major order, and counts the row when it was the row's last pixel. R267, R156, R73: its recorded memory events are the reads of
the window's clamped addresses, each distinct one once, 1 to 25 of them, in row-major order, which is the order of rising addresses,
and then the N² writes of the block in row-major order. The spec promises of that order only that the reads come before the writes;
the rest is the order a model records (log entry 12). -/
def Obligations.PixelStepWritesItsBlockAndAdvances : Prop :=
  ∀ (s : State) (y x : Nat), Invariant s → s.eng = .scale y x → y < s.job.rowLast.toNat →
    (x = 0 → s.ctrl.cancel = false) → s.race.srcOld = [] → s.race.contested = [] →
    ∃ t, engineStep s = .next t ∧
      t = { s with
            mem := t.mem
            events := t.events
            eng := if x + 1 = s.job.w.toNat then .scale (y + 1) 0 else .scale y (x + 1)
            rowsDone := if x + 1 = s.job.w.toNat then s.rowsDone + 1 else s.rowsDone } ∧
      (∀ si sj, si < s.job.n.toNat → sj < s.job.n.toNat →
        memPixel t.mem (dstAddr s.job x y si sj) = scaledPixel s.build s.mem s.job x y si sj) ∧
      (∀ a, (∀ si sj k, si < s.job.n.toNat → sj < s.job.n.toNat → k < 4 → a ≠ dstAddr s.job x y si sj + k) →
        memRead t.mem a = memRead s.mem a) ∧
      (∃ reads : List Nat, reads.Pairwise (· < ·) ∧ 1 ≤ reads.length ∧ reads.length ≤ 25 ∧
        (∀ a, a ∈ reads ↔ ∃ dy dx : Int, (-2 ≤ dy ∧ dy ≤ 2) ∧ (-2 ≤ dx ∧ dx ≤ 2) ∧
          a = srcAddr s.job (clamp ((x : Int) + dx) s.job.w.toNat) (clamp ((y : Int) + dy) s.job.h.toNat)) ∧
        t.events = reads.map (fun a => .read a (memPixel s.mem a)) ++
          (List.range s.job.n.toNat).flatMap fun si => (List.range s.job.n.toNat).map fun sj =>
            .write (dstAddr s.job x y si sj) (scaledPixel s.build s.mem s.job x y si sj))

/-- R81, R332: scaling rows [first, m) and then rows [m, last) of the same image leaves the same host memory as scaling rows
[first, last) in one job. -/
def Obligations.SplitRowRangesGiveTheSameImage : Prop :=
  ∀ (s : State) (m : Word), s.status.busy = false → LutSound s → Memory.wf s.mem = true →
    validateScale (jobOf 2 s.params) = .ok → s.params.rowFirst.toNat ≤ m.toNat → m.toNat ≤ s.params.rowLast.toNat →
    ∃ n t u n1 t1 u1 n2 t2 u2,
      (exec .scale s = .next t ∧ engineRun n t = .next u ∧ u.status.done = true ∧ u.status.err = .ok) ∧
      (exec .scale { s with params := { s.params with rowLast := m } } = .next t1 ∧ engineRun n1 t1 = .next u1 ∧
        u1.status.done = true ∧ u1.status.err = .ok) ∧
      (exec .scale { u1 with params := { s.params with rowFirst := m } } = .next t2 ∧ engineRun n2 t2 = .next u2 ∧
        u2.status.done = true ∧ u2.status.err = .ok) ∧
      u2.mem = u.mem

/-! The engine's frame. -/

/-- R38, R40, R43, R75: what any engine step leaves alone: JOB, the registers, OVR, IRQ_EN; the results unless it is a DIST or
CLASSIFY step; ROWS_DONE and host memory unless it is a SCALE pixel step; host memory outside the job's rows. -/
def Obligations.EngineStepFrame : Prop :=
  ∀ s t : State, engineStep s = .next t →
    t.job = s.job ∧ t.params = s.params ∧ t.build = s.build ∧ t.status.ovr = s.status.ovr ∧ t.ctrl.irqEn = s.ctrl.irqEn ∧
    t.program = s.program ∧ t.schedule = s.schedule ∧ t.rdata = s.rdata ∧ t.race = s.race ∧
    ((∀ y x, s.eng ≠ .scale y x) → s.eng ≠ .classify → s.status.busy = true → t.events = []) ∧
    (s.status.busy = false → t.events = s.events) ∧
    (s.eng ≠ .dist → s.eng ≠ .classify → t.result0 = s.result0 ∧ t.result1 = s.result1) ∧
    ((∀ y x, s.eng ≠ .scale y x) → t.rowsDone = s.rowsDone ∧ t.mem = s.mem) ∧
    ((∀ n, s.eng ≠ .build n) → t.lut = s.lut ∧ t.status.lutReady = s.status.lutReady) ∧
    (∀ a, inDest s.job a = false → memRead t.mem a = memRead s.mem a)

/-- R40, R256, R348: an engine step reads JOB and never the parameter registers: with any other contents of SRC_BASE .. ARG1 it
does the same. -/
def Obligations.RunningJobIgnoresParameterRegisters : Prop :=
  ∀ (s t : State) (p : Params), engineStep s = .next t →
    engineStep { s with params := p } = .next { t with params := p }

/-- R43: once LUT_READY is set, no step but a reset changes an entry of the LUT or clears LUT_READY. -/
def Obligations.LutIsReadOnlyOnceFilled : Prop :=
  ∀ s t : State, Invariant s → s.status.lutReady = true → s.schedule.head? ≠ some .reset → step s = .next t →
    t.lut = s.lut ∧ t.status.lutReady = true

/-! The units (40_color_distance_lut.md to 44_output_combiner.md). -/

/-- R16: isqrt(n) is the largest natural m with m·m ≤ n. -/
def Obligations.IsqrtIsTheLargestRoot : Prop :=
  ∀ n m : Nat, m * m ≤ n ↔ m ≤ isqrt n

/-- R125: in every build E(k), with the codes cR = k[3B−1:2B], cG = k[2B−1:B] and cB = k[B−1:0], is the square root of the squared
distance of those three channels in 8-bit fixed point, rounded to nearest with halves up: it is the E with 2E − 1 ≤ 2·2^8·sqrt(S) <
2E + 1; with a code above 2L it is 0. The first clause says where the codes stand in k. -/
def Obligations.EntryIsTheRoundedRoot : Prop :=
  ∀ (b : Build) (cR cG cB : Nat),
    let B := lutWidth b.lutBits
    let L := lutLevels b.lutBits
    cR < 2 ^ B → cG < 2 ^ B → cB < 2 ^ B →
    let k := cR * 2 ^ (2 * B) + cG * 2 ^ B + cB
    (k = packIndex b.lutBits cR cG cB ∧ k < lutSize b.lutBits ∧ entryValue b k = entryOfCodes b cR cG cB) ∧
    (cR > 2 * L ∨ cG > 2 * L ∨ cB > 2 * L → entryValue b k = 0) ∧
    (cR ≤ 2 * L → cG ≤ 2 * L → cB ≤ 2 * L →
      let S := squaredDistance b.coefficients (representative b.lutBits cR) (representative b.lutBits cG)
        (representative b.lutBits cB)
      let E : ℚ := (entryValue b k : ℚ)
      0 ≤ S ∧ S * 4 ^ 9 < (2 * E + 1) ^ 2 ∧ (entryValue b k ≠ 0 → (2 * E - 1) ^ 2 ≤ S * 4 ^ 9))

/-- R126: with the coefficients R10 gives, every entry is at most 87176, so it fits its word, and that value is reached at the
differences (±255, ±255, ∓255) for both resolutions. -/
def Obligations.EveryEntryIsAtMost87176 : Prop :=
  ∀ b : Build, b.coefficients = defaultCoefficients →
    (∀ k : Nat, entryValue b k ≤ 87176 ∧ (entryWord b k).toNat = entryValue b k) ∧
    (∀ a a' : Byte, entryDist b ⟨255, 255, 0, a⟩ ⟨0, 0, 255, a'⟩ = 87176 ∧
      entryDist b ⟨0, 0, 255, a⟩ ⟨255, 255, 0, a'⟩ = 87176)

/-- R128, R121: the two invariants of the document, in every build, for the entry function and for the LUT once filled, and alpha never
affects a distance. -/
def Obligations.DistanceIsSymmetricAndZeroOnEqual : Prop :=
  ∀ (b : Build) (p q : Pixel), entryDist b p q = entryDist b q p ∧ entryDist b p p = 0 ∧
    lutDist b.lutBits (lutFill b) p q = entryDist b p q ∧
    lutDist b.lutBits (lutFill b) p q = lutDist b.lutBits (lutFill b) q p ∧ lutDist b.lutBits (lutFill b) p p = 0 ∧
    ∀ x y : Byte, lutDist b.lutBits (lutFill b) { p with a := x } { q with a := y } = lutDist b.lutBits (lutFill b) p q

/-- R122, R123, R124: the quantiser is odd, rounds |d|·L/255 to the nearest with halves away from zero, and stays in −L..L; so
every index has its three codes in 0..2L, laid out as R100 gives, and is an index of the LUT. -/
def Obligations.QuantiserAndIndexStayInRange : Prop :=
  ∀ b : LutBits,
    (∀ d : Int, -255 ≤ d → d ≤ 255 →
      quantLevel b (-d) = -quantLevel b d ∧ quantLevel b 0 = 0 ∧ (0 ≤ d → 0 ≤ quantLevel b d) ∧ (quantLevel b d).natAbs ≤ lutLevels b ∧
      2 * d.natAbs * lutLevels b < 510 * (quantLevel b d).natAbs + 255 ∧
      510 * (quantLevel b d).natAbs ≤ 2 * d.natAbs * lutLevels b + 255 ∧
      (channelCode b d : Int) = quantLevel b d + lutLevels b) ∧
    (∀ p q : Pixel,
      channelCode b (channelDiff p.r q.r) ≤ 2 * lutLevels b ∧ channelCode b (channelDiff p.g q.g) ≤ 2 * lutLevels b ∧
      channelCode b (channelDiff p.b q.b) ≤ 2 * lutLevels b ∧
      lutIndex b p q < lutSize b ∧
      lutIndex b p q / 2 ^ (2 * lutWidth b) = channelCode b (channelDiff p.r q.r) ∧
      lutIndex b p q / 2 ^ lutWidth b % 2 ^ lutWidth b = channelCode b (channelDiff p.g q.g) ∧
      lutIndex b p q % 2 ^ lutWidth b = channelCode b (channelDiff p.b q.b))

/-- R150, R151, R69: every source address the sampler forms for a job validation accepts, of SCALE or of CLASSIFY, at any coordinates,
lies in the source region, and every address of a block of a SCALE job's rows lies in the rows' part of the destination, outside the
source and inside the address space. R60, R68: so in every engine step each recorded read reads four bytes of the source, and each
recorded write writes four bytes of the destination's rows; the engine never reads the destination. -/
def Obligations.EngineAddressesStayInTheirRegions : Prop :=
  (∀ j : Job, validateScale j = .ok ∨ validateClassify j = .ok → ∀ (x y : Int) (k : Nat), k < 4 →
    let a := srcAddr j (clamp x j.w.toNat) (clamp y j.h.toNat) + k
    j.srcBase.toNat ≤ a ∧ a < j.srcBase.toNat + j.w.toNat * j.h.toNat * 4 ∧ a < 2 ^ 32) ∧
  (∀ j : Job, validateScale j = .ok →
    ∀ x y si sj k, x < j.w.toNat → j.rowFirst.toNat ≤ y → y < j.rowLast.toNat → si < j.n.toNat → sj < j.n.toNat → k < 4 →
    let a := dstAddr j x y si sj + k
    j.dstBase.toNat + 4 * (j.rowFirst.toNat * j.n.toNat * j.w.toNat * j.n.toNat) ≤ a ∧
    a < j.dstBase.toNat + 4 * (j.rowLast.toNat * j.n.toNat * j.w.toNat * j.n.toNat) ∧ a < 2 ^ 32 ∧ inSource j a = false) ∧
  (∀ s t : State, s.status.busy = true → engineStep s = .next t → ∀ k, k < 4 →
    (∀ a p, MemEvent.read a p ∈ t.events → inSource s.job (a + k) = true ∧
      ((∃ y x, s.eng = .scale y x) → inDest s.job (a + k) = false)) ∧
    (∀ a p, MemEvent.write a p ∈ t.events → inDest s.job (a + k) = true ∧ inSource s.job (a + k) = false))

/-- R63, R232, R236: the destination address of a sub-pixel determines the pixel and the sub-pixel, and every pixel-aligned offset of
the output image is the address of one: each output pixel is written once. -/
def Obligations.DestinationLayoutIsABijection : Prop :=
  ∀ j : Job, 0 < j.n.toNat →
    (∀ x y si sj x' y' si' sj', x < j.w.toNat → si < j.n.toNat → sj < j.n.toNat → x' < j.w.toNat → si' < j.n.toNat →
      sj' < j.n.toNat → dstAddr j x y si sj = dstAddr j x' y' si' sj' → x = x' ∧ y = y' ∧ si = si' ∧ sj = sj') ∧
    (∀ k, k < j.w.toNat * j.n.toNat * (j.h.toNat * j.n.toNat) → ∃ x y si sj, x < j.w.toNat ∧ y < j.h.toNat ∧ si < j.n.toNat ∧
      sj < j.n.toNat ∧ dstAddr j x y si sj = j.dstBase.toNat + 4 * k)

/-- R174: a corner on the image boundary is always NONE, for any thresholds and any distance function. R176, R103: the fields of the
signature of pixel (x, y) are the marks its four corners give it, TL = bK of the corner anchored at (x − 1, y − 1) in bits 1:0, TR = bJ
of (x, y − 1) in bits 3:2, BR = bF of (x, y) in bits 5:4 and BL = bG of (x − 1, y) in bits 7:6; so a pixel of the left column has
TL = BL = NONE, of the top row TL = TR = NONE, of the right column TR = BR = NONE and of the bottom row BR = BL = NONE. -/
def Obligations.BorderCornersAreNone : Prop :=
  (∀ (t : Thresholds) (d : Pixel → Pixel → Nat) (m : Memory) (j : Job) (cx cy : Int), 0 < j.w.toNat → 0 < j.h.toNat →
    (cx = -1 ∨ cx = (j.w.toNat : Int) - 1 ∨ cy = -1 ∨ cy = (j.h.toNat : Int) - 1) →
    cornerClassify t d (cornerWindow (imageWindow m j 0 0) cx cy) = noMarks) ∧
  ∀ (b : Build) (m : Memory) (j : Job) (x y : Nat), x < j.w.toNat → y < j.h.toNat →
    let S := imageSignature b m j x y
    let corner := fun cx cy : Int => cornerClassify b.thresholds (entryDist b) (cornerWindow (imageWindow m j 0 0) cx cy)
    (S.extractLsb' 0 2 = blendCode (corner ((x : Int) - 1) ((y : Int) - 1)).bK ∧
      S.extractLsb' 2 2 = blendCode (corner x ((y : Int) - 1)).bJ ∧ S.extractLsb' 4 2 = blendCode (corner x y).bF ∧
      S.extractLsb' 6 2 = blendCode (corner ((x : Int) - 1) y).bG) ∧
    (x = 0 → S.extractLsb' 0 2 = 0 ∧ S.extractLsb' 6 2 = 0) ∧
    (y = 0 → S.extractLsb' 0 2 = 0 ∧ S.extractLsb' 2 2 = 0) ∧
    (x + 1 = j.w.toNat → S.extractLsb' 2 2 = 0 ∧ S.extractLsb' 4 2 = 0) ∧
    (y + 1 = j.h.toNat → S.extractLsb' 4 2 = 0 ∧ S.extractLsb' 6 2 = 0)

/-- R171, R173: in every build a corner marks at most one of its two diagonals, marks exactly the pixels of it that differ from both
their neighbours on the corner, marks nothing on a tie, and marks DOMINANT exactly when DOM_NUM times the smaller sum is below DOM_DEN
times the larger. With the values of R11 the sums are those of R171 and the threshold is 36/10. -/
def Obligations.CornerMarksOneDiagonal : Prop :=
  (∀ (t : Thresholds) (d : Pixel → Pixel → Nat) (k : CornerWindow),
    let r := cornerClassify t d k
    let jg := sumJG t d k
    let fk := sumFK t d k
    (jg = fk → r = noMarks) ∧
    (fk ≤ jg → r.bF = .none ∧ r.bK = .none) ∧ (jg ≤ fk → r.bJ = .none ∧ r.bG = .none) ∧
    (r.bF ≠ .none → k.pF ≠ k.pG ∧ k.pF ≠ k.pJ) ∧ (r.bK ≠ .none → k.pK ≠ k.pJ ∧ k.pK ≠ k.pG) ∧
    (r.bJ ≠ .none → k.pJ ≠ k.pF ∧ k.pJ ≠ k.pK) ∧ (r.bG ≠ .none → k.pG ≠ k.pF ∧ k.pG ≠ k.pK) ∧
    (∀ m ∈ [r.bF, r.bK], m ≠ .none → (m = .dominant ↔ t.dominant.num * jg < t.dominant.den * fk)) ∧
    (∀ m ∈ [r.bJ, r.bG], m ≠ .none → (m = .dominant ↔ t.dominant.num * fk < t.dominant.den * jg)) ∧
    (jg < fk → k.pF ≠ k.pG → k.pF ≠ k.pJ → r.bF ≠ .none) ∧ (jg < fk → k.pK ≠ k.pJ → k.pK ≠ k.pG → r.bK ≠ .none) ∧
    (fk < jg → k.pJ ≠ k.pF → k.pJ ≠ k.pK → r.bJ ≠ .none) ∧ (fk < jg → k.pG ≠ k.pF → k.pG ≠ k.pK → r.bG ≠ .none)) ∧
  (∀ (d : Pixel → Pixel → Nat) (k : CornerWindow),
    sumJG defaultThresholds d k = d k.pI k.pF + d k.pF k.pC + d k.pN k.pK + d k.pK k.pH + 4 * d k.pJ k.pG ∧
    sumFK defaultThresholds d k = d k.pE k.pJ + d k.pJ k.pO + d k.pB k.pG + d k.pG k.pL + 4 * d k.pF k.pK) ∧
  defaultThresholds.dominant = ⟨36, 10⟩

/-- R180: turning the picture a quarter turn clockwise turns the signature: it is S rotated left by 2 bits. The turned window at
(dy, dx) holds what the window held at (−dx, dy). -/
def Obligations.TurningThePictureTurnsTheSignature : Prop :=
  ∀ (t : Thresholds) (d : Pixel → Pixel → Nat) (w : Window), (∀ p q, d p q = d q p) →
    signature t d (fun dy dx => w (-dx) dy) = (signature t d w <<< 2) ||| (signature t d w >>> 6)

/-- R172, R197: the widths of the classifier's and the resolver's arithmetic with the constants R10 and R11 give. -/
def Obligations.SumsFitTheDatapath : Prop :=
  ∀ (b : Build) (k : CornerWindow) (p q : Pixel), b.coefficients = defaultCoefficients → b.thresholds = defaultThresholds →
    let jg := sumJG b.thresholds (entryDist b) k
    let fk := sumFK b.thresholds (entryDist b) k
    jg ≤ 697408 ∧ fk ≤ 697408 ∧ 697408 < 2 ^ 20 ∧
    b.thresholds.dominant.num * jg < 2 ^ 25 ∧ b.thresholds.dominant.num * fk < 2 ^ 25 ∧
    b.thresholds.dominant.den * jg < 2 ^ 32 ∧ b.thresholds.dominant.den * fk < 2 ^ 32 ∧
    entryDist b p q < 2 ^ 17 ∧ b.thresholds.steep.num * entryDist b p q ≤ 22 * 87176 ∧ 22 * 87176 < 2 ^ 21

/-- R191, R192, R210: one quarter turn of the kernel turns a letter's offset by (dy, dx) -> (−dx, dy), four turns are none, the
rotated bottom-right field of the signature is the corner each rotation handles, and the rotated block corner is that corner. -/
def Obligations.RotationsHandleTheirCorners : Prop :=
  (∀ l, letterOffset (quarterTurn l) = (-(letterOffset l).2, (letterOffset l).1) ∧ rotLetter 4 l = l) ∧
  (∀ s : BitVec 8, sigBR (rotSignature 0 s) = sigBR s ∧ sigBR (rotSignature 1 s) = sigTR s ∧
    sigBR (rotSignature 2 s) = sigTL s ∧ sigBR (rotSignature 3 s) = sigBL s) ∧
  (∀ n, 0 < n → rotSub n 0 (n - 1) (n - 1) = (n - 1, n - 1) ∧ rotSub n 1 (n - 1) (n - 1) = (0, n - 1) ∧
    rotSub n 2 (n - 1) (n - 1) = (0, 0) ∧ rotSub n 3 (n - 1) (n - 1) = (n - 1, 0)) ∧
  (∀ n r i j, r < 3 → i < n → j < n → rotSub n (r + 1) i j = (n - 1 - (rotSub n r i j).2, (rotSub n r i j).1))

/-- R193, R196: a rotation resolves to a pattern exactly when its corner is marked; the partner is then the rotation's f neighbour if
it is at least as near as its h neighbour and the h neighbour otherwise, one of b, d, f, h. -/
def Obligations.ResolvePicksTheNearerEdgeNeighbour : Prop :=
  ∀ (t : Thresholds) (d : Pixel → Pixel → Nat) (s : BitVec 8) (k : Kernel) (r : Nat), r < 4 →
    let res := resolve t d s k r
    (res.pattern = .none ↔ sigBR (rotSignature r s) = 0) ∧
    (res.pattern = .none → res.sel = false ∧ res.partner = none) ∧
    (res.pattern ≠ .none →
      (d (k .e) (k (rotLetter r .f)) ≤ d (k .e) (k (rotLetter r .h)) →
        res.sel = false ∧ res.partner = some (rotLetter r .f)) ∧
      (d (k .e) (k (rotLetter r .h)) < d (k .e) (k (rotLetter r .f)) →
        res.sel = true ∧ res.partner = some (rotLetter r .h)) ∧
      ∃ p, res.partner = some p ∧ p ∈ [Letter.b, Letter.d, Letter.f, Letter.h])

/-- R129, R194, R195: in every build a DOMINANT corner blends as a line; a NORMAL corner resolves to CORNER exactly when a marked
neighbouring corner has a pixel across it that is not similar, or the corner closes an L-shape of similar pixels around a dissimilar
i; otherwise it blends as a line; and each of the four slopes is exactly its case of LINE_PATTERN. Similar is dist < EQUAL_TOLERANCE ·
2^8, which is dist < 7680 with the value of R11; the slope threshold of R11 is 22/10, and with it both tests hold only when both
distances are 0. -/
def Obligations.LineBlendsAndSlopesAreExact : Prop :=
  (∀ (t : Thresholds) (d : Pixel → Pixel → Nat) (s : BitVec 8) (k : Kernel) (r : Nat),
    let s' := rotSignature r s
    let k' := rotKernel r k
    let pat := (resolve t d s k r).pattern
    let eq := fun p q => t.equalTolerance.den * d p q < t.equalTolerance.num * 2 ^ 8
    let reduced := sigTR s' ≠ 0 ∧ ¬eq (k' .e) (k' .g) ∨ sigBL s' ≠ 0 ∧ ¬eq (k' .e) (k' .c) ∨
      ¬eq (k' .e) (k' .i) ∧ eq (k' .g) (k' .h) ∧ eq (k' .h) (k' .i) ∧ eq (k' .i) (k' .f) ∧ eq (k' .f) (k' .c)
    (sigBR s' = 0 → pat = .none) ∧
    (sigBR s' = 1 → (pat = .corner ↔ reduced) ∧ (¬reduced → pat = linePattern t d k')) ∧
    (2 ≤ sigBR s' → pat = linePattern t d k' ∧ pat ≠ .corner)) ∧
  (∀ (t : Thresholds) (d : Pixel → Pixel → Nat) (k : Kernel),
    let fg := d (k .f) (k .g)
    let hc := d (k .h) (k .c)
    let shallow := t.steep.num * fg ≤ t.steep.den * hc ∧ k .e ≠ k .g ∧ k .d ≠ k .g
    let steep := t.steep.num * hc ≤ t.steep.den * fg ∧ k .e ≠ k .c ∧ k .b ≠ k .c
    (linePattern t d k = .steepAndShallow ↔ shallow ∧ steep) ∧ (linePattern t d k = .shallow ↔ shallow ∧ ¬steep) ∧
    (linePattern t d k = .steep ↔ steep ∧ ¬shallow) ∧ (linePattern t d k = .diagonal ↔ ¬shallow ∧ ¬steep)) ∧
  (∀ (d : Pixel → Pixel → Nat) (p q : Pixel), similar defaultThresholds d p q = true ↔ d p q < 7680) ∧
  defaultThresholds.steep = ⟨22, 10⟩ ∧
  (∀ (d : Pixel → Pixel → Nat) (k : Kernel), linePattern defaultThresholds d k = .steepAndShallow →
    d (k .f) (k .g) = 0 ∧ d (k .h) (k .c) = 0)

/-- R201, R202, R203: the shape of the lists of the catalogue R205 to R209 give: sub-pixels of the block in its lower-right triangle, never
(0, 0), none twice, fractions in (0, 1]; STEEP is SHALLOW reflected and the other lists are unchanged by the reflection; the sloped
lists reach an end of the anti-diagonal with 1/4; and every sub-pixel is touched by at most three of the four rotations. -/
def Obligations.CatalogueListsHaveTheirShape : Prop :=
  catalogueWf defaultCatalogue = true ∧
  ∀ n ∈ [2, 3, 4, 5, 6], let list := catalogueList defaultCatalogue n
    list .none = [] ∧
    (∀ p ∈ [Pattern.corner, .diagonal, .shallow, .steep, .steepAndShallow],
      (∀ o ∈ list p, o.i < n ∧ o.j < n ∧ n - 1 ≤ o.i + o.j ∧ (o.i, o.j) ≠ (0, 0) ∧ 0 < o.num ∧ o.num ≤ o.den) ∧
      ((list p).map fun o => (o.i, o.j)).Nodup) ∧
    (list .steep).Perm ((list .shallow).map fun o => ⟨o.j, o.i, o.num, o.den⟩) ∧
    (∀ p ∈ [Pattern.corner, .diagonal, .steepAndShallow],
      (list p).Perm ((list p).map fun o => ⟨o.j, o.i, o.num, o.den⟩)) ∧
    (∀ p ∈ [Pattern.shallow, .steep, .steepAndShallow], ⟨n - 1, 0, 1, 4⟩ ∈ list p ∨ ⟨0, n - 1, 1, 4⟩ ∈ list p) ∧
    (∀ i < n, ∀ j < n, ∃ r < 4, ∀ p ∈ [Pattern.corner, .diagonal, .shallow, .steep, .steepAndShallow],
      ∀ o ∈ list p, rotSub n r o.i o.j ≠ (i, j))

/-- R199: the weight map is a function of the resolved-pattern word and N alone. -/
def Obligations.PatternWordDeterminesTheWeights : Prop :=
  ∀ (c : Catalogue) (n : Nat) (t t' : Thresholds) (d d' : Pixel → Pixel → Nat) (s s' : BitVec 8) (k k' : Kernel),
    patternWord (resolve t d s k) = patternWord (resolve t' d' s' k') →
    weightMap c n (resolve t d s k) = weightMap c n (resolve t' d' s' k')

/-- R212: with any catalogue of R200 and R201 the weights of every sub-pixel are non-negative and sum to exactly 1 over e, b, d, f, h, and
the corner letters never contribute (R196); with the catalogue of R205 to R209 every denominator has no prime factor but 2, 3 and 5. -/
def Obligations.WeightsAreNonNegativeAndSumToOne : Prop :=
  ∀ (c : Catalogue) (n : Nat) (t : Thresholds) (d : Pixel → Pixel → Nat) (s : BitVec 8) (k : Kernel) (i j : Nat),
    catalogueWf c = true →
    let w := weightMap c n (resolve t d s k) i j
    (∀ l, 0 ≤ w l) ∧ w .e + w .b + w .d + w .f + w .h = 1 ∧ w .a = 0 ∧ w .c = 0 ∧ w .g = 0 ∧ w .i = 0 ∧
    (c = defaultCatalogue → ∀ l, ∃ e : Nat, (w l).den ∣ 30 ^ e)

/-- R213: with the catalogue of R205 to R209 at most four of the five possible contributors have a non-zero weight, for every supported
factor. The bound is reached for each: the pattern word 0x3140 (r = 1 STEEP to b, r = 2 CORNER to d, r = 3 SHALLOW to h; a vector of
95_test_vectors.md) gives sub-pixel (0, 0) four of them, with the weights that R211's blends give in the order of the rotations; and
for N = 2 the sub-pixels that one operation alone touches get 3/4 of its partner. -/
def Obligations.AtMostFourContributors : Prop :=
  (∀ n ∈ supportedFactors, ∀ (t : Thresholds) (d : Pixel → Pixel → Nat) (s : BitVec 8) (k : Kernel) (i j : Nat), i < n → j < n →
    ∃ l ∈ [Letter.b, .d, .f, .h], weightMap defaultCatalogue n (resolve t d s k) i j l = 0) ∧
  ∀ (t : Thresholds) (d : Pixel → Pixel → Nat) (s : BitVec 8) (k : Kernel), patternWord (resolve t d s k) = 0x3140#16 →
    let w := fun n i j => contributors.map (weightMap defaultCatalogue n (resolve t d s k) i j)
    contributors = [.e, .b, .d, .f, .h] ∧
    w 2 0 0 = [711 / 1600, 237 / 1600, 63 / 400, 0, 1 / 4] ∧ w 3 0 0 = [99 / 320, 33 / 320, 27 / 80, 0, 1 / 4] ∧
    w 4 0 0 = [9 / 50, 3 / 50, 51 / 100, 0, 1 / 4] ∧ w 5 0 0 = [63 / 800, 21 / 800, 129 / 200, 0, 1 / 4] ∧
    w 6 0 0 = [27 / 1600, 9 / 1600, 291 / 400, 0, 1 / 4] ∧
    w 2 0 1 = [1 / 4, 3 / 4, 0, 0, 0] ∧ w 2 1 0 = [1 / 4, 0, 0, 0, 3 / 4] ∧ w 2 1 1 = [1, 0, 0, 0, 0]

/-- R214: when S = 0, or every rotation resolves to NONE, the block is N×N copies of the centre pixel, in every build. -/
def Obligations.NoMarksGiveNearestNeighbour : Prop :=
  ∀ (c : Catalogue) (n : Nat) (t : Thresholds) (d : Pixel → Pixel → Nat) (s : BitVec 8) (k : Kernel),
    (s = 0 ∨ ∀ r < 4, (resolve t d s k r).pattern = .none) →
    ∀ i j, weightMap c n (resolve t d s k) i j = unitWeights .e ∧ combine (weightMap c n (resolve t d s k) i j) k = k .e

/-- R230, R231, R234: a channel value in [0, 255] is rounded to the nearest integer, halves up, once; the clamp changes nothing. -/
def Obligations.ChannelsRoundHalfUp : Prop :=
  ∀ v : ℚ, 0 ≤ v → v ≤ 255 →
    ((roundChannel v).toNat : Int) = (v + 1 / 2).floor ∧ ((roundChannel v).toNat : ℚ) - v ≤ 1 / 2 ∧
    v - ((roundChannel v).toNat : ℚ) < 1 / 2

/-- R235: with any catalogue of R200 and R201 every output channel lies between the least and the greatest of that channel over e, b, d,
f, h, and a uniform image scales to that colour. -/
def Obligations.OutputStaysInTheContributorsRange : Prop :=
  (∀ (c : Catalogue) (n : Nat) (t : Thresholds) (d : Pixel → Pixel → Nat) (s : BitVec 8) (k : Kernel) (i j : Nat),
    catalogueWf c = true →
    let o := combine (weightMap c n (resolve t d s k) i j) k
    ∀ ch ∈ [fun p : Pixel => p.r, fun p => p.g, fun p => p.b, fun p => p.a], ∀ lo hi : Nat,
      (∀ l ∈ contributors, lo ≤ (ch (k l)).toNat ∧ (ch (k l)).toNat ≤ hi) → lo ≤ (ch o).toNat ∧ (ch o).toNat ≤ hi) ∧
  (∀ (b : Build) (m : Memory) (j : Job) (p : Pixel), (∀ x y, imagePixel m j x y = p) →
    ∀ x y si sj, scaledPixel b m j x y si sj = p)

/-- R157, R237: the pixels of a block are a function of the source image, its coordinates, N and the build: two memories and two jobs
with the same image and factor give the same pixels, wherever the source lies and whatever rows and destination the jobs have. -/
def Obligations.OutputDependsOnlyOnTheSourceImage : Prop :=
  ∀ (b : Build) (m m' : Memory) (j j' : Job), j.w = j'.w → j.h = j'.h → j.n = j'.n → 0 < j.w.toNat → 0 < j.h.toNat →
    (∀ k, k < j.w.toNat * j.h.toNat * 4 → memRead m (j.srcBase.toNat + k) = memRead m' (j'.srcBase.toNat + k)) →
    ∀ x y si sj, scaledPixel b m j x y si sj = scaledPixel b m' j' x y si sj ∧
      imageSignature b m j x y = imageSignature b m' j' x y

/-! Host memory. -/

/-- R60, R67: while no job runs, a host store changes the byte at its address and no other, keeps the canonical form of memory, and
a host load returns the byte. That a load with BUSY = 0 reads memory as it is, also right after a job with no read of STATUS before it,
is read from R74 to R76, log entry 19. Log entry 5 says what a byte nobody wrote reads as; that host accesses are single bytes and
`rdata` records a load's value are the model's, log entries 20 and 18, and so is the counter of draws, log entry 7. -/
def Obligations.HostStoresAndLoadsWhileIdle : Prop :=
  ∀ (s : State) (a : Word) (b : Byte) (rest : List HostOp) (sch : List Turn), s.status.busy = false →
    Memory.wf s.mem = true →
    (∃ t, step { s with schedule := .host :: sch, program := .store a b :: rest } = .next t ∧
      t = { s with schedule := sch, program := rest, mem := t.mem, tick := s.tick + 1 } ∧ Memory.wf t.mem = true ∧
      ∀ x, memRead t.mem x = if x = a.toNat then b else memRead s.mem x) ∧
    step { s with schedule := .host :: sch, program := .load a :: rest } =
      .next { s with schedule := sch, program := rest, rdata := (memRead s.mem a.toNat).setWidth 32, tick := s.tick + 1 }

/-- R74, R75, R347: the races give only what the rules allow. An engine read of a source byte gives what it holds or a value the host
overwrote during the job. A host load of a byte the running job writes gives what it holds, what it held before the job, or what the
job writes; any other load reads memory. A host store while BUSY = 1, outside the source of the job that reads it, changes no byte
but its own, which then holds the stored value or, if the job has written it already, that or what the job writes; the job's later
write of such a byte leaves the stored value or what the job writes; and no store touches a register, JOB, ENG or the LUT. A store to
the source of a running job changes that byte, and besides it only bytes the job writes, which are unconstrained. Which value is
drawn, and the current value as a third case of a load, are the model's choice, log entries 7 to 10. That 'any other load' takes in
every load with BUSY = 0, whether or not STATUS was read, is read from R74 to R76, log entry 19. -/
def Obligations.RacesGiveAllowedValues : Prop :=
  (∀ (s : State) (a : Nat),
    (srcByte s a = memRead s.mem a ∨ (a, srcByte s a) ∈ s.race.srcOld) ∧
    ((s.status.busy = true ∧ s.job.op = 2 ∧ inDest s.job a = true) →
      hostLoad s a = memRead s.mem a ∨ hostLoad s a = memRead s.race.before a ∨ hostLoad s a = jobByteAt s a) ∧
    (¬(s.status.busy = true ∧ s.job.op = 2 ∧ inDest s.job a = true) → hostLoad s a = memRead s.mem a)) ∧
  (∀ (s : State) (a : Nat) (b : Byte),
    let t := hostStore a b s
    t = { s with mem := t.mem, race := t.race } ∧
    (Memory.wf s.mem = true → ¬(readsSource s = true ∧ inSource s.job a = true) →
      (∀ x, x ≠ a → memRead t.mem x = memRead s.mem x) ∧
      (memRead t.mem a = b ∨ writesByte s a = true ∧ cursorPassed s a = true ∧ memRead t.mem a = jobByteAt s a) ∧
      (writesByte s a = true → cursorPassed s a = false → t.race.contested = a :: s.race.contested) ∧
      t.race.srcOld = s.race.srcOld) ∧
    (Memory.wf s.mem = true → readsSource s = true → inSource s.job a = true →
      t.race.srcOld = (a, memRead s.mem a) :: s.race.srcOld ∧
      (∀ x, x ≠ a → ¬(writesByte s x = true ∧ cursorPassed s x = true) → memRead t.mem x = memRead s.mem x) ∧
      (writesByte s a = false → memRead t.mem a = b))) ∧
  (∀ (s : State) (m : Memory) (c : Host.Cell), Memory.wf m = true →
    (memRead (engineStore s m c) c.1 = jobByte s c ∨
      c.1 ∈ s.race.contested ∧ memRead (engineStore s m c) c.1 = memRead m c.1) ∧
    ∀ x, x ≠ c.1 → memRead (engineStore s m c) x = memRead m x)

/-! The machine's invariant. -/

/-- R41, R42, R47: the invariant holds after reset, in every build. -/
def Obligations.ResetSatisfiesTheMachineInvariant : Prop :=
  Invariant State.reset ∧ ∀ b : Build, Invariant (State.resetOf b)

/-- R41, R42, R60, R107, R266, R309: every step keeps the invariant: ENG = IDLE exactly when BUSY = 0, DONE and ERR are settled while a
job runs, a ready LUT holds the build's entry at every index, the running job is one that validation accepts with its cursor in its rows and
ROWS_DONE counting them, and host memory keeps its canonical form. -/
def Obligations.EveryStepKeepsTheMachineInvariant : Prop :=
  ∀ s t : State, Invariant s → step s = .next t → Invariant t

/-- R45, R311: no step stops with a fault in a state that satisfies the invariant; the two faults of the model stand for states no run
reaches (log entry 13). -/
def Obligations.NoReachableStepFaults : Prop :=
  ∀ s : State, Invariant s → SafeStep s

/-- R271: every accepted command completes after a bounded number of engine steps: 0 for NOP and rejected commands, 1 for LUT_INIT, at
most 2 for DIST and CLASSIFY, at most R·W + 2 for SCALE. A job that runs in any state that satisfies the invariant completes within
`stepsLeft` engine steps, with OK or CANCELLED. -/
def Obligations.EveryCommandCompletesWithinItsBound : Prop :=
  (∀ s : State, Invariant s → s.status.busy = true →
    ∃ n t, n ≤ stepsLeft s ∧ engineRun n s = .next t ∧ t.status.busy = false ∧ t.status.done = true ∧
      (t.status.err = .ok ∨ t.status.err = .cancelled)) ∧
  ∀ (s : State) (v : Word), Invariant s → s.status.busy = false →
    let j := jobOf (v.extractLsb' 0 8) s.params
    ∃ t n u, commandWrite v s = .next t ∧ engineRun n t = .next u ∧ u.status.busy = false ∧ u.status.done = true ∧
      (v = encode .nop → n = 0) ∧ (validate v j ≠ .ok → n = 0) ∧ (v = encode .lutInit → n = 1) ∧
      (v = encode .dist ∨ v = encode .classify → n ≤ 2) ∧
      (v = encode .scale → n ≤ (j.rowLast.toNat - j.rowFirst.toNat) * j.w.toNat + 2)
end

