-- ==== Sys2Proof/Laws/Memory.lean ====
section
/-! SUPPORT. Host memory: what a read after a write gives, and that every write keeps the canonical form. -/

namespace Sys2Proof.Machine

/-- Every address of `m` is above `a`. -/
def Above (a : Nat) (m : Memory) : Prop := ∀ c ∈ m, a < c.1

/-- The canonical form as propositions: rising addresses, each inside the space, no unlisted byte listed. -/
inductive Canonical : Memory → Prop where
  | nil : Canonical []
  | cons {a : Nat} {b : Byte} {m : Memory} :
      Above a m → a < addrSpace → b ≠ unlistedByte → Canonical m → Canonical ((a, b) :: m)

theorem addressesRise_cons {a : Nat} {b : Byte} {m : Memory} (h : addressesRise ((a, b) :: m) = true) :
    Above a m ∧ addressesRise m = true := by
  induction m generalizing a b with
  | nil => exact ⟨fun c hc => by simp at hc, rfl⟩
  | cons c m ih =>
    obtain ⟨k, e⟩ := c
    simp only [addressesRise, Bool.and_eq_true, decide_eq_true_eq] at h
    refine ⟨fun x hx => ?_, h.2⟩
    rcases List.mem_cons.1 hx with rfl | hx
    · exact h.1
    · exact lt_trans h.1 ((ih h.2).1 x hx)

theorem addressesRise_of_above {a : Nat} {b : Byte} {m : Memory} (ha : Above a m) (h : addressesRise m = true) :
    addressesRise ((a, b) :: m) = true := by
  cases m with
  | nil => rfl
  | cons c m =>
    simp only [addressesRise, Bool.and_eq_true, decide_eq_true_eq]
    exact ⟨ha c (List.mem_cons_self ..), h⟩

theorem wf_cons {a : Nat} {b : Byte} {m : Memory} :
    Memory.wf ((a, b) :: m) = true ↔ Above a m ∧ a < addrSpace ∧ b ≠ unlistedByte ∧ Memory.wf m = true := by
  simp only [Memory.wf, List.all_cons, Bool.and_eq_true, decide_eq_true_eq, bne_iff_ne]
  constructor
  · rintro ⟨h, ⟨h1, h2⟩, h3⟩
    exact ⟨(addressesRise_cons h).1, h1, h2, (addressesRise_cons h).2, h3⟩
  · rintro ⟨h, h1, h2, h3, h4⟩
    exact ⟨addressesRise_of_above h h3, ⟨h1, h2⟩, h4⟩

theorem wf_iff_canonical (m : Memory) : Memory.wf m = true ↔ Canonical m := by
  induction m with
  | nil => exact ⟨fun _ => .nil, fun _ => rfl⟩
  | cons c m ih =>
    obtain ⟨a, b⟩ := c
    rw [wf_cons]
    constructor
    · rintro ⟨h1, h2, h3, h4⟩
      exact .cons h1 h2 h3 (ih.1 h4)
    · intro h
      cases h with
      | cons h1 h2 h3 h4 => exact ⟨h1, h2, h3, ih.2 h4⟩

theorem memRead_above {a : Nat} {m : Memory} (h : Above a m) : memRead m a = unlistedByte := by
  induction m with
  | nil => rfl
  | cons c m ih =>
    obtain ⟨k, e⟩ := c
    have hk : a < k := h (k, e) (List.mem_cons_self ..)
    simp only [memRead, if_neg (show k ≠ a by omega)]
    exact ih fun x hx => h x (List.mem_cons_of_mem _ hx)

theorem above_memCons {a k : Nat} {b : Byte} {m : Memory} (hk : k < a) (h : Above k m) : Above k (memCons a b m) := by
  unfold memCons
  split
  · exact h
  · intro c hc
    rcases List.mem_cons.1 hc with rfl | hc
    · exact hk
    · exact h c hc

theorem above_memWrite {k a : Nat} {b : Byte} {m : Memory} (h : Above k m) (ha : k < a) : Above k (memWrite m a b) := by
  induction m with
  | nil => exact above_memCons ha h
  | cons c m ih =>
    obtain ⟨j, e⟩ := c
    have hm : Above k m := fun x hx => h x (List.mem_cons_of_mem _ hx)
    unfold memWrite
    split
    · exact above_memCons ha h
    · split
      · exact above_memCons ha hm
      · intro x hx
        rcases List.mem_cons.1 hx with rfl | hx
        · exact h (j, e) (List.mem_cons_self ..)
        · exact ih hm x hx

theorem canonical_memCons {a : Nat} {b : Byte} {m : Memory} (ha : a < addrSpace) (hab : Above a m) (h : Canonical m) :
    Canonical (memCons a b m) := by
  unfold memCons
  split
  · exact h
  · exact .cons hab ha ‹_› h

theorem canonical_memWrite {m : Memory} {a : Nat} (b : Byte) (h : Canonical m) (ha : a < addrSpace) :
    Canonical (memWrite m a b) := by
  induction h with
  | nil => exact canonical_memCons ha (fun c hc => by simp at hc) .nil
  | @cons k e m hab hk he hm ih =>
    unfold memWrite
    split
    · refine canonical_memCons ha (fun c hc => ?_) (.cons hab hk he hm)
      rcases List.mem_cons.1 hc with rfl | hc
      · assumption
      · exact lt_trans ‹a < k› (hab c hc)
    · split
      · subst_vars
        exact canonical_memCons ha hab hm
      · exact .cons (above_memWrite hab (by omega)) hk he ih

/-- A write inside the space keeps the canonical form. -/
theorem memWrite_wf {m : Memory} {a : Nat} (b : Byte) (h : Memory.wf m = true) (ha : a < addrSpace) :
    Memory.wf (memWrite m a b) = true :=
  (wf_iff_canonical _).2 (canonical_memWrite b ((wf_iff_canonical _).1 h) ha)

theorem memRead_memCons_self {a : Nat} (b : Byte) {m : Memory} (h : Above a m) : memRead (memCons a b m) a = b := by
  unfold memCons
  split
  · subst_vars
    exact memRead_above h
  · simp [memRead]

theorem memRead_memCons_ne {a x : Nat} (b : Byte) (m : Memory) (h : x ≠ a) :
    memRead (memCons a b m) x = memRead m x := by
  unfold memCons
  split
  · rfl
  · simp [memRead, Ne.symm h]

/-- A read after a write to the same address gives the byte written. -/
theorem memRead_memWrite_self {m : Memory} (h : Memory.wf m = true) (a : Nat) (b : Byte) :
    memRead (memWrite m a b) a = b := by
  have hc := (wf_iff_canonical m).1 h
  induction hc with
  | nil => exact memRead_memCons_self b fun c hc => by simp at hc
  | @cons k e m hab hk he hm ih =>
    unfold memWrite
    split
    · refine memRead_memCons_self b fun c hc => ?_
      rcases List.mem_cons.1 hc with rfl | hc
      · assumption
      · exact lt_trans ‹a < k› (hab c hc)
    · split
      · subst_vars
        exact memRead_memCons_self b hab
      · simp only [memRead, if_neg (show k ≠ a by omega)]
        exact ih ((wf_iff_canonical m).2 hm)

/-- A write leaves every other address alone. -/
theorem memRead_memWrite_ne (m : Memory) {a x : Nat} (b : Byte) (h : x ≠ a) :
    memRead (memWrite m a b) x = memRead m x := by
  induction m with
  | nil => exact memRead_memCons_ne b [] h
  | cons c m ih =>
    obtain ⟨k, e⟩ := c
    unfold memWrite
    split
    · exact memRead_memCons_ne b _ h
    · split
      · subst_vars
        rw [memRead_memCons_ne b _ h]
        simp [memRead, Ne.symm h]
      · simp only [memRead, ih]

/-- Writes inside the space keep the canonical form. -/
theorem foldl_memWrite_wf {β : Type} (cs : List β) (addr : β → Nat) (val : β → Byte) {m : Memory}
    (h : Memory.wf m = true) (ha : ∀ c ∈ cs, addr c < addrSpace) :
    Memory.wf (cs.foldl (fun m c => memWrite m (addr c) (val c)) m) = true := by
  induction cs generalizing m with
  | nil => exact h
  | cons c cs ih =>
    exact ih (memWrite_wf _ h (ha c (List.mem_cons_self ..))) fun x hx => ha x (List.mem_cons_of_mem _ hx)

/-- Writes elsewhere leave an address alone. -/
theorem memRead_foldl_memWrite_ne {β : Type} (cs : List β) (addr : β → Nat) (val : β → Byte) (m : Memory) {x : Nat}
    (hx : ∀ c ∈ cs, x ≠ addr c) : memRead (cs.foldl (fun m c => memWrite m (addr c) (val c)) m) x = memRead m x := by
  induction cs generalizing m with
  | nil => rfl
  | cons c cs ih =>
    exact (ih _ fun y hy => hx y (List.mem_cons_of_mem _ hy)).trans
      (memRead_memWrite_ne m _ (hx c (List.mem_cons_self ..)))

theorem memWriteAll_wf {cs : List Host.Cell} {m : Memory} (h : Memory.wf m = true) (ha : ∀ c ∈ cs, c.1 < addrSpace) :
    Memory.wf (memWriteAll m cs) = true :=
  foldl_memWrite_wf cs (fun c => c.1) (fun c => c.2) h ha

/-- One write of the engine keeps the canonical form. -/
theorem engineStore_wf {s : State} {m : Memory} {c : Host.Cell} (h : Memory.wf m = true) (ha : c.1 < addrSpace) :
    Memory.wf (engineStore s m c) = true := by
  unfold engineStore
  split
  · exact h
  · exact memWrite_wf _ h ha

/-- One write of the engine leaves every other address alone. -/
theorem memRead_engineStore_ne (s : State) (m : Memory) (c : Host.Cell) {x : Nat} (h : x ≠ c.1) :
    memRead (engineStore s m c) x = memRead m x := by
  unfold engineStore
  split
  · rfl
  · exact memRead_memWrite_ne m _ h

theorem foldl_engineStore_wf {s : State} (cs : List Host.Cell) {m : Memory} (h : Memory.wf m = true)
    (ha : ∀ c ∈ cs, c.1 < addrSpace) : Memory.wf (cs.foldl (engineStore s) m) = true := by
  induction cs generalizing m with
  | nil => exact h
  | cons c cs ih =>
    exact ih (engineStore_wf h (ha c (List.mem_cons_self ..))) fun x hx => ha x (List.mem_cons_of_mem _ hx)

theorem memRead_foldl_engineStore_ne (s : State) (cs : List Host.Cell) (m : Memory) {x : Nat}
    (hx : ∀ c ∈ cs, x ≠ c.1) : memRead (cs.foldl (engineStore s) m) x = memRead m x := by
  induction cs generalizing m with
  | nil => rfl
  | cons c cs ih =>
    exact (ih _ fun y hy => hx y (List.mem_cons_of_mem _ hy)).trans
      (memRead_engineStore_ne s m c (hx c (List.mem_cons_self ..)))

/-- After reset memory is in canonical form. -/
theorem reset_memory_wf (b : Build) : Memory.wf (State.resetOf b).mem = true := rfl

end Sys2Proof.Machine
end

