-- ==== Sys2Proof/Laws/State.lean ====
section
/-! SUPPORT. What each named update of the state does to each field. -/

namespace Sys2Proof.Machine

/-! Counting a draw position. -/

@[simp] theorem tickState_build (s : State) : (tickState s).build = s.build := rfl
@[simp] theorem tickState_ctrl (s : State) : (tickState s).ctrl = s.ctrl := rfl
@[simp] theorem tickState_status (s : State) : (tickState s).status = s.status := rfl
@[simp] theorem tickState_params (s : State) : (tickState s).params = s.params := rfl
@[simp] theorem tickState_result0 (s : State) : (tickState s).result0 = s.result0 := rfl
@[simp] theorem tickState_result1 (s : State) : (tickState s).result1 = s.result1 := rfl
@[simp] theorem tickState_rowsDone (s : State) : (tickState s).rowsDone = s.rowsDone := rfl
@[simp] theorem tickState_job (s : State) : (tickState s).job = s.job := rfl
@[simp] theorem tickState_eng (s : State) : (tickState s).eng = s.eng := rfl
@[simp] theorem tickState_lut (s : State) : (tickState s).lut = s.lut := rfl
@[simp] theorem tickState_mem (s : State) : (tickState s).mem = s.mem := rfl
@[simp] theorem tickState_program (s : State) : (tickState s).program = s.program := rfl
@[simp] theorem tickState_schedule (s : State) : (tickState s).schedule = s.schedule := rfl
@[simp] theorem tickState_rdata (s : State) : (tickState s).rdata = s.rdata := rfl
@[simp] theorem tickState_race (s : State) : (tickState s).race = s.race := rfl
@[simp] theorem tickState_tick (s : State) : (tickState s).tick = s.tick + 1 := rfl
@[simp] theorem tickState_events (s : State) : (tickState s).events = s.events := rfl

/-! COMPLETE(code) (R310). -/

@[simp] theorem complete_build (c : ErrCode) (s : State) : (complete c s).build = s.build := rfl
@[simp] theorem complete_ctrl (c : ErrCode) (s : State) : (complete c s).ctrl = s.ctrl := rfl
@[simp] theorem complete_status (c : ErrCode) (s : State) : (complete c s).status = statusComplete c s.status := rfl
@[simp] theorem complete_params (c : ErrCode) (s : State) : (complete c s).params = s.params := rfl
@[simp] theorem complete_result0 (c : ErrCode) (s : State) : (complete c s).result0 = s.result0 := rfl
@[simp] theorem complete_result1 (c : ErrCode) (s : State) : (complete c s).result1 = s.result1 := rfl
@[simp] theorem complete_rowsDone (c : ErrCode) (s : State) : (complete c s).rowsDone = s.rowsDone := rfl
@[simp] theorem complete_job (c : ErrCode) (s : State) : (complete c s).job = s.job := rfl
@[simp] theorem complete_eng (c : ErrCode) (s : State) : (complete c s).eng = .idle := rfl
@[simp] theorem complete_lut (c : ErrCode) (s : State) : (complete c s).lut = s.lut := rfl
@[simp] theorem complete_mem (c : ErrCode) (s : State) : (complete c s).mem = s.mem := rfl
@[simp] theorem complete_program (c : ErrCode) (s : State) : (complete c s).program = s.program := rfl
@[simp] theorem complete_schedule (c : ErrCode) (s : State) : (complete c s).schedule = s.schedule := rfl
@[simp] theorem complete_rdata (c : ErrCode) (s : State) : (complete c s).rdata = s.rdata := rfl
@[simp] theorem complete_race (c : ErrCode) (s : State) : (complete c s).race = s.race := rfl
@[simp] theorem complete_tick (c : ErrCode) (s : State) : (complete c s).tick = s.tick := rfl
@[simp] theorem complete_events (c : ErrCode) (s : State) : (complete c s).events = s.events := rfl

/-! The writes of acceptance (R251). -/

@[simp] theorem latch_build (v : Word) (s : State) : (latch v s).build = s.build := rfl
@[simp] theorem latch_ctrl (v : Word) (s : State) : (latch v s).ctrl = { s.ctrl with cancel := false } := rfl
@[simp] theorem latch_status (v : Word) (s : State) : (latch v s).status = statusAccept s.status := rfl
@[simp] theorem latch_params (v : Word) (s : State) : (latch v s).params = s.params := rfl
@[simp] theorem latch_result0 (v : Word) (s : State) : (latch v s).result0 = s.result0 := rfl
@[simp] theorem latch_result1 (v : Word) (s : State) : (latch v s).result1 = s.result1 := rfl
@[simp] theorem latch_rowsDone (v : Word) (s : State) : (latch v s).rowsDone = 0 := rfl
@[simp] theorem latch_job (v : Word) (s : State) : (latch v s).job = jobOf (opcodeOf v) s.params := rfl
@[simp] theorem latch_eng (v : Word) (s : State) : (latch v s).eng = s.eng := rfl
@[simp] theorem latch_lut (v : Word) (s : State) : (latch v s).lut = s.lut := rfl
@[simp] theorem latch_mem (v : Word) (s : State) : (latch v s).mem = s.mem := rfl
@[simp] theorem latch_program (v : Word) (s : State) : (latch v s).program = s.program := rfl
@[simp] theorem latch_schedule (v : Word) (s : State) : (latch v s).schedule = s.schedule := rfl
@[simp] theorem latch_rdata (v : Word) (s : State) : (latch v s).rdata = s.rdata := rfl
@[simp] theorem latch_race (v : Word) (s : State) : (latch v s).race = s.race := rfl
@[simp] theorem latch_tick (v : Word) (s : State) : (latch v s).tick = s.tick := rfl
@[simp] theorem latch_events (v : Word) (s : State) : (latch v s).events = s.events := rfl

/-! Starting the engine (R252). -/

@[simp] theorem startEngine_build (e : Eng) (s : State) : (startEngine e s).build = s.build := rfl
@[simp] theorem startEngine_ctrl (e : Eng) (s : State) : (startEngine e s).ctrl = s.ctrl := rfl
@[simp] theorem startEngine_status (e : Eng) (s : State) : (startEngine e s).status = { s.status with busy := true } := rfl
@[simp] theorem startEngine_params (e : Eng) (s : State) : (startEngine e s).params = s.params := rfl
@[simp] theorem startEngine_result0 (e : Eng) (s : State) : (startEngine e s).result0 = s.result0 := rfl
@[simp] theorem startEngine_result1 (e : Eng) (s : State) : (startEngine e s).result1 = s.result1 := rfl
@[simp] theorem startEngine_rowsDone (e : Eng) (s : State) : (startEngine e s).rowsDone = s.rowsDone := rfl
@[simp] theorem startEngine_job (e : Eng) (s : State) : (startEngine e s).job = s.job := rfl
@[simp] theorem startEngine_eng (e : Eng) (s : State) : (startEngine e s).eng = e := rfl
@[simp] theorem startEngine_lut (e : Eng) (s : State) : (startEngine e s).lut = s.lut := rfl
@[simp] theorem startEngine_mem (e : Eng) (s : State) : (startEngine e s).mem = s.mem := rfl
@[simp] theorem startEngine_program (e : Eng) (s : State) : (startEngine e s).program = s.program := rfl
@[simp] theorem startEngine_schedule (e : Eng) (s : State) : (startEngine e s).schedule = s.schedule := rfl
@[simp] theorem startEngine_rdata (e : Eng) (s : State) : (startEngine e s).rdata = s.rdata := rfl
@[simp] theorem startEngine_race (e : Eng) (s : State) : (startEngine e s).race = { before := s.mem, srcOld := [], contested := [] } := rfl
@[simp] theorem startEngine_tick (e : Eng) (s : State) : (startEngine e s).tick = s.tick := rfl
@[simp] theorem startEngine_events (e : Eng) (s : State) : (startEngine e s).events = s.events := rfl

/-! LUT_FILL (R130). -/

@[simp] theorem fillLut_build (s : State) : (fillLut s).build = s.build := rfl
@[simp] theorem fillLut_ctrl (s : State) : (fillLut s).ctrl = s.ctrl := rfl
@[simp] theorem fillLut_status (s : State) : (fillLut s).status = { s.status with lutReady := true } := rfl
@[simp] theorem fillLut_params (s : State) : (fillLut s).params = s.params := rfl
@[simp] theorem fillLut_result0 (s : State) : (fillLut s).result0 = s.result0 := rfl
@[simp] theorem fillLut_result1 (s : State) : (fillLut s).result1 = s.result1 := rfl
@[simp] theorem fillLut_rowsDone (s : State) : (fillLut s).rowsDone = s.rowsDone := rfl
@[simp] theorem fillLut_job (s : State) : (fillLut s).job = s.job := rfl
@[simp] theorem fillLut_eng (s : State) : (fillLut s).eng = s.eng := rfl
@[simp] theorem fillLut_lut (s : State) : (fillLut s).lut = lutFill s.build := rfl
@[simp] theorem fillLut_mem (s : State) : (fillLut s).mem = s.mem := rfl
@[simp] theorem fillLut_program (s : State) : (fillLut s).program = s.program := rfl
@[simp] theorem fillLut_schedule (s : State) : (fillLut s).schedule = s.schedule := rfl
@[simp] theorem fillLut_rdata (s : State) : (fillLut s).rdata = s.rdata := rfl
@[simp] theorem fillLut_race (s : State) : (fillLut s).race = s.race := rfl
@[simp] theorem fillLut_tick (s : State) : (fillLut s).tick = s.tick := rfl
@[simp] theorem fillLut_events (s : State) : (fillLut s).events = s.events := rfl

/-! No memory access. -/

@[simp] theorem noEvents_build (s : State) : (noEvents s).build = s.build := rfl
@[simp] theorem noEvents_ctrl (s : State) : (noEvents s).ctrl = s.ctrl := rfl
@[simp] theorem noEvents_status (s : State) : (noEvents s).status = s.status := rfl
@[simp] theorem noEvents_params (s : State) : (noEvents s).params = s.params := rfl
@[simp] theorem noEvents_result0 (s : State) : (noEvents s).result0 = s.result0 := rfl
@[simp] theorem noEvents_result1 (s : State) : (noEvents s).result1 = s.result1 := rfl
@[simp] theorem noEvents_rowsDone (s : State) : (noEvents s).rowsDone = s.rowsDone := rfl
@[simp] theorem noEvents_job (s : State) : (noEvents s).job = s.job := rfl
@[simp] theorem noEvents_eng (s : State) : (noEvents s).eng = s.eng := rfl
@[simp] theorem noEvents_lut (s : State) : (noEvents s).lut = s.lut := rfl
@[simp] theorem noEvents_mem (s : State) : (noEvents s).mem = s.mem := rfl
@[simp] theorem noEvents_program (s : State) : (noEvents s).program = s.program := rfl
@[simp] theorem noEvents_schedule (s : State) : (noEvents s).schedule = s.schedule := rfl
@[simp] theorem noEvents_rdata (s : State) : (noEvents s).rdata = s.rdata := rfl
@[simp] theorem noEvents_race (s : State) : (noEvents s).race = s.race := rfl
@[simp] theorem noEvents_tick (s : State) : (noEvents s).tick = s.tick := rfl
@[simp] theorem noEvents_events (s : State) : (noEvents s).events = [] := rfl

/-! A register read (R257). -/

@[simp] theorem hostRead_build (o : BitVec 8) (s : State) : (hostRead o s).build = s.build := rfl
@[simp] theorem hostRead_ctrl (o : BitVec 8) (s : State) : (hostRead o s).ctrl = s.ctrl := rfl
@[simp] theorem hostRead_status (o : BitVec 8) (s : State) : (hostRead o s).status = s.status := rfl
@[simp] theorem hostRead_params (o : BitVec 8) (s : State) : (hostRead o s).params = s.params := rfl
@[simp] theorem hostRead_result0 (o : BitVec 8) (s : State) : (hostRead o s).result0 = s.result0 := rfl
@[simp] theorem hostRead_result1 (o : BitVec 8) (s : State) : (hostRead o s).result1 = s.result1 := rfl
@[simp] theorem hostRead_rowsDone (o : BitVec 8) (s : State) : (hostRead o s).rowsDone = s.rowsDone := rfl
@[simp] theorem hostRead_job (o : BitVec 8) (s : State) : (hostRead o s).job = s.job := rfl
@[simp] theorem hostRead_eng (o : BitVec 8) (s : State) : (hostRead o s).eng = s.eng := rfl
@[simp] theorem hostRead_lut (o : BitVec 8) (s : State) : (hostRead o s).lut = s.lut := rfl
@[simp] theorem hostRead_mem (o : BitVec 8) (s : State) : (hostRead o s).mem = s.mem := rfl
@[simp] theorem hostRead_program (o : BitVec 8) (s : State) : (hostRead o s).program = s.program := rfl
@[simp] theorem hostRead_schedule (o : BitVec 8) (s : State) : (hostRead o s).schedule = s.schedule := rfl
@[simp] theorem hostRead_rdata (o : BitVec 8) (s : State) : (hostRead o s).rdata = regRead s o := rfl
@[simp] theorem hostRead_race (o : BitVec 8) (s : State) : (hostRead o s).race = s.race := rfl
@[simp] theorem hostRead_tick (o : BitVec 8) (s : State) : (hostRead o s).tick = s.tick := rfl
@[simp] theorem hostRead_events (o : BitVec 8) (s : State) : (hostRead o s).events = s.events := rfl

/-! The DIST step (R262). -/

@[simp] theorem distStep_build (s : State) : (distStep s).build = s.build := rfl
@[simp] theorem distStep_ctrl (s : State) : (distStep s).ctrl = s.ctrl := rfl
@[simp] theorem distStep_status (s : State) : (distStep s).status = statusComplete .ok s.status := rfl
@[simp] theorem distStep_params (s : State) : (distStep s).params = s.params := rfl
@[simp] theorem distStep_rowsDone (s : State) : (distStep s).rowsDone = s.rowsDone := rfl
@[simp] theorem distStep_job (s : State) : (distStep s).job = s.job := rfl
@[simp] theorem distStep_eng (s : State) : (distStep s).eng = .idle := rfl
@[simp] theorem distStep_lut (s : State) : (distStep s).lut = s.lut := rfl
@[simp] theorem distStep_mem (s : State) : (distStep s).mem = s.mem := rfl
@[simp] theorem distStep_program (s : State) : (distStep s).program = s.program := rfl
@[simp] theorem distStep_schedule (s : State) : (distStep s).schedule = s.schedule := rfl
@[simp] theorem distStep_rdata (s : State) : (distStep s).rdata = s.rdata := rfl
@[simp] theorem distStep_race (s : State) : (distStep s).race = s.race := rfl
@[simp] theorem distStep_tick (s : State) : (distStep s).tick = s.tick := rfl
@[simp] theorem distStep_events (s : State) : (distStep s).events = [] := rfl

/-! The results of the CLASSIFY step (R264). -/

@[simp] theorem classifyResult_build (s : State) : (classifyResult s).build = s.build := rfl
@[simp] theorem classifyResult_ctrl (s : State) : (classifyResult s).ctrl = s.ctrl := rfl
@[simp] theorem classifyResult_status (s : State) : (classifyResult s).status = statusComplete .ok s.status := rfl
@[simp] theorem classifyResult_params (s : State) : (classifyResult s).params = s.params := rfl
@[simp] theorem classifyResult_rowsDone (s : State) : (classifyResult s).rowsDone = s.rowsDone := rfl
@[simp] theorem classifyResult_job (s : State) : (classifyResult s).job = s.job := rfl
@[simp] theorem classifyResult_eng (s : State) : (classifyResult s).eng = .idle := rfl
@[simp] theorem classifyResult_lut (s : State) : (classifyResult s).lut = s.lut := rfl
@[simp] theorem classifyResult_mem (s : State) : (classifyResult s).mem = s.mem := rfl
@[simp] theorem classifyResult_program (s : State) : (classifyResult s).program = s.program := rfl
@[simp] theorem classifyResult_schedule (s : State) : (classifyResult s).schedule = s.schedule := rfl
@[simp] theorem classifyResult_rdata (s : State) : (classifyResult s).rdata = s.rdata := rfl
@[simp] theorem classifyResult_race (s : State) : (classifyResult s).race = s.race := rfl
@[simp] theorem classifyResult_tick (s : State) : (classifyResult s).tick = s.tick := rfl
@[simp] theorem classifyResult_events (s : State) :
    (classifyResult s).events = sourceReads s s.job.arg0.toNat s.job.arg1.toNat := rfl

/-! A BUILD step (R253). -/

@[simp] theorem buildStep_build (n : BuildNext) (s : State) : (buildStep n s).build = s.build := by cases n <;> rfl
@[simp] theorem buildStep_ctrl (n : BuildNext) (s : State) : (buildStep n s).ctrl = s.ctrl := by cases n <;> rfl
@[simp] theorem buildStep_params (n : BuildNext) (s : State) : (buildStep n s).params = s.params := by cases n <;> rfl
@[simp] theorem buildStep_result0 (n : BuildNext) (s : State) : (buildStep n s).result0 = s.result0 := by cases n <;> rfl
@[simp] theorem buildStep_result1 (n : BuildNext) (s : State) : (buildStep n s).result1 = s.result1 := by cases n <;> rfl
@[simp] theorem buildStep_rowsDone (n : BuildNext) (s : State) : (buildStep n s).rowsDone = s.rowsDone := by cases n <;> rfl
@[simp] theorem buildStep_job (n : BuildNext) (s : State) : (buildStep n s).job = s.job := by cases n <;> rfl
@[simp] theorem buildStep_mem (n : BuildNext) (s : State) : (buildStep n s).mem = s.mem := by cases n <;> rfl
@[simp] theorem buildStep_program (n : BuildNext) (s : State) : (buildStep n s).program = s.program := by cases n <;> rfl
@[simp] theorem buildStep_schedule (n : BuildNext) (s : State) : (buildStep n s).schedule = s.schedule := by cases n <;> rfl
@[simp] theorem buildStep_rdata (n : BuildNext) (s : State) : (buildStep n s).rdata = s.rdata := by cases n <;> rfl
@[simp] theorem buildStep_race (n : BuildNext) (s : State) : (buildStep n s).race = s.race := by cases n <;> rfl
@[simp] theorem buildStep_tick (n : BuildNext) (s : State) : (buildStep n s).tick = s.tick := by cases n <;> rfl
@[simp] theorem buildStep_events (n : BuildNext) (s : State) : (buildStep n s).events = [] := by cases n <;> rfl
@[simp] theorem buildStep_lut (n : BuildNext) (s : State) : (buildStep n s).lut = lutFill s.build := by cases n <;> rfl

/-! The cursor and ROWS_DONE after a pixel (R266, R268). -/

@[simp] theorem advanceCursor_build (y x : Nat) (s : State) : (advanceCursor y x s).build = s.build := by unfold advanceCursor; split <;> rfl
@[simp] theorem advanceCursor_ctrl (y x : Nat) (s : State) : (advanceCursor y x s).ctrl = s.ctrl := by unfold advanceCursor; split <;> rfl
@[simp] theorem advanceCursor_status (y x : Nat) (s : State) : (advanceCursor y x s).status = s.status := by unfold advanceCursor; split <;> rfl
@[simp] theorem advanceCursor_params (y x : Nat) (s : State) : (advanceCursor y x s).params = s.params := by unfold advanceCursor; split <;> rfl
@[simp] theorem advanceCursor_result0 (y x : Nat) (s : State) : (advanceCursor y x s).result0 = s.result0 := by unfold advanceCursor; split <;> rfl
@[simp] theorem advanceCursor_result1 (y x : Nat) (s : State) : (advanceCursor y x s).result1 = s.result1 := by unfold advanceCursor; split <;> rfl
@[simp] theorem advanceCursor_job (y x : Nat) (s : State) : (advanceCursor y x s).job = s.job := by unfold advanceCursor; split <;> rfl
@[simp] theorem advanceCursor_lut (y x : Nat) (s : State) : (advanceCursor y x s).lut = s.lut := by unfold advanceCursor; split <;> rfl
@[simp] theorem advanceCursor_mem (y x : Nat) (s : State) : (advanceCursor y x s).mem = s.mem := by unfold advanceCursor; split <;> rfl
@[simp] theorem advanceCursor_program (y x : Nat) (s : State) : (advanceCursor y x s).program = s.program := by unfold advanceCursor; split <;> rfl
@[simp] theorem advanceCursor_schedule (y x : Nat) (s : State) : (advanceCursor y x s).schedule = s.schedule := by unfold advanceCursor; split <;> rfl
@[simp] theorem advanceCursor_rdata (y x : Nat) (s : State) : (advanceCursor y x s).rdata = s.rdata := by unfold advanceCursor; split <;> rfl
@[simp] theorem advanceCursor_race (y x : Nat) (s : State) : (advanceCursor y x s).race = s.race := by unfold advanceCursor; split <;> rfl
@[simp] theorem advanceCursor_tick (y x : Nat) (s : State) : (advanceCursor y x s).tick = s.tick := by unfold advanceCursor; split <;> rfl
@[simp] theorem advanceCursor_events (y x : Nat) (s : State) : (advanceCursor y x s).events = s.events := by unfold advanceCursor; split <;> rfl

/-! A pixel step (R266). -/

@[simp] theorem pixelStep_build (y x : Nat) (s : State) : (pixelStep y x s).build = s.build := by simp [pixelStep]
@[simp] theorem pixelStep_ctrl (y x : Nat) (s : State) : (pixelStep y x s).ctrl = s.ctrl := by simp [pixelStep]
@[simp] theorem pixelStep_status (y x : Nat) (s : State) : (pixelStep y x s).status = s.status := by simp [pixelStep]
@[simp] theorem pixelStep_params (y x : Nat) (s : State) : (pixelStep y x s).params = s.params := by simp [pixelStep]
@[simp] theorem pixelStep_result0 (y x : Nat) (s : State) : (pixelStep y x s).result0 = s.result0 := by simp [pixelStep]
@[simp] theorem pixelStep_result1 (y x : Nat) (s : State) : (pixelStep y x s).result1 = s.result1 := by simp [pixelStep]
@[simp] theorem pixelStep_job (y x : Nat) (s : State) : (pixelStep y x s).job = s.job := by simp [pixelStep]
@[simp] theorem pixelStep_lut (y x : Nat) (s : State) : (pixelStep y x s).lut = s.lut := by simp [pixelStep]
@[simp] theorem pixelStep_program (y x : Nat) (s : State) : (pixelStep y x s).program = s.program := by simp [pixelStep]
@[simp] theorem pixelStep_schedule (y x : Nat) (s : State) : (pixelStep y x s).schedule = s.schedule := by simp [pixelStep]
@[simp] theorem pixelStep_rdata (y x : Nat) (s : State) : (pixelStep y x s).rdata = s.rdata := by simp [pixelStep]
@[simp] theorem pixelStep_race (y x : Nat) (s : State) : (pixelStep y x s).race = s.race := by simp [pixelStep]
@[simp] theorem pixelStep_tick (y x : Nat) (s : State) : (pixelStep y x s).tick = s.tick := by simp [pixelStep]
@[simp] theorem pixelStep_events (y x : Nat) (s : State) : (pixelStep y x s).events = pixelEvents s x y := by simp [pixelStep]
@[simp] theorem pixelStep_mem (y x : Nat) (s : State) : (pixelStep y x s).mem = writeBlock s x y := by simp [pixelStep]

/-! A register write (R93). -/

@[simp] theorem regWrite_build (o : BitVec 8) (v : Word) (s : State) : (regWrite o v s).build = s.build := by unfold regWrite; split <;> rfl
@[simp] theorem regWrite_result0 (o : BitVec 8) (v : Word) (s : State) : (regWrite o v s).result0 = s.result0 := by unfold regWrite; split <;> rfl
@[simp] theorem regWrite_result1 (o : BitVec 8) (v : Word) (s : State) : (regWrite o v s).result1 = s.result1 := by unfold regWrite; split <;> rfl
@[simp] theorem regWrite_rowsDone (o : BitVec 8) (v : Word) (s : State) : (regWrite o v s).rowsDone = s.rowsDone := by unfold regWrite; split <;> rfl
@[simp] theorem regWrite_job (o : BitVec 8) (v : Word) (s : State) : (regWrite o v s).job = s.job := by unfold regWrite; split <;> rfl
@[simp] theorem regWrite_eng (o : BitVec 8) (v : Word) (s : State) : (regWrite o v s).eng = s.eng := by unfold regWrite; split <;> rfl
@[simp] theorem regWrite_lut (o : BitVec 8) (v : Word) (s : State) : (regWrite o v s).lut = s.lut := by unfold regWrite; split <;> rfl
@[simp] theorem regWrite_mem (o : BitVec 8) (v : Word) (s : State) : (regWrite o v s).mem = s.mem := by unfold regWrite; split <;> rfl
@[simp] theorem regWrite_program (o : BitVec 8) (v : Word) (s : State) : (regWrite o v s).program = s.program := by unfold regWrite; split <;> rfl
@[simp] theorem regWrite_schedule (o : BitVec 8) (v : Word) (s : State) : (regWrite o v s).schedule = s.schedule := by unfold regWrite; split <;> rfl
@[simp] theorem regWrite_rdata (o : BitVec 8) (v : Word) (s : State) : (regWrite o v s).rdata = s.rdata := by unfold regWrite; split <;> rfl
@[simp] theorem regWrite_race (o : BitVec 8) (v : Word) (s : State) : (regWrite o v s).race = s.race := by unfold regWrite; split <;> rfl
@[simp] theorem regWrite_tick (o : BitVec 8) (v : Word) (s : State) : (regWrite o v s).tick = s.tick := by unfold regWrite; split <;> rfl
@[simp] theorem regWrite_events (o : BitVec 8) (v : Word) (s : State) : (regWrite o v s).events = s.events := by unfold regWrite; split <;> rfl

/-! Reset (R340). -/

@[simp] theorem resetTurn_build (s : State) : (resetTurn s).build = s.build := rfl
@[simp] theorem resetTurn_ctrl (s : State) : (resetTurn s).ctrl = (State.resetOf s.build).ctrl := rfl
@[simp] theorem resetTurn_status (s : State) : (resetTurn s).status = (State.resetOf s.build).status := rfl
@[simp] theorem resetTurn_params (s : State) : (resetTurn s).params = (State.resetOf s.build).params := rfl
@[simp] theorem resetTurn_result0 (s : State) : (resetTurn s).result0 = (State.resetOf s.build).result0 := rfl
@[simp] theorem resetTurn_result1 (s : State) : (resetTurn s).result1 = (State.resetOf s.build).result1 := rfl
@[simp] theorem resetTurn_rowsDone (s : State) : (resetTurn s).rowsDone = (State.resetOf s.build).rowsDone := rfl
@[simp] theorem resetTurn_job (s : State) : (resetTurn s).job = (State.resetOf s.build).job := rfl
@[simp] theorem resetTurn_eng (s : State) : (resetTurn s).eng = (State.resetOf s.build).eng := rfl
@[simp] theorem resetTurn_lut (s : State) : (resetTurn s).lut = (State.resetOf s.build).lut := rfl
@[simp] theorem resetTurn_mem (s : State) : (resetTurn s).mem = memAfterReset s := rfl
@[simp] theorem resetTurn_program (s : State) : (resetTurn s).program = s.program := rfl
@[simp] theorem resetTurn_schedule (s : State) : (resetTurn s).schedule = s.schedule := rfl
@[simp] theorem resetTurn_rdata (s : State) : (resetTurn s).rdata = s.rdata := rfl
@[simp] theorem resetTurn_race (s : State) : (resetTurn s).race = (State.resetOf s.build).race := rfl
@[simp] theorem resetTurn_tick (s : State) : (resetTurn s).tick = s.tick + 1 := rfl
@[simp] theorem resetTurn_events (s : State) : (resetTurn s).events = [] := rfl

/-! The status words of the shared operations. -/

@[simp] theorem statusComplete_busy (c : ErrCode) (t : Status) : (statusComplete c t).busy = false := rfl
@[simp] theorem statusComplete_done (c : ErrCode) (t : Status) : (statusComplete c t).done = true := rfl
@[simp] theorem statusComplete_lutReady (c : ErrCode) (t : Status) : (statusComplete c t).lutReady = t.lutReady := rfl
@[simp] theorem statusComplete_ovr (c : ErrCode) (t : Status) : (statusComplete c t).ovr = t.ovr := rfl
@[simp] theorem statusComplete_err (c : ErrCode) (t : Status) : (statusComplete c t).err = c := rfl
@[simp] theorem statusAccept_busy (t : Status) : (statusAccept t).busy = t.busy := rfl
@[simp] theorem statusAccept_done (t : Status) : (statusAccept t).done = false := rfl
@[simp] theorem statusAccept_lutReady (t : Status) : (statusAccept t).lutReady = t.lutReady := rfl
@[simp] theorem statusAccept_ovr (t : Status) : (statusAccept t).ovr = t.ovr := rfl
@[simp] theorem statusAccept_err (t : Status) : (statusAccept t).err = .ok := rfl
@[simp] theorem statusWrite_busy (v : Word) (t : Status) : (statusWrite v t).busy = t.busy := rfl
@[simp] theorem statusWrite_lutReady (v : Word) (t : Status) : (statusWrite v t).lutReady = t.lutReady := rfl
@[simp] theorem statusWrite_err (v : Word) (t : Status) : (statusWrite v t).err = t.err := rfl

end Sys2Proof.Machine
end

