-- ==== Sys2Proof/Laws/Ops.lean ====
section
/-! SUPPORT. One lemma per shared operation: everything it can do. -/

namespace Sys2Proof.Machine

/-! Decoding and validation. -/

theorem decodeWord_encode (i : Instr) : decodeWord (encode i) = .ok i := by cases i <;> decide

theorem validate_encode_nop (j : Job) : validate (encode .nop) j = .ok := by simp [validate, decodeWord_encode]

theorem validate_encode_lutInit (j : Job) : validate (encode .lutInit) j = .ok := by simp [validate, decodeWord_encode]

theorem validate_encode_dist (j : Job) : validate (encode .dist) j = .ok := by simp [validate, decodeWord_encode]

theorem validate_encode_scale (j : Job) : validate (encode .scale) j = validateScale j := by
  simp [validate, decodeWord_encode]

theorem validate_encode_classify (j : Job) : validate (encode .classify) j = validateClassify j := by
  simp [validate, decodeWord_encode]

theorem validate_illegal {v : Word} {e : DecodeReject} (j : Job) (h : decodeWord v = .error e) :
    validate v j = .illegalCommand := by simp [validate, h]

/-- What a SCALE job that validation accepts satisfies (R301 to R305, R308). -/
structure ScaleValid (j : Job) : Prop where
  width : 0 < j.w.toNat
  height : 0 < j.h.toNat
  size : sourceBytes j = j.srcLen.toNat
  rowsOrdered : j.rowFirst.toNat ≤ j.rowLast.toNat
  rowsInside : j.rowLast.toNat ≤ j.h.toNat
  factor : j.n.toNat ∈ supportedFactors
  sourceFits : j.srcBase.toNat + j.srcLen.toNat ≤ addrSpace
  capacity : destBytes j ≤ j.dstLen.toNat
  destFits : j.dstBase.toNat + destBytes j ≤ addrSpace
  disjoint : j.dstBase.toNat + destBytes j ≤ j.srcBase.toNat ∨ j.srcBase.toNat + j.srcLen.toNat ≤ j.dstBase.toNat

theorem validateScale_ok {j : Job} : validateScale j = .ok ↔ ScaleValid j := by
  unfold validateScale badDimensions badRows badFactor sourceWraps badAllocation regionsOverlap
  constructor
  · intro h
    repeat' split at h
    all_goals cases h
    simp only [Bool.or_eq_true, decide_eq_true_eq, not_or, not_and, not_not, not_lt] at *
    constructor <;> omega
  · intro h
    have h1 := h.width
    have h2 := h.height
    have h3 := h.size
    have h4 := h.rowsOrdered
    have h5 := h.rowsInside
    have h6 := h.factor
    have h7 := h.sourceFits
    have h8 := h.capacity
    have h9 := h.destFits
    have h10 := h.disjoint
    rw [if_neg, if_neg, if_neg, if_neg, if_neg] <;>
      simp only [Bool.or_eq_true, decide_eq_true_eq, not_or, not_and, not_not] <;> omega

/-- What a CLASSIFY job that validation accepts satisfies (R301, R303, R309). -/
structure ClassifyValid (j : Job) : Prop where
  width : 0 < j.w.toNat
  height : 0 < j.h.toNat
  size : sourceBytes j = j.srcLen.toNat
  column : j.arg0.toNat < j.w.toNat
  row : j.arg1.toNat < j.h.toNat
  sourceFits : j.srcBase.toNat + j.srcLen.toNat ≤ addrSpace

theorem validateClassify_ok {j : Job} : validateClassify j = .ok ↔ ClassifyValid j := by
  unfold validateClassify badDimensions badCoordinates sourceWraps
  constructor
  · intro h
    repeat' split at h
    all_goals cases h
    simp only [Bool.or_eq_true, decide_eq_true_eq, not_or, not_not, not_lt] at *
    constructor <;> omega
  · intro h
    have h1 := h.width
    have h2 := h.height
    have h3 := h.size
    have h4 := h.column
    have h5 := h.row
    have h6 := h.sourceFits
    rw [if_neg, if_neg] <;> simp only [Bool.or_eq_true, decide_eq_true_eq, not_or, not_not] <;> omega

/-! Acceptance. -/

theorem accept_ok {v : Word} {s : State} (start : State → State) (h : validate v (latch v s).job = .ok) :
    accept v start s = start (latch v s) := by simp only [accept, h]

theorem accept_rejected {v : Word} {s : State} (start : State → State) (h : validate v (latch v s).job ≠ .ok) :
    accept v start s = complete (validate v (latch v s).job) (latch v s) := by
  cases hc : validate v (latch v s).job <;> simp_all only [accept, ne_eq, not_true_eq_false]

/-- Everything a CMD write can do (R250, R251). -/
theorem issue_cases (v : Word) (start : State → State) (s : State) :
    (s.status.busy = true ∧ issue v start s = { s with status := { s.status with ovr := true } }) ∨
    (s.status.busy = false ∧ validate v (latch v s).job = .ok ∧ issue v start s = start (latch v s)) ∨
    (s.status.busy = false ∧ validate v (latch v s).job ≠ .ok ∧
      issue v start s = complete (validate v (latch v s).job) (latch v s)) := by
  cases hb : s.status.busy
  · by_cases hv : validate v (latch v s).job = .ok
    · exact .inr (.inl ⟨rfl, hv, by simp [issue, hb, accept_ok start hv]⟩)
    · exact .inr (.inr ⟨rfl, hv, by simp [issue, hb, accept_rejected start hv]⟩)
  · exact .inl ⟨rfl, by simp [issue, hb]⟩

/-! The engine. -/

/-- Everything a CLASSIFY step can do (R264). -/
theorem classifyStep_next {s t : State} (h : classifyStep s = .next t) :
    validateClassify s.job = .ok ∧ t = classifyResult s := by
  unfold classifyStep at h
  split at h
  · cases h
    exact ⟨‹_›, rfl⟩
  · cases h

/-- Everything a SCALE step can do (R266, R269, R270). -/
theorem scaleStep_next {y x : Nat} {s t : State} (h : scaleStep y x s = .next t) :
    cursorInJob s.job y x = true ∧
    ((x = 0 ∧ y = s.job.rowLast.toNat ∧ t = complete .ok (noEvents s)) ∨
      (x = 0 ∧ y ≠ s.job.rowLast.toNat ∧ s.ctrl.cancel = true ∧
        t = complete .cancelled { noEvents s with ctrl := { s.ctrl with cancel := false } }) ∨
      (y ≠ s.job.rowLast.toNat ∧ (x = 0 → s.ctrl.cancel = false) ∧ t = pixelStep y x s)) := by
  unfold scaleStep at h
  split at h
  · rename_i hc
    have hy : y = s.job.rowLast.toNat → x = 0 := by
      simp only [cursorInJob, decide_eq_true_eq] at hc
      exact hc.2.2.2.2
    refine ⟨hc, ?_⟩
    split at h
    · cases h
      exact .inl ⟨‹_ ∧ _›.1, ‹_ ∧ _›.2, rfl⟩
    · rename_i hn
      have hne : y ≠ s.job.rowLast.toNat := fun e => hn ⟨hy e, e⟩
      split at h
      · cases h
        exact .inr (.inl ⟨‹_ ∧ _›.1, hne, ‹_ ∧ _›.2, rfl⟩)
      · rename_i hk
        cases h
        refine .inr (.inr ⟨hne, fun hx => ?_, rfl⟩)
        cases hcancel : s.ctrl.cancel
        · rfl
        · exact absurd ⟨hx, hcancel⟩ hk
  · cases h

/-- Everything an engine step can do (R254). -/
theorem engineStep_next {s t : State} (h : engineStep s = .next t) :
    (s.status.busy = false ∧ t = s) ∨
    (s.status.busy = true ∧
      ((∃ n, s.eng = .build n ∧ t = buildStep n s) ∨ (s.eng = .dist ∧ t = distStep s) ∨
        (s.eng = .classify ∧ classifyStep s = .next t) ∨ (∃ y x, s.eng = .scale y x ∧ scaleStep y x s = .next t))) := by
  unfold engineStep at h
  split at h
  · rename_i hb
    refine .inr ⟨hb, ?_⟩
    split at h
    · cases h
    · cases h
      exact .inl ⟨_, ‹_›, rfl⟩
    · cases h
      exact .inr (.inl ⟨‹_›, rfl⟩)
    · exact .inr (.inr (.inl ⟨‹_›, h⟩))
    · exact .inr (.inr (.inr ⟨_, _, ‹_›, h⟩))
  · rename_i hb
    cases h
    exact .inl ⟨by simpa using hb, rfl⟩

/-! Turns. -/

theorem tickOut_next {o : Out} {t : State} : tickOut o = .next t ↔ ∃ u, o = .next u ∧ t = tickState u := by
  cases o <;> simp [tickOut, eq_comm]

/-- Every command is the issue of its word (R250). -/
theorem exec_eq_issue (i : Instr) (s : State) :
    (i = .nop ∧ exec i s = .next (issue (encode .nop) startNop s)) ∨
    (i = .lutInit ∧ exec i s = .next (issue (encode .lutInit) startLutInit s)) ∨
    (i = .scale ∧ exec i s = .next (issue (encode .scale) startScale s)) ∨
    (i = .dist ∧ exec i s = .next (issue (encode .dist) startDist s)) ∨
    (i = .classify ∧ exec i s = .next (issue (encode .classify) startClassify s)) := by
  cases i
  · exact .inl ⟨rfl, rfl⟩
  · exact .inr (.inl ⟨rfl, rfl⟩)
  · exact .inr (.inr (.inl ⟨rfl, rfl⟩))
  · exact .inr (.inr (.inr (.inl ⟨rfl, rfl⟩)))
  · exact .inr (.inr (.inr (.inr ⟨rfl, rfl⟩)))

/-- Everything a CMD write can do (R106, R250). -/
theorem commandWrite_cases (v : Word) (s : State) :
    (∃ i, decodeWord v = .ok i ∧ commandWrite v s = exec i s) ∨
    (∃ e, decodeWord v = .error e ∧ commandWrite v s = .next (issue v id s)) := by
  unfold commandWrite
  cases h : decodeWord v with
  | error e => exact .inr ⟨e, rfl, rfl⟩
  | ok i => exact .inl ⟨i, rfl, rfl⟩

/-- Everything a register write can do (R90, R93). -/
theorem hostWrite_cases (o : BitVec 8) (v : Word) (s : State) :
    (o = cmdOffset ∧ hostWrite o v s = commandWrite v s) ∨ (o ≠ cmdOffset ∧ hostWrite o v s = .next (regWrite o v s)) := by
  unfold hostWrite
  split
  · exact .inl ⟨‹_›, rfl⟩
  · exact .inr ⟨‹_›, rfl⟩

/-- While no job runs a host store is a plain write (R60, R76). -/
theorem hostStore_of_not_busy {s : State} (h : s.status.busy = false) (a : Nat) (b : Byte) :
    hostStore a b s = { s with mem := memWrite s.mem a b } := by
  simp [hostStore, readsSource, writesByte, h]

/-- Of a byte the running job has written already, a host store leaves its own value or the job's (R347, U10). -/
theorem hostStore_of_passed {s : State} {a : Nat} (hr : (readsSource s && inSource s.job a) = false)
    (hw : writesByte s a = true) (hc : cursorPassed s a = true) (b : Byte) :
    hostStore a b s = { s with mem := memWrite s.mem a (if Config.storeRace s.tick a then jobByteAt s a else b) } := by
  simp only [hostStore, hr, hw, hc, if_true, Bool.false_eq_true, if_false]

/-- The byte such a store leaves: the stored value or the job's (R347, U10). -/
theorem memRead_hostStore_of_passed {s : State} {a : Nat} (h : Memory.wf s.mem = true)
    (hr : (readsSource s && inSource s.job a) = false) (hw : writesByte s a = true) (hc : cursorPassed s a = true) (b : Byte) :
    memRead (hostStore a b s).mem a = b ∨ memRead (hostStore a b s).mem a = jobByteAt s a := by
  rw [hostStore_of_passed hr hw hc, memRead_memWrite_self h]
  split <;> simp

/-- While no job runs a host load reads memory as it is (R60, R76). -/
theorem hostLoad_of_not_busy {s : State} (h : s.status.busy = false) (a : Nat) : hostLoad s a = memRead s.mem a := by
  simp [hostLoad, writesByte, h]

/-- Everything a host store can do to the fields the block owns: nothing (R46). -/
theorem hostStore_block (a : Nat) (b : Byte) (s : State) :
    (hostStore a b s).status = s.status ∧ (hostStore a b s).ctrl = s.ctrl ∧ (hostStore a b s).params = s.params ∧
      (hostStore a b s).job = s.job ∧ (hostStore a b s).eng = s.eng ∧ (hostStore a b s).lut = s.lut ∧
      (hostStore a b s).rowsDone = s.rowsDone ∧ (hostStore a b s).build = s.build := by
  unfold hostStore
  split
  · simp
  · split
    · split
      · split <;> simp
      · simp
    · simp

/-- Reset leaves host memory as it is when no SCALE job runs (R341). -/
theorem memAfterReset_of_no_scale {s : State} (h : s.status.busy = false ∨ s.job.op ≠ 2) : memAfterReset s = s.mem := by
  unfold memAfterReset
  rw [if_neg]
  rcases h with h | h
  · simp [h]
  · simpa using fun _ => h

/-- Everything a host-program line can do (R90, R108). -/
theorem hostLine_next {l : HostLine} {s t : State} (h : hostLine l s = .next t) :
    lineWf l = true ∧
    ((∃ o v, l = .wr o v ∧ hostWrite o v s = .next t) ∨ (∃ o, t = hostRead o s) ∨
      (∃ o, t = { hostRead o s with program := .line l :: s.program })) := by
  unfold hostLine at h
  split at h
  · refine ⟨‹_›, ?_⟩
    split at h
    · exact .inl ⟨_, _, rfl, h⟩
    · cases h
      exact .inr (.inl ⟨_, rfl⟩)
    · split at h
      · cases h
        exact .inr (.inl ⟨_, rfl⟩)
      · cases h
        exact .inr (.inr ⟨_, rfl⟩)
  · cases h

/-- Everything a host access can do (R90, R60). -/
theorem hostAccess_next {op : HostOp} {s t : State} (h : hostAccess op s = .next t) :
    (∃ l, op = .line l ∧ hostLine l s = .next t) ∨
    (∃ a b, op = .store a b ∧ t = tickState (hostStore a.toNat b s)) ∨
    (∃ a, op = .load a ∧ t = tickState { s with rdata := (hostLoad s a.toNat).setWidth 32 }) := by
  cases op with
  | line l => exact .inl ⟨l, rfl, h⟩
  | narrow o n => cases h
  | store a b =>
    cases h
    exact .inr (.inl ⟨a, b, rfl, rfl⟩)
  | load a =>
    cases h
    exact .inr (.inr ⟨a, rfl, rfl⟩)

/-- Everything a step can do (R254, R255, R340). -/
theorem step_next {s t : State} (h : step s = .next t) :
    (∃ sch, engineStep { s with schedule := sch } = .next t ∨
      ∃ u, engineStep { s with schedule := sch } = .next u ∧ t = tickState u) ∨
    (∃ sch, t = resetTurn { s with schedule := sch }) ∨
    (∃ sch, t = { s with schedule := sch }) ∨
    (∃ sch op rest, s.program = op :: rest ∧ hostAccess op { s with schedule := sch, program := rest } = .next t) := by
  have host : ∀ sch, hostTurn { s with schedule := sch } = .next t →
      (∃ sch, t = { s with schedule := sch }) ∨
      (∃ sch op rest, s.program = op :: rest ∧
        hostAccess op { s with schedule := sch, program := rest } = .next t) := by
    intro sch h
    unfold hostTurn at h
    split at h
    · cases h
      exact .inl ⟨sch, rfl⟩
    · exact .inr ⟨sch, _, _, ‹_›, h⟩
  unfold step takeTurn at h
  split at h
  · exact .inr (.inr (host _ h))
  · obtain ⟨u, hu, rfl⟩ := tickOut_next.1 h
    exact .inl ⟨_, .inr ⟨u, hu, rfl⟩⟩
  · cases h
    exact .inr (.inl ⟨_, rfl⟩)
  · rename_i hs
    split at h
    · obtain ⟨u, hu, rfl⟩ := tickOut_next.1 h
      exact .inl ⟨s.schedule, .inr ⟨u, hu, rfl⟩⟩
    · exact .inr (.inr (host s.schedule h))

end Sys2Proof.Machine
end

