-- ==== Sys2Proof/Laws/Lut.lean ====
section
/-! SUPPORT. The LUT: an entry of the filled table is the entry function, and every entry fits its word (40_color_distance_lut.md
R125, R130). -/

namespace Sys2Proof.Machine

theorem isqrtBits_lt (k m n : Nat) : isqrtBits k m n < m + 2 ^ k := by
  induction k generalizing m with
  | zero => simp [isqrtBits]
  | succ k ih =>
    unfold isqrtBits
    have hk : 2 ^ (k + 1) = 2 ^ k + 2 ^ k := by ring
    have hp := Nat.two_pow_pos k
    split
    · have := ih (m + 2 ^ k)
      omega
    · have := ih m
      omega

theorem isqrt_lt {n : Nat} (h : n < 2 ^ 40) : isqrt n < 2 ^ 21 := by
  have hl : n.log2 ≤ 39 := by
    rcases Nat.eq_zero_or_pos n with rfl | hn
    · simp
    · exact Nat.le_of_lt_succ ((Nat.log2_lt (by omega)).2 h)
  have h1 : isqrt n < 0 + 2 ^ (n.log2 / 2 + 1) := isqrtBits_lt _ _ _
  have h2 : 2 ^ (n.log2 / 2 + 1) ≤ 2 ^ 20 := Nat.pow_le_pow_right (by norm_num) (by omega)
  omega

theorem representative_abs_le {b : LutBits} {c : Nat} (h : c ≤ 2 * lutLevels b) : |representative b c| ≤ 255 := by
  have hc : (c : ℚ) ≤ 2 * (lutLevels b : ℚ) := by exact_mod_cast h
  have h0 : (0 : ℚ) ≤ (c : ℚ) := Nat.cast_nonneg c
  have hL : (0 : ℚ) < (lutLevels b : ℚ) := by cases b <;> norm_num [lutLevels, lutWidth]
  rw [representative, abs_le, le_div_iff₀ hL, div_le_iff₀ hL]
  constructor <;> nlinarith

theorem sq_le_of_abs_le {x c : ℚ} (h1 : -c ≤ x) (h2 : x ≤ c) : x ^ 2 ≤ c ^ 2 := by nlinarith

/-- The squared distance of a difference inside the colour cube is below 10^6. -/
theorem squaredDistance_le {r g b : ℚ} (hr : |r| ≤ 255) (hg : |g| ≤ 255) (hb : |b| ≤ 255) :
    squaredDistance defaultCoefficients r g b ≤ 10 ^ 6 := by
  obtain ⟨r1, r2⟩ := abs_le.1 hr
  obtain ⟨g1, g2⟩ := abs_le.1 hg
  obtain ⟨b1, b2⟩ := abs_le.1 hb
  unfold squaredDistance coeffKG ratioValue defaultCoefficients
  norm_num only
  have hy := sq_le_of_abs_le (x := 1 * (2627 / 10000 * r + 339 / 500 * g + 593 / 10000 * b)) (c := 255)
    (by linarith) (by linarith)
  have hcb := sq_le_of_abs_le (x := 5000 / 9407 * (b - (2627 / 10000 * r + 339 / 500 * g + 593 / 10000 * b)))
    (c := 300) (by linarith) (by linarith)
  have hcr := sq_le_of_abs_le (x := 5000 / 7373 * (r - (2627 / 10000 * r + 339 / 500 * g + 593 / 10000 * b)))
    (c := 350) (by linarith) (by linarith)
  norm_num at hy hcb hcr ⊢
  linarith

theorem entryOfCodes_lt {b : Build} (hb : b.coefficients = defaultCoefficients) (cR cG cB : Nat) :
    entryOfCodes b cR cG cB < 2 ^ 32 := by
  unfold entryOfCodes
  simp only [hb]
  split
  · norm_num
  · rename_i h
    push Not at h
    have hs := squaredDistance_le (representative_abs_le h.1) (representative_abs_le h.2.1)
      (representative_abs_le h.2.2)
    set S := squaredDistance defaultCoefficients (representative b.lutBits cR) (representative b.lutBits cG)
      (representative b.lutBits cB)
    have hf : (S * 4 ^ (fracBits + 1)).floor ≤ 10 ^ 6 * 4 ^ 9 := by
      have h4 : S * 4 ^ (fracBits + 1) ≤ ((10 ^ 6 * 4 ^ 9 : Int) : ℚ) := by
        unfold fracBits
        push_cast
        nlinarith
      have := Rat.floor_monotone h4
      rwa [Rat.floor_intCast] at this
    have hn : (S * 4 ^ (fracBits + 1)).floor.toNat < 2 ^ 40 := by omega
    have := isqrt_lt hn
    unfold fixedRoot
    omega

/-- With the coefficients of R10 every entry fits its 32-bit word. -/
theorem entryValue_lt {b : Build} (hb : b.coefficients = defaultCoefficients) (k : Nat) : entryValue b k < 2 ^ 32 :=
  entryOfCodes_lt hb _ _ _

/-- An entry that fits its word holds E(k) (R42, R125). -/
theorem entryWord_toNat {b : Build} {k : Nat} (h : entryValue b k < 2 ^ 32) : (entryWord b k).toNat = entryValue b k := by
  simp only [entryWord, if_pos h, BitVec.toNat_ofNat, Nat.mod_eq_of_lt h]

/-- Reading the filled LUT gives the entry function's word (R130). -/
theorem lutRead_lutFill {b : Build} {k : Nat} (h : k < lutSize b.lutBits) : lutRead (lutFill b) k = entryWord b k := by
  simp [lutRead, lutFill, List.getD_eq_getElem?_getD, h]

theorem lutFill_length (b : Build) : (lutFill b).length = lutSize b.lutBits := by simp [lutFill]

end Sys2Proof.Machine
end

