-- ==== Sys2Proof/Laws/Image.lean ====
section
/-! SUPPORT. The engine's view of the source is the image host memory holds, and a job's addresses lie in its regions
(20_memory.md R62, R63, R69, 41_neighborhood_sampler.md R150, R151). -/

namespace Sys2Proof.Machine

/-! The source. -/

theorem srcByte_eq_memRead {s : State} (h : s.race.srcOld = []) (a : Nat) : srcByte s a = memRead s.mem a := by
  simp [srcByte, h]

theorem srcPixel_eq_imagePixel {s : State} (h : s.race.srcOld = []) (x y : Int) :
    srcPixel s x y = imagePixel s.mem s.job x y := by
  simp [srcPixel, imagePixel, srcPixelAt, memPixel, srcByte_eq_memRead h]

/-- Without a race the window the engine samples is the image's window (R152). -/
theorem sample_eq_imageWindow {s : State} (h : s.race.srcOld = []) (x y : Nat) :
    sample s x y = imageWindow s.mem s.job x y := by
  funext dy dx
  exact srcPixel_eq_imagePixel h _ _

/-- A clamped coordinate is inside the image (R150). -/
theorem clamp_lt (v : Int) {n : Nat} (h : 0 < n) : clamp v n < n := by
  unfold clamp
  split
  · exact h
  · split <;> omega

/-- A coordinate inside the image is not changed by the clamp (R150). -/
theorem clamp_of_inside {v n : Nat} (h : v < n) : clamp (v : Int) n = v := by
  unfold clamp
  rw [if_neg (by omega), if_neg (by omega)]
  simp

/-- Every byte of a source pixel lies in the source region (R69). -/
theorem srcAddr_in_source {j : Job} {x y : Nat} (hx : x < j.w.toNat) (hy : y < j.h.toNat)
    (hs : sourceBytes j = j.srcLen.toNat) {k : Nat} (hk : k < 4) :
    j.srcBase.toNat ≤ srcAddr j x y + k ∧ srcAddr j x y + k < j.srcBase.toNat + j.srcLen.toNat := by
  unfold srcAddr
  unfold sourceBytes at hs
  have h1 : (y + 1) * j.w.toNat ≤ j.h.toNat * j.w.toNat := Nat.mul_le_mul_right _ hy
  have h2 : (y + 1) * j.w.toNat = y * j.w.toNat + j.w.toNat := by ring
  have h3 : j.w.toNat * j.h.toNat * 4 = 4 * (j.h.toNat * j.w.toNat) := by ring
  omega

/-! The window's reads (R156, R267). -/

theorem mem_windowOffsets {d : Int} : d ∈ windowOffsets ↔ -2 ≤ d ∧ d ≤ 2 := by
  simp only [windowOffsets, List.mem_cons, List.not_mem_nil, or_false]
  omega

/-- The addresses SAMPLE reads are those of the window's positions, clamped (R151, R152). -/
theorem mem_windowAddrs {j : Job} {x y a : Nat} : a ∈ windowAddrs j x y ↔
    ∃ dx dy : Int, (-2 ≤ dx ∧ dx ≤ 2) ∧ (-2 ≤ dy ∧ dy ≤ 2) ∧
      a = srcAddr j (clamp ((x : Int) + dx) j.w.toNat) (clamp ((y : Int) + dy) j.h.toNat) := by
  simp only [windowAddrs, windowRow, List.mem_eraseDups, List.mem_flatMap, List.mem_map, mem_windowOffsets]
  constructor
  · rintro ⟨dy, hy, dx, hx, rfl⟩
    exact ⟨dx, dy, hx, hy, rfl⟩
  · rintro ⟨dx, dy, hx, hy, rfl⟩
    exact ⟨dy, hy, dx, hx, rfl⟩

/-- Every pixel of the window is one the recorded reads read, with the value read (R152, R267). -/
theorem sample_mem_sourceReads (s : State) (x y : Nat) {dx dy : Int} (hx : -2 ≤ dx ∧ dx ≤ 2) (hy : -2 ≤ dy ∧ dy ≤ 2) :
    .read (srcAddr s.job (clamp ((x : Int) + dx) s.job.w.toNat) (clamp ((y : Int) + dy) s.job.h.toNat)) (sample s x y dy dx) ∈
      sourceReads s x y :=
  List.mem_map.2 ⟨_, mem_windowAddrs.2 ⟨dx, dy, hx, hy, rfl⟩, rfl⟩

/-- Without a race the recorded reads read the image (R267). -/
theorem sourceReads_eq {s : State} (h : s.race.srcOld = []) (x y : Nat) :
    sourceReads s x y = (windowAddrs s.job x y).map fun a => .read a (memPixel s.mem a) := by
  simp [sourceReads, srcPixelAt, memPixel, srcByte_eq_memRead h]

/-- Without a race the recorded writes write the block's pixels (R232, R267). -/
theorem blockWrites_eq {s : State} (h : s.race.srcOld = []) (x y : Nat) :
    blockWrites s x y = (List.range s.job.n.toNat).flatMap fun si => (List.range s.job.n.toNat).map fun sj =>
      .write (dstAddr s.job x y si sj) (blockPixel s x y si sj) := by
  simp [blockWrites, jobPixel, jobByte, h, unpack4]

/-- Removing repeats from a rising list leaves a strictly rising one. -/
theorem eraseDups_pairwise_lt {l : List Nat} (h : l.Pairwise (· ≤ ·)) : l.eraseDups.Pairwise (· < ·) := by
  induction l using List.reverseRecOn with
  | nil => simp
  | append_singleton l a ih =>
    obtain ⟨hl, -, ha⟩ := List.pairwise_append.1 h
    rw [List.eraseDups_append]
    by_cases hm : a ∈ l
    · simpa [List.removeAll, hm] using ih hl
    · have hlt : ∀ b ∈ l, b < a := fun b hb =>
        lt_of_le_of_ne (ha b hb a (List.mem_singleton_self a)) fun e => hm (e ▸ hb)
      have hrem : [a].removeAll l = [a] := by simp [List.removeAll, hm]
      rw [hrem]
      refine List.pairwise_append.2 ⟨ih hl, List.pairwise_singleton _ a, fun b hb c hc => ?_⟩
      rw [List.mem_singleton.1 (List.mem_eraseDups.1 hc)]
      exact hlt b (List.mem_eraseDups.1 hb)

/-- Rows of a rising list, each rising inside and wholly above the rows before it, give a strictly rising list once repeats are
removed. -/
theorem flatMap_eraseDups_pairwise_lt {row : Nat → List Nat} (hin : ∀ c, (row c).Pairwise (· ≤ ·))
    (habove : ∀ c c', c < c' → ∀ a ∈ row c, ∀ b ∈ row c', a < b) {cs : List Nat} (h : cs.Pairwise (· ≤ ·)) :
    (cs.flatMap row).eraseDups.Pairwise (· < ·) := by
  induction cs using List.reverseRecOn with
  | nil => simp
  | append_singleton cs c ih =>
    obtain ⟨hl, -, hc⟩ := List.pairwise_append.1 h
    rw [List.flatMap_append, List.eraseDups_append]
    by_cases hm : c ∈ cs
    · have hnil : (List.flatMap row [c]).removeAll (cs.flatMap row) = [] := by
        simp only [List.removeAll, List.flatMap_cons, List.flatMap_nil, List.append_nil, List.filter_eq_nil_iff]
        intro a ha
        simpa using ⟨c, hm, ha⟩
      rw [hnil]
      simpa using ih hl
    · have hlt : ∀ a ∈ cs.flatMap row, ∀ b ∈ row c, a < b := by
        intro a ha b hb
        obtain ⟨c', hc', ha⟩ := List.mem_flatMap.1 ha
        exact habove c' c (lt_of_le_of_ne (hc c' hc' c (List.mem_singleton_self c)) fun e => hm (e ▸ hc')) a ha b hb
      have hrow : (List.flatMap row [c]).removeAll (cs.flatMap row) = row c := by
        simp only [List.removeAll, List.flatMap_cons, List.flatMap_nil, List.append_nil, List.filter_eq_self]
        intro b hb
        simpa using fun c' hc' hb' => lt_irrefl b (hlt b (List.mem_flatMap.2 ⟨c', hc', hb'⟩) b hb)
      rw [hrow]
      refine List.pairwise_append.2 ⟨ih hl, eraseDups_pairwise_lt (hin c), fun a ha b hb => ?_⟩
      exact hlt a (List.mem_eraseDups.1 ha) b (List.mem_eraseDups.1 hb)

/-! The destination. -/

/-- Every byte of a block of the job's rows lies in the bytes the job writes (R69). -/
theorem dstAddr_in_dest {j : Job} {x y si sj k : Nat} (hx : x < j.w.toNat) (hi : si < j.n.toNat) (hj : sj < j.n.toNat)
    (hf : j.rowFirst.toNat ≤ y) (hl : y < j.rowLast.toNat) (hk : k < 4) :
    dstLow j ≤ dstAddr j x y si sj + k ∧ dstAddr j x y si sj + k < dstHigh j := by
  unfold dstLow dstHigh dstAddr
  set W := j.w.toNat
  set N := j.n.toNat
  have hrow : j.rowFirst.toNat * N ≤ y * N + si := le_trans (Nat.mul_le_mul_right _ hf) (Nat.le_add_right _ _)
  have hrow' : y * N + si + 1 ≤ j.rowLast.toNat * N := by
    have h1 : (y + 1) * N ≤ j.rowLast.toNat * N := Nat.mul_le_mul_right _ hl
    have h2 : (y + 1) * N = y * N + N := by ring
    omega
  have hcol : x * N + sj + 1 ≤ W * N := by
    have h1 : (x + 1) * N ≤ W * N := Nat.mul_le_mul_right _ hx
    have h2 : (x + 1) * N = x * N + N := by ring
    omega
  have h1 : j.rowFirst.toNat * N * (W * N) ≤ (y * N + si) * (W * N) := Nat.mul_le_mul_right _ hrow
  have h2 : (y * N + si + 1) * (W * N) ≤ j.rowLast.toNat * N * (W * N) := Nat.mul_le_mul_right _ hrow'
  have h3 : (y * N + si + 1) * (W * N) = (y * N + si) * (W * N) + W * N := by ring
  omega

/-- The bytes a validated job writes lie in the destination region (R60, R69). -/
theorem dstHigh_le {j : Job} (h : j.rowLast.toNat ≤ j.h.toNat) : dstHigh j ≤ j.dstBase.toNat + destBytes j := by
  unfold dstHigh destBytes
  have h1 : j.rowLast.toNat * j.n.toNat * (j.w.toNat * j.n.toNat) ≤ j.h.toNat * j.n.toNat * (j.w.toNat * j.n.toNat) :=
    Nat.mul_le_mul_right _ (Nat.mul_le_mul_right _ h)
  have h2 : j.w.toNat * j.n.toNat * (j.h.toNat * j.n.toNat) * 4 = 4 * (j.h.toNat * j.n.toNat * (j.w.toNat * j.n.toNat)) := by
    ring
  omega

theorem dstHigh_le_addrSpace {j : Job} (h : ScaleValid j) : dstHigh j ≤ addrSpace :=
  le_trans (dstHigh_le h.rowsInside) h.destFits

/-- Every write of a block goes to the bytes the job writes (R69). -/
theorem blockCells_in_dest {s : State} {x y : Nat} (hx : x < s.job.w.toNat) (hf : s.job.rowFirst.toNat ≤ y)
    (hl : y < s.job.rowLast.toNat) : ∀ c ∈ blockCells s x y, inDest s.job c.1 = true := by
  intro c hc
  simp only [blockCells, List.mem_flatMap, List.mem_range] at hc
  obtain ⟨si, hi, sj, hj, hc⟩ := hc
  have key : ∀ k, k < 4 → inDest s.job (dstAddr s.job x y si sj + k) = true := fun k hk => by
    simpa [inDest] using dstAddr_in_dest hx hi hj hf hl hk
  simp only [pixelCells, List.mem_cons, List.not_mem_nil, or_false] at hc
  rcases hc with rfl | rfl | rfl | rfl
  · exact key 0 (by norm_num)
  · exact key 1 (by norm_num)
  · exact key 2 (by norm_num)
  · exact key 3 (by norm_num)

theorem destAddrs_in_dest (j : Job) : ∀ a ∈ destAddrs j, inDest j a = true := by
  intro a ha
  simp only [destAddrs, List.mem_map, List.mem_range] at ha
  obtain ⟨k, hk, rfl⟩ := ha
  simp only [inDest, decide_eq_true_eq]
  omega

theorem lt_addrSpace_of_inDest {j : Job} (h : ScaleValid j) {a : Nat} (ha : inDest j a = true) : a < addrSpace := by
  have := dstHigh_le_addrSpace h
  simp only [inDest, decide_eq_true_eq] at ha
  omega

end Sys2Proof.Machine
end

