-- ==== Sys2Proof/Laws/PerInstr.lean ====
section
/-! SUPPORT. Statements about every command as syntax, one lemma per constructor (30_encoding.md R94 to R96). -/

namespace Sys2Proof.Laws

open Sys2Proof.Machine

/-- The command's word is legal, its four bytes decode to the command with nothing left over, and the word as a row of the opcode
table decodes to it (R95, R96). -/
def Encoding.Statement (i : Instr) : Prop :=
  i.wf = true ∧ wordLegal (encode i) = true ∧
    (∀ rest, decodeBytes (encodeBytes i ++ rest) = .ok (i, rest)) ∧ decodeTableWord 32 (encode i).toNat = some i

theorem decodeBytes_encodeBytes (i : Instr) (rest : List Byte) : decodeBytes (encodeBytes i ++ rest) = .ok (i, rest) := by
  have h : wordOfBytes (wordByte (encode i) 0) (wordByte (encode i) 1) (wordByte (encode i) 2) (wordByte (encode i) 3) =
      encode i := by cases i <;> decide
  simp [decodeBytes, encodeBytes, wordBytes, h, decodeWord_encode]

theorem Encoding.nop : Encoding.Statement .nop := ⟨rfl, by decide, decodeBytes_encodeBytes _, by decide⟩

theorem Encoding.lutInit : Encoding.Statement .lutInit := ⟨rfl, by decide, decodeBytes_encodeBytes _, by decide⟩

theorem Encoding.scale : Encoding.Statement .scale := ⟨rfl, by decide, decodeBytes_encodeBytes _, by decide⟩

theorem Encoding.dist : Encoding.Statement .dist := ⟨rfl, by decide, decodeBytes_encodeBytes _, by decide⟩

theorem Encoding.classify : Encoding.Statement .classify := ⟨rfl, by decide, decodeBytes_encodeBytes _, by decide⟩

end Sys2Proof.Laws
end

