-- ==== Sys2Proof/Tests/Slice0.lean ====
section
/-! SUPPORT. Tests on fixed values, each with the rule or test vector it is taken from, and, for every statement with hypotheses, a
state and operands that meet all of them. -/

namespace Sys2Proof.Tests

open Sys2Proof.Machine

/-! The WellFormed smoke: each check refuses an ill-formed term. -/

/-- MBZ not zero (R95). -/
theorem test_wf_refuses_mbz : wordLegal 0x00000102#32 = false := by decide

/-- OPC 5 is reserved (R96). -/
theorem test_wf_refuses_opcode : mbzZero 0x00000005#32 = true ∧ wordLegal 0x00000005#32 = false := by decide

/-- An offset that is not a multiple of 4 (R65). -/
theorem test_wf_refuses_unaligned : hostOpWf (.line (.rd 0x0E)) = false ∧ lineWf (.wr 0x11 0) = false ∧
    lineWf (.poll 0x0D 2 2) = false := by decide

/-- A 16-bit register access (R65). -/
theorem test_wf_refuses_narrow : hostOpWf (.narrow 0x10 16) = false := by decide

/-! Decoding: words written out bit by bit from R95 and R96, MBZ in bits 31:8 and OPC in bits 7:0. -/

theorem test_decode_nop : decodeWord 0b000000000000000000000000_00000000#32 = .ok .nop := by decide

theorem test_decode_lutInit : decodeWord 0b000000000000000000000000_00000001#32 = .ok .lutInit := by decide

theorem test_decode_scale : decodeWord 0b000000000000000000000000_00000010#32 = .ok .scale := by decide

theorem test_decode_dist : decodeWord 0b000000000000000000000000_00000011#32 = .ok .dist := by decide

theorem test_decode_classify : decodeWord 0b000000000000000000000000_00000100#32 = .ok .classify := by decide

/-- Reserved words are refused by name (R106). -/
theorem test_decode_reserved : decodeWord 0x00000005#32 = .error .reservedOpcode ∧
    decodeWord 0x000000FF#32 = .error .reservedOpcode ∧ decodeWord 0x00000100#32 = .error .mbzNotZero := by decide

/-- The first byte on the bus is bits 7:0 (R64). -/
theorem test_decode_bytes : decodeBytes [0x04, 0x00, 0x00, 0x00, 0xAA] = .ok (.classify, [0xAA]) ∧
    decodeBytes [0x00, 0x00, 0x00, 0x04] = .error .mbzNotZero ∧ decodeBytes [0x04, 0x00] = .error .truncated := by decide

/-- The examples of R110. -/
theorem test_encode_program : encodeProgram [.wr 0x2C 3] = [0x0000002C#32, 0x00000003#32] ∧
    encodeProgram pseudoWait = [0x0000020C#32, 0x00000002#32, 0x00000002#32] := by decide

/-- Kind 3, high bits and a truncated POLL are refused (R110). -/
theorem test_decode_program_refuses : decodeProgramBytes [0x10, 0x00, 0x00, 0x00, 0x02, 0x00, 0x00, 0x00] = .ok [.wr 0x10 2] ∧
    decodeProgram [0x00000300#32, 0] = .error .kindUndefined ∧
    decodeProgram [0x00000400#32, 0] = .error .headNotZero ∧ decodeProgram [0x0000020C#32, 2] = .error .truncated ∧
    decodeProgram [0x00000110#32, 1] = .error .readNotZero := by decide

/-! Small states. -/

/-- The parameter registers of a W×H image at 0x100, factor N, the destination at 0x1000 with room for 0x1000 bytes. -/
def parameters (w h n : Word) : Params :=
  { srcBase := 0x100, srcWidth := w, srcHeight := h, srcLen := w * h * 4, dstBase := 0x1000, dstLen := 0x1000, factor := n
    rowFirst := 0, rowLast := h, arg0 := 0, arg1 := 0 }

/-- An idle machine after reset with those registers and a memory. -/
def idle (p : Params) (m : Memory) : State := { State.reset with params := p, mem := m }

/-- A memory with pixels from address 0x100 on (R61, R108). -/
def image (ps : List Pixel) : Memory := memLine 0x100 (ps.flatMap pixelBytes) []

/-- The builds with the constants the spec gives, the LUT filled by the engine. -/
def build5 : Build := referenceBuild .five false

def build8 : Build := referenceBuild .eight false

def black : Pixel := ⟨0, 0, 0, 255⟩

def white : Pixel := ⟨255, 255, 255, 255⟩

/-- A running SCALE job of a 2×2 black and white image, with the cursor at (y, x). -/
def running (y x : Nat) (rows : Word) : State :=
  { idle (parameters 2 2 2) (image [black, white, white, black]) with
    status := { busy := true, done := false, lutReady := true, ovr := false, err := .ok }
    job := jobOf 2 (parameters 2 2 2)
    eng := .scale y x
    lut := lutFill build5
    rowsDone := rows
    race := { before := image [black, white, white, black], srcOld := [], contested := [] } }

/-- The next state of an outcome, if there is one. -/
def nextOf : Out → Option State
  | .next s => some s
  | .fault _ => none
  | .refused _ => none

/-- A command and `n` engine steps. -/
def runCommand (i : Instr) (n : Nat) (s : State) : Option State := (nextOf (exec i s)).bind fun t => nextOf (engineRun n t)

/-! The commands. -/

/-- R258: from reset, CMD = 0 leaves STATUS = 2. -/
theorem test_nop_status : (runCommand .nop 0 State.reset).map (fun u => regRead u 0x0C) = some 0x00000002#32 := by decide

/-- R250: a NOP while BUSY = 1 is dropped and sets OVR. -/
theorem test_nop_while_busy : (runCommand .nop 0 (running 0 0 0)).map (fun u => (regRead u 0x0C, u.eng)) =
    some (0x0000000D#32, .scale 0 0) := by decide

/-- R259: from reset, RUN LUT_INIT ends with STATUS = 6. -/
theorem test_lutInit_status : (runCommand .lutInit 1 State.reset).map (fun u => regRead u 0x0C) = some 0x00000006#32 := by decide

/-- R262: DIST leaves BUSY set until its step after the build has been taken. -/
theorem test_dist_steps : (runCommand .dist 1 State.reset).map (fun u => regRead u 0x0C) = some 0x00000005#32 ∧
    (runCommand .dist 2 State.reset).map (fun u => regRead u 0x0C) = some 0x00000006#32 := by decide

/-- R262: opaque black and opaque white are at distance 0xFF00 with index 0 for LUT_BITS = 5; exchanging them mirrors the codes. -/
theorem test_dist_black_white : entryDist build5 (unpack 0xFF000000) (unpack 0xFFFFFFFF) = 0xFF00 ∧
    lutIndex .five (unpack 0xFF000000) (unpack 0xFFFFFFFF) = 0 ∧
    lutIndex .five (unpack 0xFFFFFFFF) (unpack 0xFF000000) = 30 * 1024 + 30 * 32 + 30 := by decide +kernel

/-- R264, R301: CLASSIFY of column 1 of a one-column image is rejected with INVALID_DIMENSIONS. -/
theorem test_classify_rejected : (runCommand .classify 0 (idle { parameters 1 1 2 with arg0 := 1 } [])).map
    (fun u => (regRead u 0x0C, u.eng)) = some (0x00000102#32, .idle) := by decide

/-- The 3×3 anti-diagonal image of R193. -/
def antiDiagonal : Memory := image [white, white, black, white, black, white, black, white, white]

/-- R264: CLASSIFY of its centre gives RESULT0 = 0x22. -/
theorem test_classify_signature : imageSignature build5 antiDiagonal (jobOf 4 (parameters 3 3 2)) 1 1 = 0x22#8 := by
  decide +kernel

/-- R264: and RESULT1 = 0x0202. -/
theorem test_classify_patterns : patternWord (imageResolved build5 antiDiagonal (jobOf 4 (parameters 3 3 2)) 1 1) = 0x0202#16 := by
  decide +kernel

/-- R260: a 1×1 source (10, 20, 30, 40), N = 3: 36 bytes written, ROWS_DONE = 1, ERR = OK. -/
theorem test_scale_one_pixel : (runCommand .scale 3 (idle (parameters 1 1 3) (image [⟨10, 20, 30, 40⟩]))).map
    (fun u => (u.rowsDone, regRead u 0x0C, (List.range 37).map fun k => memRead u.mem (0x1000 + k))) =
    some (1, 0x00000006, (List.replicate 9 [10, 20, 30, 40]).flatten ++ [0]) := by decide +kernel

/-- R302: FACTOR = 0x102 is rejected with UNSUPPORTED_FACTOR. -/
theorem test_scale_factor_rejected : (runCommand .scale 0 (idle (parameters 1 1 0x102) [])).map (fun u => regRead u 0x0C) =
    some 0x00000202#32 := by decide

/-! The units. -/

/-- R122: the quantiser's examples. -/
theorem test_quantiser : [0, 8, -8, 9, 17, 25, 26, 128, 255, -255].map (quantLevel .five) = [0, 0, 0, 1, 1, 1, 2, 8, 15, -15] ∧
    [1, 2, 9, 128, 255].map (quantLevel .eight) = [0, 1, 4, 64, 127] := by decide

/-- R129: the similarity examples for LUT_BITS = 8 and 5. -/
theorem test_similar : similar defaultThresholds (entryDist build8) ⟨29, 29, 29, 255⟩ black = true ∧
    similar defaultThresholds (entryDist build8) ⟨30, 30, 30, 255⟩ black = false ∧ entryDist build8 ⟨30, 30, 30, 255⟩ black = 7710 ∧
    entryDist build5 ⟨29, 29, 29, 255⟩ black = 8704 := by decide +kernel

/-- R231: the rounding values, and a half rounds up. -/
theorem test_rounding : [(765 / 4 : ℚ), 255 / 4, 255 / 8, 1785 / 8, 1071 / 20, 4029 / 20, 255 / 2].map roundChannel =
    [191, 64, 32, 223, 54, 201, 128] := by decide +kernel

/-- R211: two DIAGONAL rotations, r = 0 to f and r = 2 to d, N = 2. -/
theorem test_weight_map :
    (let res : Nat → Resolved := fun r =>
      if r = 0 then ⟨.diagonal, false, some .f⟩ else if r = 2 then ⟨.diagonal, false, some .d⟩ else ⟨.none, false, none⟩
     [(0, 0), (0, 1), (1, 0), (1, 1)].map fun p => [Letter.e, .b, .d, .f, .h].map (weightMap defaultCatalogue 2 res p.1 p.2)) =
    [[1 / 2, 0, 1 / 2, 0, 0], [1, 0, 0, 0, 0], [1, 0, 0, 0, 0], [1 / 2, 0, 0, 1 / 2, 0]] := by decide +kernel

/-- R191: the table's row r = 1. -/
theorem test_rotation_table : [Letter.a, .b, .c, .d, .f, .g, .h, .i].map (rotLetter 1) = [.g, .d, .a, .h, .b, .i, .f, .c] := by
  decide

/-- R24: CFG of the four builds. -/
theorem test_cfg : [(.five, false), (.five, true), (.eight, false), (.eight, true)].map (fun p => cfgWord (referenceBuild p.1 p.2)) =
    [0x00000085, 0x00000185, 0x00000088, 0x00000188] := by decide

/-- R26: a write of 0xA to STATUS clears DONE and OVR and nothing else. -/
theorem test_status_write : regRead (regWrite 0x0C 0x0000000A
    { State.reset with status := ⟨false, true, true, true, .regionFault⟩ }) 0x0C = 0x00000404#32 := by decide

theorem checkerboard_wf : Memory.wf (image [black, white, white, black]) = true := by decide

/-- R347, U10: a second host store to a byte the job has written leaves the second value or the job's byte, never the first. -/
theorem test_second_store : let s := hostStore 0x1000 7 (running 1 0 1)
    memRead (hostStore 0x1000 9 s).mem 0x1000 = 9 ∨ memRead (hostStore 0x1000 9 s).mem 0x1000 = jobByteAt s 0x1000 := by
  intro s
  have hs : s = _ := hostStore_of_passed (s := running 1 0 1) (by decide) (by decide) (by decide) 7
  refine memRead_hostStore_of_passed ?_ ?_ ?_ ?_ 9 <;> rw [hs]
  exacts [memWrite_wf _ checkerboard_wf (by decide), rfl, rfl, rfl]

/-- R12, R211, U22: another catalogue gives another weight map. -/
theorem test_other_catalogue :
    (let c : Catalogue := { defaultCatalogue with two := { catalogue2 with corner := [⟨0, 1, 1, 2⟩] } }
     let res : Nat → Resolved := fun r => if r = 0 then ⟨.corner, false, some .f⟩ else ⟨.none, false, none⟩
     [weightMap c 2 res 0 1 .f, weightMap c 2 res 1 1 .f]) = [1 / 2, 0] ∧ buildWf build8 = true := by decide +kernel

/-- R11, R129, R173, U22: other thresholds give another similarity and another dominance. -/
theorem test_other_thresholds :
    (let t : Thresholds := { defaultThresholds with dominant := ⟨1, 1⟩, equalTolerance := ⟨1, 2⟩ }
     (similar t (fun _ _ => 127) black white, similar t (fun _ _ => 128) black white, dominance t 1 2,
       dominance defaultThresholds 1 2)) = (true, false, .dominant, .normal) := by decide

/-- R10, R125, U22: with LUMA_WEIGHT = 2 black and white are twice as far apart. -/
theorem test_other_coefficients :
    entryValue { build5 with coefficients := { defaultCoefficients with lumaWeight := ⟨2, 1⟩ } } 0 = 2 * 65280 := by decide +kernel

/-- The image FOUR of 95_test_vectors.md. -/
def four : Memory :=
  let g : Pixel := ⟨250, 250, 250, 255⟩
  image [white, white, black, black, black, black, g, white, g, white, black, white, black, g, g, black, white, g, black, g,
    g, black, g, black, white]

/-- 95_test_vectors.md, section 4, FOUR (2, 2), LUT_BITS = 5: a signature and a pattern word with no symmetry (R103, R104, R176);
AtMostFourContributors, second clause. -/
theorem test_four_classify : imageSignature build5 four (jobOf 4 (parameters 5 5 2)) 2 2 = 0x45#8 ∧
    patternWord (imageResolved build5 four (jobOf 4 (parameters 5 5 2)) 2 2) = 0x3140#16 := by decide +kernel

/-- 95_test_vectors.md, section 5: the weights of pattern word 0x3140 at sub-pixel (0, 0), in the order e, b, d, f, h: the order of the
rotations and the direction of a blend (R211). -/
theorem test_four_weights :
    (let res : Nat → Resolved := fun r =>
      if r = 1 then ⟨.steep, false, some .b⟩ else if r = 2 then ⟨.corner, false, some .d⟩
      else if r = 3 then ⟨.shallow, false, some .h⟩ else ⟨.none, false, none⟩
     patternWord res = 0x3140#16 ∧
     [(2, 0, 0), (2, 0, 1), (2, 1, 0), (2, 1, 1), (3, 0, 0), (4, 0, 0), (5, 0, 0), (6, 0, 0)].map
        (fun p => contributors.map (weightMap defaultCatalogue p.1 res p.2.1 p.2.2)) =
      [[711 / 1600, 237 / 1600, 63 / 400, 0, 1 / 4], [1 / 4, 3 / 4, 0, 0, 0], [1 / 4, 0, 0, 0, 3 / 4], [1, 0, 0, 0, 0],
        [99 / 320, 33 / 320, 27 / 80, 0, 1 / 4], [9 / 50, 3 / 50, 51 / 100, 0, 1 / 4], [63 / 800, 21 / 800, 129 / 200, 0, 1 / 4],
        [27 / 1600, 9 / 1600, 291 / 400, 0, 1 / 4]]) := by decide +kernel

/-- 95_test_vectors.md, section 6: the red channel of the ×2 block of FOUR (2, 2). -/
theorem test_four_block : [(0, 0), (0, 1), (1, 0), (1, 1)].map
    (fun p => (scaledPixel build5 four (jobOf 2 (parameters 5 5 2)) 2 2 p.1 p.2).r) = [0x8C, 0xBF, 0xBC, 0x00] := by decide +kernel

/-- 95_test_vectors.md, section 2: red, green and blue against black: where each code stands in k, and its distance (R123, R125). -/
theorem test_entry_channels : [0x79EF, 0x3FCF, 0x3DFE].map (entryValue build5) = [37981, 58423, 32973] ∧
    [(⟨255, 0, 0, 255⟩ : Pixel), ⟨0, 255, 0, 255⟩, ⟨0, 0, 255, 255⟩].map (fun p => lutIndex .five p black) =
      [0x79EF, 0x3FCF, 0x3DFE] := by decide +kernel

/-- The address of a memory event, and whether it is a write. -/
def eventPlace : MemEvent → Nat × Bool
  | .read a _ => (a, false)
  | .write a _ => (a, true)

/-- R267, R156: pixel (0, 0) of a 2×2 image reads each of the four pixels once, row by row, and then writes its block row by row. -/
theorem test_events : (nextOf (engineStep (running 0 0 0))).map (fun u => u.events.map eventPlace) =
    some [(0x100, false), (0x104, false), (0x108, false), (0x10C, false), (0x1000, true), (0x1004, true), (0x1010, true),
      (0x1014, true)] := by decide

/-- R156: a pixel inside an image has 25 reads, the only pixel of a 1×1 image one. -/
theorem test_window_reads : (windowAddrs (jobOf 2 (parameters 5 5 2)) 2 2).length = 25 ∧
    windowAddrs (jobOf 2 (parameters 1 1 2)) 0 0 = [0x100] ∧
    windowAddrs (jobOf 2 (parameters 5 5 2)) 4 0 = [0x108, 0x10C, 0x110, 0x11C, 0x120, 0x124, 0x130, 0x134, 0x138] := by decide

/-- R269: the last step of a SCALE job accesses no memory. -/
theorem test_no_events : (nextOf (engineStep { running 2 0 2 with events := [.read 0x100 black] })).map (fun u => u.events) =
    some [] := by decide

/-! Witnesses: states and operands that meet the hypotheses of the statements. -/

theorem running_invariant (y x : Nat) (rows : Word) (hc : cursorInJob (jobOf 2 (parameters 2 2 2)) y x = true)
    (hr : rows.toNat = y) : Invariant (running y x rows) where
  busy := by simp [BusyMatchesEngine, running]
  flags := fun _ => ⟨rfl, rfl⟩
  lut := by simp [LutSound, running, idle, State.reset, State.resetOf, defaultBuild, build5]
  static := by simp [StaticReady, running]
  job := by
    simp only [JobMatchesEngine, running]
    exact ⟨rfl, trivial, hc, by simpa [jobOf, parameters] using hr⟩
  memory := checkerboard_wf

/-- A running SCALE job that satisfies the invariant, with bytes it writes and bytes it does not:
ResetLeavesHostMemoryOutsideARunningJob, EngineStepFrame, EveryCommandCompletesWithinItsBound. -/
theorem test_witness_running : Invariant (running 0 1 0) ∧ (running 0 1 0).status.busy = true ∧ (running 0 1 0).job.op = 2 ∧
    inDest (running 0 1 0).job 0x1000 = true ∧ inDest (running 0 1 0).job 0x103F = true ∧
    inDest (running 0 1 0).job 0x1040 = false :=
  ⟨running_invariant 0 1 0 (by decide) (by decide), by decide, by decide, by decide, by decide, by decide⟩

/-- An idle state that satisfies the invariant: HostStoresAndLoadsWhileIdle, EveryStepKeepsTheMachineInvariant,
NoReachableStepFaults, EveryCommandCompletesWithinItsBound. -/
theorem test_witness_idle : Invariant State.reset ∧ State.reset.status.busy = false ∧ Memory.wf State.reset.mem = true ∧
    nextOf (step State.reset) = some State.reset := by
  refine ⟨⟨by simp [BusyMatchesEngine, State.reset, State.resetOf], ?_, ?_, ?_, trivial, rfl⟩, rfl, rfl, rfl⟩
  · simp [FlagsSettled, State.reset, State.resetOf]
  · simp [LutSound, State.reset, State.resetOf, defaultBuild, referenceBuild]
  · simp [StaticReady, State.reset, State.resetOf, defaultBuild, referenceBuild]

/-- HostProgramBinaryRoundTrip, second clause. -/
theorem test_witness_program : decodeProgram [0x00000210#32, 1, 2, 0x0000012C#32, 0] = .ok [.poll 0x10 1 2, .rd 0x2C] := by decide

/-- ResetSetsEveryPieceOfState: a static build. -/
theorem test_witness_static : (State.resetOf (referenceBuild .five true)).build.lutStatic = true ∧ 0 < lutSize .five := by decide

/-- CfgAndIdAreBuildConstants: a step that answers a next state. -/
theorem test_witness_step : (nextOf (step (State.reset.withFetchWord 32 0))).isSome = true := by decide

/-- RegisterAccessClasses, RegisterReadsChangeNothing: the first and the last parameter register, and the first and last unmapped offsets. -/
theorem test_witness_offsets : 0x14 ≤ (0x14#8).toNat ∧ (0x14#8).toNat % 4 = 0 ∧ (0x3C#8).toNat ≤ 0x3C ∧ (0x3C#8).toNat % 4 = 0 ∧
    0x4C ≤ (0x4C#8).toNat ∧ (0x4C#8).toNat % 4 = 0 ∧ (0xFC#8).toNat % 4 = 0 ∧ 0x4C ≤ (0xFC#8).toNat := by decide

/-- BadRegisterAccessesAreRefused: an unaligned offset, and a step that is refused. -/
theorem test_witness_refused : (0x0E#8).toNat % 4 ≠ 0 ∧
    (match step { State.reset with program := [.narrow 0x10 8] } with
      | .refused .registerAccessWidth => true
      | _ => false) = true := by decide

/-- IrqIsEnableAndDone: writes that clear DONE and IRQ_EN, and a command that starts the engine. -/
theorem test_witness_irq : (0x00000002#32).getLsbD 1 = true ∧ (nextOf (hostWrite 0x0C 2 State.reset)).isSome = true ∧
    (0x00000002#32).getLsbD 0 = false ∧ (nextOf (hostWrite 0x08 2 State.reset)).isSome = true ∧
    (nextOf (exec .lutInit State.reset)).map (fun t => t.status.busy) = some true := by decide

/-- StepRunsTheDecodedCommand: a decoding word, an idle state, and a word that does not decode. -/
theorem test_witness_decoded : decodeWord 2 = .ok .scale ∧ Instr.wf .scale = true ∧ State.reset.status.busy = false ∧
    decodeTableWord 8 4 = some .classify ∧ decodeWord 6 = .error .reservedOpcode := by decide

/-- EngineRunsAreMachineSteps: a schedule of two engine turns on a running job, which two engine steps take on. -/
theorem test_witness_schedule :
    let s : State := { running 0 0 0 with eng := .build .none, job := jobOf 1 (parameters 2 2 2), schedule := [.engine, .engine, .host] }
    s.schedule = List.replicate 2 .engine ++ [.host] ∧ s.race.srcOld = [] ∧ s.race.contested = [] ∧
      (nextOf (engineRun 2 s)).isSome = true ∧ s.status.busy = true := by decide

/-- EngineRunsAreMachineSteps: a running job with the schedule used up; CommandWhileBusyIsDropped,
NopCompletesAtAcceptance. -/
theorem test_witness_busy : (running 0 0 0).status.busy = true ∧ (running 0 0 0).schedule = [] := by decide

/-- AcceptanceLatchesClearsAndStarts: words that validation accepts, of every command, and one it rejects. -/
theorem test_witness_accept : [0, 1, 2, 3, 4].map (fun v => validate v (jobOf (v.extractLsb' 0 8) (parameters 2 2 2))) =
    [.ok, .ok, .ok, .ok, .ok] ∧ validate 2 (jobOf 2 (parameters 2 2 7)) = .unsupportedFactor := by decide

/-- IllegalWordCompletesAtOnce: both kinds of illegal word, at their boundaries. -/
theorem test_witness_illegal : (0x00000100#32).extractLsb' 8 24 ≠ 0#24 ∧ 4 < ((0x00000005#32).extractLsb' 0 8).toNat := by decide

/-- ValidationReportsTheFirstFailingCheck: every outcome of SCALE, at boundary values. -/
theorem test_witness_validate_scale :
    validate 2 (jobOf 2 { parameters 2 2 2 with srcLen := 15 }) = .invalidDimensions ∧
    validate 2 (jobOf 2 { parameters 2 2 2 with rowLast := 3 }) = .invalidDimensions ∧
    validate 2 (jobOf 2 (parameters 2 2 1)) = .unsupportedFactor ∧ validate 2 (jobOf 2 (parameters 2 2 7)) = .unsupportedFactor ∧
    validate 2 (jobOf 2 { parameters 2 2 2 with srcBase := 0xFFFFFFF1 }) = .regionFault ∧
    validate 2 (jobOf 2 { parameters 2 2 2 with srcBase := 0xFFFFFFF0 }) = .ok ∧
    validate 2 (jobOf 2 { parameters 2 2 2 with dstLen := 63 }) = .allocationFailure ∧
    validate 2 (jobOf 2 { parameters 2 2 2 with dstLen := 64 }) = .ok ∧
    validate 2 (jobOf 2 { parameters 2 2 2 with dstBase := 0xFFFFFFC1 }) = .allocationFailure ∧
    validate 2 (jobOf 2 { parameters 2 2 2 with dstBase := 0x10F }) = .regionFault ∧
    validate 2 (jobOf 2 { parameters 2 2 2 with dstBase := 0x110 }) = .ok := by decide

/-- ValidationReportsTheFirstFailingCheck: every outcome of CLASSIFY. -/
theorem test_witness_validate_classify :
    validate 4 (jobOf 4 { parameters 2 2 2 with arg1 := 2 }) = .invalidDimensions ∧
    validate 4 (jobOf 4 { parameters 2 2 2 with srcBase := 0xFFFFFFF1 }) = .regionFault ∧
    validate 4 (jobOf 4 { parameters 2 2 0 with arg0 := 1, arg1 := 1 }) = .ok ∧ validate 3 (jobOf 3 (parameters 0 0 0)) = .ok := by
  decide

/-- OverlapCheckFindsASharedByte: the earlier checks pass, with and without a shared byte. -/
theorem test_witness_overlap : [0x10F#32, 0x110#32].all (fun d =>
    let j := jobOf 2 { parameters 2 2 2 with dstBase := d }
    !badDimensions j && !badRows j && !badFactor j && !sourceWraps j && !badAllocation j) = true := by decide

/-- CompletionIsPrecise: the last step of a SCALE job. -/
theorem test_witness_completion : (running 2 0 2).status.busy = true ∧
    (nextOf (engineStep (running 2 0 2))).map (fun t => (t.status.busy, t.status.err)) = some (false, .ok) := by decide

/-- NopCompletesAtAcceptance, LutInitFillsTheLut, DistGivesDistanceAndIndex, ClassifyGivesSignatureAndPatterns: an idle state with
valid operands, the LUT not ready and the LUT ready. -/
theorem test_witness_commands : (idle (parameters 2 2 2) []).status.busy = false ∧
    validateClassify (jobOf 4 (idle (parameters 2 2 2) []).params) = .ok ∧ LutSound (idle (parameters 2 2 2) []) ∧
    LutSound { State.resetOf (referenceBuild .five true) with params := parameters 2 2 2 } :=
  ⟨rfl, by decide, fun h => absurd h (by decide), by simp [LutSound, State.resetOf, referenceBuild]⟩

/-- ScaleWritesEveryBlockOfItsRows, WholeImageScale, CancelledScaleLeavesWholeRows (m = 0 and m = 1), SplitRowRangesGiveTheSameImage
(m = 1): an idle state with a valid SCALE job of the whole image. -/
theorem test_witness_scale : let s := idle (parameters 2 2 2) (image [black, white, white, black])
    s.status.busy = false ∧ LutSound s ∧ Memory.wf s.mem = true ∧ validateScale (jobOf 2 s.params) = .ok ∧ s.params.rowFirst = 0 ∧
    s.params.rowLast = s.params.srcHeight ∧ 1 < s.params.rowLast.toNat - s.params.rowFirst.toNat ∧
    s.params.rowFirst.toNat ≤ (1#32).toNat ∧ (1#32).toNat ≤ s.params.rowLast.toNat :=
  ⟨rfl, fun h => absurd h (by decide), checkerboard_wf, by decide, rfl, rfl, by decide, by decide, by decide⟩

/-- CancelIsTestedOnlyAtRowBoundaries: the last row boundary of a job, and a build step. -/
theorem test_witness_cancel : (∀ y, (running 2 0 2).eng = .scale y 0 → y = (running 2 0 2).job.rowLast.toNat) ∧
    (nextOf (engineStep (running 2 0 2))).isSome = true ∧
    (∀ y, ({ running 0 0 0 with eng := .build .scale } : State).eng = .scale y 0 → y = 2) := by
  refine ⟨?_, by decide, ?_⟩
  · intro y h
    cases h
    rfl
  · intro y h
    cases h

/-- PixelStepWritesItsBlockAndAdvances: the first pixel of a row, and the last. -/
theorem test_witness_pixel : Invariant (running 1 0 1) ∧ Invariant (running 1 1 1) ∧ (running 1 0 1).eng = .scale 1 0 ∧
    1 < (running 1 0 1).job.rowLast.toNat ∧ (running 1 0 1).ctrl.cancel = false ∧ (running 1 0 1).race.srcOld = [] ∧
    (running 1 0 1).race.contested = [] :=
  ⟨running_invariant 1 0 1 (by decide) (by decide), running_invariant 1 1 1 (by decide) (by decide), rfl, by decide, rfl, rfl, rfl⟩

/-- EngineStepFrame, RunningJobIgnoresParameterRegisters: engine steps that answer a next state. -/
theorem test_witness_engine : (nextOf (engineStep (running 2 0 2))).isSome = true ∧
    (nextOf (engineStep { running 0 0 0 with eng := .dist, job := jobOf 3 (parameters 0 0 0) })).isSome = true := by decide

/-- LutIsReadOnlyOnceFilled: a state of the invariant with the LUT ready whose step is no reset. -/
theorem test_witness_lut : Invariant (running 2 0 2) ∧ (running 2 0 2).status.lutReady = true ∧
    (running 2 0 2).schedule.head? ≠ some .reset ∧ (nextOf (step (running 2 0 2))).isSome = true :=
  ⟨running_invariant 2 0 2 (by decide) (by decide), rfl, by decide, by decide⟩

/-- QuantiserAndIndexStayInRange, RotationsHandleTheirCorners: the ends of their ranges. -/
theorem test_witness_ranges : (-255 : Int) ≤ -255 ∧ (255 : Int) ≤ 255 ∧ (0 : Int) ≤ 0 ∧ 0 < 6 ∧ 2 < 3 ∧ 5 < 6 := by decide

/-- EntryIsTheRoundedRoot: codes in range with a non-zero entry, and a code above 2L. -/
theorem test_witness_entry : 30 ≤ 2 * lutLevels .five ∧ 31 > 2 * lutLevels .five ∧ 31 < 2 ^ lutWidth .five ∧
    entryValue build5 0 = 65280 ∧ entryValue build5 (31 * 2 ^ 10) = 0 := by decide +kernel

/-- EngineAddressesStayInTheirRegions: a valid CLASSIFY job that is no valid SCALE job. -/
theorem test_witness_classify_job : validateClassify (jobOf 4 (parameters 2 2 0)) = .ok ∧
    validateScale (jobOf 4 (parameters 2 2 0)) = .unsupportedFactor := by decide

/-- RegisterReadsChangeNothing: a POLL whose value is seen, and one whose value is not. -/
theorem test_witness_poll : regRead (running 0 0 0) 0x0C &&& 1 = 1 ∧ regRead (running 0 0 0) 0x0C &&& 2 ≠ 2 := by decide

/-- EveryEntryIsAtMost87176, SumsFitTheDatapath, WeightsAreNonNegativeAndSumToOne: the builds with the spec's constants, and their
catalogue is one. -/
theorem test_witness_builds : build5.coefficients = defaultCoefficients ∧ build8.thresholds = defaultThresholds ∧
    catalogueWf defaultCatalogue = true := by decide

/-- EngineAddressesStayInTheirRegions, DestinationLayoutIsABijection, BorderCornersAreNone (its corner clauses at the first and the last
column and row of a 2×2 image). -/
theorem test_witness_addresses : let j := jobOf 2 (parameters 2 2 2)
    validateScale j = .ok ∧ 0 < j.n.toNat ∧ 0 < j.w.toNat ∧ 0 < j.h.toNat ∧ (1 : Int) = (j.w.toNat : Int) - 1 ∧
    dstAddr j 1 1 1 1 = 0x103C ∧ 15 < j.w.toNat * j.n.toNat * (j.h.toNat * j.n.toNat) := by decide

/-- TurningThePictureTurnsTheSignature: a symmetric distance that is not constant. -/
theorem test_witness_symmetric : ∀ p q : Pixel, (if p = q then 0 else 1 : Nat) = if q = p then 0 else 1 := by
  intro p q
  by_cases h : p = q
  · simp [h]
  · simp [h, Ne.symm h]

/-- CornerMarksOneDiagonal: a corner with a DOMINANT mark on F, by the distance 0 for equal pixels and 1 for others. -/
theorem test_witness_corner :
    (let k : CornerWindow :=
       ⟨white, white, black, white, white, black, white, white, black, white, white, white, white, white, white, white⟩
     let r := cornerClassify defaultThresholds (fun p q => if p = q then 0 else 1) k
     (r.bF, r.bK, r.bJ, r.bG)) = (.dominant, .none, .none, .none) := by decide

/-- ResolvePicksTheNearerEdgeNeighbour, LineBlendsAndSlopesAreExact: a marked corner of each strength and an unmarked one, and kernels
of the shallow, the steep and the doubly sloped pattern, by the same distance. -/
theorem test_witness_resolve : sigBR (rotSignature 0 0x10) = 1 ∧ sigBR (rotSignature 1 0x08) = 2 ∧ sigBR (rotSignature 2 0x10) = 0 ∧
    (let d : Pixel → Pixel → Nat := fun p q => if p = q then 0 else 1
     let slope := fun ls : List Letter => linePattern defaultThresholds d fun l => if l ∈ ls then black else white
     (slope [.f, .g, .h], slope [.f, .h, .c], slope [.f, .g, .h, .c])) = (.shallow, .steep, .steepAndShallow) := by decide

/-- LineBlendsAndSlopesAreExact: a NORMAL corner with an L-shape of similar pixels around a dissimilar i is reduced, a DOMINANT one is
not, and neither is a NORMAL one whose i is similar (R194). -/
theorem test_line_blend :
    (let d : Pixel → Pixel → Nat := fun p q => if p = q then 0 else 7680
     let k : Kernel := fun l => if l = .e then black else white
     ((resolve defaultThresholds d 0x10 k 0).pattern, (resolve defaultThresholds d 0x20 k 0).pattern,
       (resolve defaultThresholds (fun p q => if p = q then 0 else 7679) 0x10 k 0).pattern)) =
    (.corner, .diagonal, .diagonal) := by decide

/-- PatternWordDeterminesTheWeights, AtMostFourContributors, NoMarksGiveNearestNeighbour: two kernels with the same pattern word, a
factor and a sub-pixel, and the empty signature. -/
theorem test_witness_patterns : patternWord (resolve defaultThresholds (fun _ _ => 0) 0x22 fun _ => black) =
    patternWord (resolve defaultThresholds (fun _ _ => 1) 0x22 fun _ => black) ∧ 6 ∈ supportedFactors ∧ 5 < 6 ∧
    (∀ r < 4, (resolve defaultThresholds (fun _ _ => 0) 0 (fun _ => black) r).pattern = .none) := by decide

/-- ChannelsRoundHalfUp: both ends of the range. -/
theorem test_witness_channel : (0 : ℚ) ≤ 0 ∧ (255 : ℚ) ≤ 255 := ⟨le_refl _, le_refl _⟩

/-- OutputStaysInTheContributorsRange: a kernel of one colour has every channel in its range, and the image of zeros is uniform. -/
theorem test_witness_uniform : (∀ l ∈ contributors, 255 ≤ ((fun _ => white : Kernel) l).r.toNat ∧
    ((fun _ => white : Kernel) l).r.toNat ≤ 255) ∧ ∀ x y, imagePixel [] (jobOf 2 (parameters 2 2 2)) x y = ⟨0, 0, 0, 0⟩ :=
  ⟨by decide, fun _ _ => rfl⟩

/-- OutputDependsOnlyOnTheSourceImage: two jobs with other destinations and rows on one image. -/
theorem test_witness_same_image : let m := image [black, white, white, black]
    let j := jobOf 2 (parameters 2 2 2)
    let j' := jobOf 2 { parameters 2 2 2 with dstBase := 0x2000, rowFirst := 1 }
    j.w = j'.w ∧ j.h = j'.h ∧ j.n = j'.n ∧ 0 < j.w.toNat ∧ 0 < j.h.toNat ∧
    ∀ k < j.w.toNat * j.h.toNat * 4, memRead m (j.srcBase.toNat + k) = memRead m (j'.srcBase.toNat + k) := by decide

/-- RacesGiveAllowedValues: host stores to the source of a running job, to a byte it has written, to one it has still to write and to
one it does not write, in a memory of the canonical form. -/
theorem test_witness_stores : let s := running 1 0 1
    Memory.wf s.mem = true ∧ readsSource s = true ∧ inSource s.job 0x100 = true ∧ inSource s.job 0x1000 = false ∧
    writesByte s 0x1000 = true ∧ cursorPassed s 0x1000 = true ∧ writesByte s 0x1020 = true ∧ cursorPassed s 0x1020 = false ∧
    writesByte s 0x100 = false ∧ writesByte s 0x1040 = false :=
  ⟨checkerboard_wf, by decide, by decide, by decide, by decide, by decide, by decide, by decide, by decide, by decide⟩

/-- RacesGiveAllowedValues: a running job with a byte it writes and one it does not, and a source byte the host overwrote. -/
theorem test_witness_races : let s : State := { running 0 1 0 with race := { before := [], srcOld := [(0x100, 7)], contested := [] } }
    (s.status.busy = true ∧ s.job.op = 2 ∧ inDest s.job 0x1000 = true) ∧
    ¬(s.status.busy = true ∧ s.job.op = 2 ∧ inDest s.job 0x0FFF = true) ∧ (0x100, 7) ∈ s.race.srcOld := by decide

end Sys2Proof.Tests
end

