-- ==== Sys2Proof/Proofs/Isqrt.lean ====
section
/-! The bitwise square root of the LUT (00_scope.md R16) is the library's `Nat.sqrt`. -/

namespace Sys2Proof.Machine

/-- The search keeps the root in the half-open interval [m, m + 2^k) and halves it at each bit. -/
theorem isqrtBits_eq_sqrt {k m n : Nat} (hlo : m * m ≤ n) (hhi : n < (m + 2 ^ k) * (m + 2 ^ k)) :
    isqrtBits k m n = n.sqrt := by
  induction k generalizing m with
  | zero => exact Nat.eq_sqrt.2 ⟨hlo, hhi⟩
  | succ k ih =>
    have hhalf : m + 2 ^ (k + 1) = m + 2 ^ k + 2 ^ k := by ring
    rw [isqrtBits]
    split
    next hset => exact ih hset (hhalf ▸ hhi)
    next hclear => exact ih hlo (Nat.lt_of_not_le hclear)

/-- The number of bits the search starts with is enough. -/
theorem lt_sq_two_pow_half_log2 (n : Nat) : n < 2 ^ (n.log2 / 2 + 1) * 2 ^ (n.log2 / 2 + 1) :=
  calc n < 2 ^ (n.log2 + 1) := Nat.lt_log2_self
    _ ≤ 2 ^ (n.log2 / 2 + 1 + (n.log2 / 2 + 1)) := Nat.pow_le_pow_right (by decide) (by omega)
    _ = 2 ^ (n.log2 / 2 + 1) * 2 ^ (n.log2 / 2 + 1) := Nat.pow_add ..

theorem isqrt_eq_sqrt (n : Nat) : isqrt n = n.sqrt :=
  isqrtBits_eq_sqrt (Nat.zero_le n) (by simpa only [Nat.zero_add] using lt_sq_two_pow_half_log2 n)

/-- Settles O33: the model's search computes `Nat.sqrt`, whose Galois property is the statement. -/
theorem isqrtIsTheLargestRoot : Obligations.IsqrtIsTheLargestRoot := by
  intro n m
  rw [isqrt_eq_sqrt]
  exact Nat.le_sqrt.symm

end Sys2Proof.Machine
end

