-- ==== Sys2Proof/Proofs/TurnEffects.lean ====
section
/-! What one engine step and one turn of the machine can do, each as one list of cases (45_commands.md R250 to R255, R266 to R270).
Every statement about all steps is proved from these lists. -/

namespace Sys2Proof.Machine

/-! The engine. -/

/-- Everything an engine step can do (R253, R254, R262, R264, R266, R269, R270). -/
inductive EngineEffect (s : State) : State → Prop where
  | waits (idle : s.status.busy = false) : EngineEffect s s
  | built (busy : s.status.busy = true) (n : BuildNext) (eng : s.eng = .build n) : EngineEffect s (buildStep n s)
  | measured (busy : s.status.busy = true) (eng : s.eng = .dist) : EngineEffect s (distStep s)
  | classified (busy : s.status.busy = true) (eng : s.eng = .classify) : EngineEffect s (classifyResult s)
  | finished (busy : s.status.busy = true) (y x : Nat) (eng : s.eng = .scale y x) : EngineEffect s (complete .ok (noEvents s))
  | cancelled (busy : s.status.busy = true) (y x : Nat) (eng : s.eng = .scale y x) :
      EngineEffect s (complete .cancelled { noEvents s with ctrl := { s.ctrl with cancel := false } })
  | wrote (busy : s.status.busy = true) (y x : Nat) (eng : s.eng = .scale y x) (cursor : cursorInJob s.job y x = true)
      (row : y ≠ s.job.rowLast.toNat) : EngineEffect s (pixelStep y x s)

theorem engineStep_effect {s t : State} (h : engineStep s = .next t) : EngineEffect s t := by
  rcases engineStep_next h with ⟨hidle, rfl⟩ | ⟨hbusy, ⟨n, heng, rfl⟩ | ⟨heng, rfl⟩ | ⟨heng, hstep⟩ | ⟨y, x, heng, hstep⟩⟩
  · exact .waits hidle
  · exact .built hbusy n heng
  · exact .measured hbusy heng
  · obtain ⟨-, rfl⟩ := classifyStep_next hstep
    exact .classified hbusy heng
  · obtain ⟨hcursor, ⟨-, -, rfl⟩ | ⟨-, -, -, rfl⟩ | ⟨hrow, -, rfl⟩⟩ := scaleStep_next hstep
    · exact .finished hbusy y x heng
    · exact .cancelled hbusy y x heng
    · exact .wrote hbusy y x heng hcursor hrow

/-! Commands. -/

/-- START of each command (R252). -/
def startOf : Instr → State → State
  | .nop => startNop
  | .lutInit => startLutInit
  | .scale => startScale
  | .dist => startDist
  | .classify => startClassify

/-- A command is the issue of its word with its START (R250, R252). -/
theorem exec_eq_issue_startOf (i : Instr) (s : State) : exec i s = .next (issue (encode i) (startOf i) s) := by
  cases i <;> rfl

/-- A START changes no register but STATUS, and of STATUS neither OVR nor LUT_READY; it leaves the LUT alone (R252). -/
theorem startOf_build (i : Instr) (s : State) : (startOf i s).build = s.build := by cases i <;> rfl
theorem startOf_lut (i : Instr) (s : State) : (startOf i s).lut = s.lut := by cases i <;> rfl
theorem startOf_lutReady (i : Instr) (s : State) : (startOf i s).status.lutReady = s.status.lutReady := by cases i <;> rfl

/-! What leaves the running job alone. -/

/-- `t` has the engine, the job and the LUT of `s`; of the flags only OVR can have changed, or DONE been cleared. -/
structure SameRun (s t : State) : Prop where
  build : t.build = s.build
  job : t.job = s.job
  eng : t.eng = s.eng
  lut : t.lut = s.lut
  rowsDone : t.rowsDone = s.rowsDone
  busy : t.status.busy = s.status.busy
  lutReady : t.status.lutReady = s.status.lutReady
  err : t.status.err = s.status.err
  done : s.status.done = false → t.status.done = false

/-- A register write other than to CMD clears DONE or OVR at most (R25, R26, R93). -/
theorem regWrite_status (o : BitVec 8) (v : Word) (s : State) :
    (regWrite o v s).status = s.status ∨ (regWrite o v s).status = statusWrite v s.status := by
  unfold regWrite
  split
  · exact .inl rfl
  · exact .inr rfl
  · exact .inl rfl

theorem sameRun_regWrite (o : BitVec 8) (v : Word) (s : State) : SameRun s (regWrite o v s) := by
  rcases regWrite_status o v s with h | h <;> constructor <;> simp +contextual [h, statusWrite]

theorem sameRun_hostStore (a : Nat) (b : Byte) (s : State) : SameRun s (hostStore a b s) := by
  obtain ⟨hstatus, -, -, hjob, heng, hlut, hrows, hbuild⟩ := hostStore_block a b s
  constructor <;> simp [hstatus, hjob, heng, hlut, hrows, hbuild]

/-! Turns. -/

/-- Everything a turn of the engine or of the host can do (R250 to R257). -/
inductive TurnEffect (s : State) : State → Prop where
  | engine {t : State} (effect : EngineEffect s t) : TurnEffect s (tickState t)
  | started (i : Instr) (idle : s.status.busy = false) (valid : validate (encode i) (latch (encode i) s).job = .ok) :
      TurnEffect s (startOf i (latch (encode i) s))
  | rejected (v : Word) (code : ErrCode) : TurnEffect s (complete code (latch v s))
  | stored (a : Word) (b : Byte) : TurnEffect s (tickState (hostStore a.toNat b s))
  | kept {t : State} (run : SameRun s t) (mem : t.mem = s.mem) : TurnEffect s t

/-- A change of the host's side alone: its accesses still to be made, the value it last read, the count of draws. -/
theorem TurnEffect.hostSide (s : State) (program : List HostOp) (rdata : Word) (tick : Nat) :
    TurnEffect s { s with program := program, rdata := rdata, tick := tick } :=
  .kept ⟨rfl, rfl, rfl, rfl, rfl, rfl, rfl, rfl, id⟩ rfl

/-- What a CMD write can do, for any word that validation accepts only with the START of its command (R250, R251). -/
theorem issue_effect {v : Word} {start : State → State} {s : State}
    (hstart : s.status.busy = false → validate v (latch v s).job = .ok → TurnEffect s (start (latch v s))) :
    TurnEffect s (issue v start s) := by
  rcases issue_cases v start s with ⟨-, h⟩ | ⟨hidle, hvalid, h⟩ | ⟨-, -, h⟩ <;> rw [h]
  · exact .kept ⟨rfl, rfl, rfl, rfl, rfl, rfl, rfl, rfl, id⟩ rfl
  · exact hstart hidle hvalid
  · exact .rejected v _

theorem commandWrite_effect {v : Word} {s t : State} (h : commandWrite v s = .next t) : TurnEffect s t := by
  rcases commandWrite_cases v s with ⟨i, -, hexec⟩ | ⟨e, hdecode, hissue⟩
  · rw [hexec, exec_eq_issue_startOf] at h
    cases h
    exact issue_effect fun hidle hvalid => .started i hidle hvalid
  · rw [hissue] at h
    cases h
    refine issue_effect fun _ hvalid => ?_
    rw [validate_illegal _ hdecode] at hvalid
    cases hvalid

theorem hostAccess_effect {op : HostOp} {s t : State} (h : hostAccess op s = .next t) : TurnEffect s t := by
  rcases hostAccess_next h with ⟨l, -, hline⟩ | ⟨a, b, -, rfl⟩ | ⟨a, -, rfl⟩
  · obtain ⟨-, ⟨o, v, -, hwrite⟩ | ⟨o, rfl⟩ | ⟨o, rfl⟩⟩ := hostLine_next hline
    · rcases hostWrite_cases o v s with ⟨-, hcmd⟩ | ⟨-, hreg⟩
      · exact commandWrite_effect (hcmd ▸ hwrite)
      · rw [hreg] at hwrite
        cases hwrite
        exact .kept (sameRun_regWrite o v s) (regWrite_mem o v s)
    · exact .hostSide s s.program _ s.tick
    · exact .hostSide s (.line l :: s.program) _ s.tick
  · exact .stored a b
  · exact .hostSide s s.program _ (s.tick + 1)

/-- `s` with the host's accesses and the schedule moved on to these (log entry 3). -/
def State.movedOn (s : State) (program : List HostOp) (schedule : List Turn) : State :=
  { s with program := program, schedule := schedule }

theorem hostTurn_effect {s t : State} (h : hostTurn s = .next t) : ∃ prog, TurnEffect (s.movedOn prog s.schedule) t := by
  unfold hostTurn at h
  split at h
  · cases h
    exact ⟨s.program, .hostSide s s.program s.rdata s.tick⟩
  · exact ⟨_, hostAccess_effect h⟩

theorem engineTurn_effect {s t : State} (h : engineTurn s = .next t) : TurnEffect s t := by
  obtain ⟨u, hu, rfl⟩ := tickOut_next.1 h
  exact .engine (engineStep_effect hu)

/-- Everything a step can do (R254, R255, R340): a reset where the schedule has one, else a turn from the state whose host's side has
moved on. -/
theorem step_effect {s t : State} (h : step s = .next t) :
    (s.schedule.head? = some .reset ∧ ∃ sch, t = resetTurn (s.movedOn s.program sch)) ∨
    ∃ prog sch, TurnEffect (s.movedOn prog sch) t := by
  have host (sch : List Turn) (h : hostTurn (s.movedOn s.program sch) = .next t) :
      ∃ prog sch, TurnEffect (s.movedOn prog sch) t :=
    let ⟨prog, heffect⟩ := hostTurn_effect h
    ⟨prog, sch, heffect⟩
  have engine (sch : List Turn) (h : engineTurn (s.movedOn s.program sch) = .next t) :
      ∃ prog sch, TurnEffect (s.movedOn prog sch) t :=
    ⟨s.program, sch, engineTurn_effect h⟩
  unfold step takeTurn at h
  split at h
  next sch _ => exact .inr (host sch h)
  next sch _ => exact .inr (engine sch h)
  next sch hs =>
    cases h
    exact .inl ⟨by rw [hs]; rfl, sch, rfl⟩
  next =>
    split at h
    · exact .inr (engine s.schedule h)
    · exact .inr (host s.schedule h)

end Sys2Proof.Machine
end

