-- ==== Sys2Proof/Proofs/Invariant.lean ====
section
/-! The machine's invariant holds after reset and every step keeps it (10_state.md R41, R42, R47, 45_commands.md R253, R266, R268,
60_exceptions.md R309). -/

namespace Sys2Proof.Machine

/-! Where the invariant comes from: an idle state, a running one, and a change that leaves the run alone. -/

theorem Invariant.of_idle {s : State} (hbusy : s.status.busy = false) (heng : s.eng = .idle) (hlut : LutSound s)
    (hstatic : StaticReady s) (hmem : Memory.wf s.mem = true) : Invariant s where
  busy := by simp [BusyMatchesEngine, hbusy, heng]
  flags := by simp [FlagsSettled, hbusy]
  lut := hlut
  static := hstatic
  job := by simp [JobMatchesEngine, heng]
  memory := hmem

theorem Invariant.of_running {s : State} (hbusy : s.status.busy = true) (heng : s.eng ≠ .idle) (hflags : FlagsSettled s)
    (hlut : LutSound s) (hstatic : StaticReady s) (hjob : JobMatchesEngine s) (hmem : Memory.wf s.mem = true) :
    Invariant s where
  busy := by simp [BusyMatchesEngine, hbusy, heng]
  flags := hflags
  lut := hlut
  static := hstatic
  job := hjob
  memory := hmem

theorem Invariant.of_sameRun {s t : State} (hs : Invariant s) (h : SameRun s t) (hmem : Memory.wf t.mem = true) :
    Invariant t where
  busy := by simpa only [BusyMatchesEngine, h.busy, h.eng] using hs.busy
  flags := fun hbusy =>
    let ⟨hdone, herr⟩ := hs.flags (h.busy ▸ hbusy)
    ⟨h.done hdone, h.err.trans herr⟩
  lut := by simpa only [LutSound, h.lutReady, h.lut, h.build] using hs.lut
  static := by simpa only [StaticReady, h.lutReady, h.build] using hs.static
  job := by simpa only [JobMatchesEngine, h.eng, h.job, h.lutReady, h.rowsDone] using hs.job
  memory := hmem

/-- COMPLETE leaves the block idle, whatever ran (R310). -/
theorem invariant_complete (c : ErrCode) {s : State} (hlut : LutSound s) (hstatic : StaticReady s)
    (hmem : Memory.wf s.mem = true) : Invariant (complete c s) :=
  .of_idle rfl rfl hlut hstatic hmem

/-- The running job's engine state is not IDLE (R41). -/
theorem Invariant.eng_ne_idle {s : State} (hs : Invariant s) (hbusy : s.status.busy = true) : s.eng ≠ .idle := by
  intro hidle
  have := hs.busy.2 hidle
  simp [hbusy] at this

/-! Reset. -/

theorem lutSound_resetOf (b : Build) : LutSound (State.resetOf b) := by
  intro hready
  have hstatic : b.lutStatic = true := hready
  simp [State.resetOf, hstatic]

theorem invariant_resetOf (b : Build) : Invariant (State.resetOf b) :=
  .of_idle rfl rfl (lutSound_resetOf b) id (reset_memory_wf b)

/-- Settles O57: the reset state of any build is idle, and a static LUT holds the build's entries. -/
theorem resetSatisfiesTheMachineInvariant : Obligations.ResetSatisfiesTheMachineInvariant :=
  ⟨invariant_resetOf defaultBuild, invariant_resetOf⟩

/-! The bytes a running SCALE job writes are bytes of host memory. -/

theorem cursorInJob_iff {j : Job} {y x : Nat} : cursorInJob j y x = true ↔
    ScaleValid j ∧ j.rowFirst.toNat ≤ y ∧ y ≤ j.rowLast.toNat ∧ x < j.w.toNat ∧ (y = j.rowLast.toNat → x = 0) := by
  simp only [cursorInJob, decide_eq_true_eq, validateScale_ok]

/-- A running SCALE job is one validation accepts (R309). -/
theorem Invariant.scaleValid {s : State} (hs : Invariant s) (hbusy : s.status.busy = true) (hop : s.job.op = 2) :
    ScaleValid s.job := by
  have hjob := hs.job
  cases heng : s.eng with
  | idle => exact absurd heng (hs.eng_ne_idle hbusy)
  | build next =>
    cases next with
    | scale =>
      simp only [JobMatchesEngine, heng] at hjob
      obtain ⟨-, hvalid, -⟩ := hjob
      exact validateScale_ok.1 hvalid
    | none | dist | classify => simp [JobMatchesEngine, heng, hop] at hjob
  | dist | classify => simp [JobMatchesEngine, heng, hop] at hjob
  | scale y x =>
    simp only [JobMatchesEngine, heng] at hjob
    obtain ⟨-, -, hcursor, -⟩ := hjob
    exact (cursorInJob_iff.1 hcursor).1

theorem Invariant.lt_addrSpace_of_writesByte {s : State} (hs : Invariant s) {a : Nat} (h : writesByte s a = true) :
    a < addrSpace := by
  simp only [writesByte, Bool.and_eq_true, beq_iff_eq] at h
  obtain ⟨⟨hbusy, hop⟩, hdest⟩ := h
  exact lt_addrSpace_of_inDest (hs.scaleValid hbusy hop) hdest

/-! Reset turns and host stores. -/

theorem memAfterReset_wf {s : State} (hs : Invariant s) : Memory.wf (memAfterReset s) = true := by
  unfold memAfterReset
  split
  · rename_i h
    simp only [Bool.and_eq_true, beq_iff_eq] at h
    obtain ⟨hbusy, hop⟩ := h
    refine foldl_memWrite_wf _ id _ hs.memory fun a ha => ?_
    exact lt_addrSpace_of_inDest (hs.scaleValid hbusy hop) (destAddrs_in_dest s.job a ha)
  · exact hs.memory

theorem invariant_resetTurn {s : State} (hs : Invariant s) : Invariant (resetTurn s) :=
  .of_idle rfl rfl (lutSound_resetOf s.build) id (memAfterReset_wf hs)

theorem unsettleOutput_wf {s : State} (hs : Invariant s) {m : Memory} (hm : Memory.wf m = true) :
    Memory.wf (unsettleOutput s m) = true := by
  refine foldl_memWrite_wf _ id _ hm fun a ha => ?_
  simp only [List.mem_filter, Bool.and_eq_true] at ha
  obtain ⟨-, hwrites, -⟩ := ha
  exact hs.lt_addrSpace_of_writesByte hwrites

theorem hostStore_mem_wf {s : State} (hs : Invariant s) {a : Nat} (b : Byte) (ha : a < addrSpace) :
    Memory.wf (hostStore a b s).mem = true := by
  unfold hostStore
  split
  · exact unsettleOutput_wf hs (memWrite_wf b hs.memory ha)
  · split
    · split <;> exact memWrite_wf _ hs.memory ha
    · exact memWrite_wf b hs.memory ha

theorem invariant_hostStore {s : State} (hs : Invariant s) (a : Word) (b : Byte) : Invariant (hostStore a.toNat b s) :=
  hs.of_sameRun (sameRun_hostStore a.toNat b s) (hostStore_mem_wf hs b a.isLt)

/-! Commands. -/

/-- The latched job of a command starts the engine in a state that matches it (R251, R252). -/
theorem invariant_startEngine_latch {s : State} (hs : Invariant s) {v : Word} {e : Eng} (he : e ≠ .idle)
    (hjob : JobMatchesEngine (startEngine e (latch v s))) : Invariant (startEngine e (latch v s)) :=
  .of_running rfl he (fun _ => ⟨rfl, rfl⟩) hs.lut hs.static hjob hs.memory

/-- A command that looks distances up starts at its own step when LUT_READY is set, else at BUILD (R252). -/
theorem invariant_startOrBuild_latch {s : State} (hs : Invariant s) {v : Word} {next : BuildNext} {e : Eng} (he : e ≠ .idle)
    (hready : s.status.lutReady = true → JobMatchesEngine (startEngine e (latch v s)))
    (hbuild : JobMatchesEngine (startEngine (.build next) (latch v s))) :
    Invariant (startOrBuild next e (latch v s)) := by
  unfold startOrBuild
  split
  · exact invariant_startEngine_latch hs he (hready ‹_›)
  · exact invariant_startEngine_latch hs nofun hbuild

/-- A validated SCALE job starts with its cursor at its first row (R252, R266). -/
theorem cursorInJob_start {j : Job} (h : ScaleValid j) : cursorInJob j j.rowFirst.toNat 0 = true :=
  cursorInJob_iff.2 ⟨h, le_rfl, h.rowsOrdered, h.width, fun _ => rfl⟩

theorem invariant_startOf_latch {s : State} (hs : Invariant s) (i : Instr)
    (hvalid : validate (encode i) (latch (encode i) s).job = .ok) : Invariant (startOf i (latch (encode i) s)) := by
  cases i with
  | nop => exact invariant_complete .ok hs.lut hs.static hs.memory
  | lutInit => exact invariant_startEngine_latch hs nofun (by decide : opcodeOf (encode .lutInit) = 1)
  | dist =>
    have hop : opcodeOf (encode .dist) = 3 := by decide
    exact invariant_startOrBuild_latch hs nofun (fun hready => ⟨hop, hready⟩) hop
  | classify =>
    have hop : opcodeOf (encode .classify) = 4 := by decide
    rw [validate_encode_classify] at hvalid
    exact invariant_startOrBuild_latch hs nofun (fun hready => ⟨hop, hready, hvalid⟩) ⟨hop, hvalid⟩
  | scale =>
    have hop : opcodeOf (encode .scale) = 2 := by decide
    rw [validate_encode_scale] at hvalid
    have hcursor := cursorInJob_start (validateScale_ok.1 hvalid)
    exact invariant_startOrBuild_latch hs nofun (fun hready => ⟨hop, hready, hcursor, by simp⟩) ⟨hop, hvalid, rfl⟩

/-! The engine. -/

/-- After LUT_FILL a job goes on at an engine state that matches it (R253). -/
theorem invariant_filled {s : State} (hs : Invariant s) (hbusy : s.status.busy = true) {e : Eng} (he : e ≠ .idle)
    (hjob : JobMatchesEngine { fillLut (noEvents s) with eng := e }) : Invariant { fillLut (noEvents s) with eng := e } :=
  .of_running hbusy he hs.flags (fun _ => rfl) (fun _ => rfl) hjob hs.memory

theorem invariant_buildStep {s : State} (hs : Invariant s) (hbusy : s.status.busy = true) {next : BuildNext}
    (heng : s.eng = .build next) : Invariant (buildStep next s) := by
  have hjob := hs.job
  simp only [JobMatchesEngine, heng] at hjob
  cases next with
  | none => exact invariant_complete .ok (fun _ => rfl) (fun _ => rfl) hs.memory
  | dist => exact invariant_filled hs hbusy nofun ⟨hjob, rfl⟩
  | classify =>
    obtain ⟨hop, hvalid⟩ := hjob
    exact invariant_filled hs hbusy nofun ⟨hop, rfl, hvalid⟩
  | scale =>
    obtain ⟨hop, hvalid, hrows⟩ := hjob
    have hcount : s.rowsDone.toNat = s.job.rowFirst.toNat - s.job.rowFirst.toNat := by simp [hrows]
    exact invariant_filled hs hbusy nofun ⟨hop, rfl, cursorInJob_start (validateScale_ok.1 hvalid), hcount⟩

theorem writeBlock_wf {s : State} (hm : Memory.wf s.mem = true) {y x : Nat} (hcursor : cursorInJob s.job y x = true)
    (hrow : y ≠ s.job.rowLast.toNat) : Memory.wf (writeBlock s x y) = true := by
  obtain ⟨hvalid, hfirst, hlast, hx, -⟩ := cursorInJob_iff.1 hcursor
  refine foldl_engineStore_wf _ hm fun c hc => ?_
  exact lt_addrSpace_of_inDest hvalid (blockCells_in_dest hx hfirst (by omega) c hc)

/-- The cursor moves to the next column, or past the last one to the next row, which ROWS_DONE then counts (R266, R268). -/
theorem pixelStep_cursor (y x : Nat) (s : State) :
    (x + 1 = s.job.w.toNat ∧ (pixelStep y x s).eng = .scale (y + 1) 0 ∧ (pixelStep y x s).rowsDone = s.rowsDone + 1) ∨
    (x + 1 ≠ s.job.w.toNat ∧ (pixelStep y x s).eng = .scale y (x + 1) ∧ (pixelStep y x s).rowsDone = s.rowsDone) := by
  unfold pixelStep advanceCursor
  split
  · exact .inl ⟨‹_›, rfl, rfl⟩
  · exact .inr ⟨‹_›, rfl, rfl⟩

theorem cursorInJob_nextRow {j : Job} {y x : Nat} (h : cursorInJob j y x = true) (hrow : y ≠ j.rowLast.toNat) :
    cursorInJob j (y + 1) 0 = true := by
  obtain ⟨hvalid, hfirst, hlast, -, -⟩ := cursorInJob_iff.1 h
  exact cursorInJob_iff.2 ⟨hvalid, by omega, by omega, hvalid.width, fun _ => rfl⟩

theorem cursorInJob_nextColumn {j : Job} {y x : Nat} (h : cursorInJob j y x = true) (hrow : y ≠ j.rowLast.toNat)
    (hcol : x + 1 ≠ j.w.toNat) : cursorInJob j y (x + 1) = true := by
  obtain ⟨hvalid, hfirst, hlast, hx, -⟩ := cursorInJob_iff.1 h
  exact cursorInJob_iff.2 ⟨hvalid, hfirst, hlast, by omega, fun hy => absurd hy hrow⟩

theorem pixelStep_jobMatchesEngine {s : State} {y x : Nat} (hs : JobMatchesEngine s) (heng : s.eng = .scale y x)
    (hrow : y ≠ s.job.rowLast.toNat) : JobMatchesEngine (pixelStep y x s) := by
  simp only [JobMatchesEngine, heng] at hs
  obtain ⟨hop, hready, hcursor, hrows⟩ := hs
  rcases pixelStep_cursor y x s with ⟨-, he, hr⟩ | ⟨hcol, he, hr⟩ <;>
    simp only [JobMatchesEngine, he, hr, pixelStep_job, pixelStep_status]
  · refine ⟨hop, hready, cursorInJob_nextRow hcursor hrow, ?_⟩
    obtain ⟨-, hfirst, hlast, -, -⟩ := cursorInJob_iff.1 hcursor
    have hlt : s.job.rowLast.toNat < 2 ^ 32 := s.job.rowLast.isLt
    have hone : (1 : Word).toNat = 1 := rfl
    rw [BitVec.toNat_add, hrows, hone]
    omega
  · exact ⟨hop, hready, cursorInJob_nextColumn hcursor hrow hcol, hrows⟩

theorem invariant_pixelStep {s : State} (hs : Invariant s) (hbusy : s.status.busy = true) {y x : Nat}
    (heng : s.eng = .scale y x) (hcursor : cursorInJob s.job y x = true) (hrow : y ≠ s.job.rowLast.toNat) :
    Invariant (pixelStep y x s) := by
  have he : (pixelStep y x s).eng ≠ .idle := by rcases pixelStep_cursor y x s with ⟨-, he, -⟩ | ⟨-, he, -⟩ <;> simp [he]
  refine .of_running (by simpa) he ?_ ?_ ?_ (pixelStep_jobMatchesEngine hs.job heng hrow) ?_
  · simpa [FlagsSettled] using hs.flags
  · simpa [LutSound] using hs.lut
  · simpa [StaticReady] using hs.static
  · simpa using writeBlock_wf hs.memory hcursor hrow

theorem invariant_engineEffect {s t : State} (hs : Invariant s) (h : EngineEffect s t) : Invariant t := by
  cases h with
  | waits => exact hs
  | built hbusy next heng => exact invariant_buildStep hs hbusy heng
  | measured | classified | finished | cancelled => exact invariant_complete _ hs.lut hs.static hs.memory
  | wrote hbusy y x heng hcursor hrow => exact invariant_pixelStep hs hbusy heng hcursor hrow

/-! Steps. -/

theorem invariant_movedOn {s : State} (hs : Invariant s) (prog : List HostOp) (sch : List Turn) :
    Invariant (s.movedOn prog sch) :=
  hs.of_sameRun ⟨rfl, rfl, rfl, rfl, rfl, rfl, rfl, rfl, id⟩ hs.memory

theorem invariant_tickState {s : State} (hs : Invariant s) : Invariant (tickState s) :=
  hs.of_sameRun ⟨rfl, rfl, rfl, rfl, rfl, rfl, rfl, rfl, id⟩ hs.memory

theorem invariant_turnEffect {s t : State} (hs : Invariant s) (h : TurnEffect s t) : Invariant t := by
  cases h with
  | engine heffect => exact invariant_tickState (invariant_engineEffect hs heffect)
  | started i _ hvalid => exact invariant_startOf_latch hs i hvalid
  | rejected v code => exact invariant_complete code hs.lut hs.static hs.memory
  | stored a b => exact invariant_tickState (invariant_hostStore hs a b)
  | kept hrun hmem => exact hs.of_sameRun hrun (hmem ▸ hs.memory)

/-- Settles O58: a reset turn and every effect of a turn keep the invariant. -/
theorem everyStepKeepsTheMachineInvariant : Obligations.EveryStepKeepsTheMachineInvariant := by
  intro s t hs hstep
  rcases step_effect hstep with ⟨-, sch, rfl⟩ | ⟨prog, sch, heffect⟩
  · exact invariant_resetTurn (invariant_movedOn hs s.program sch)
  · exact invariant_turnEffect (invariant_movedOn hs prog sch) heffect

end Sys2Proof.Machine
end

