-- ==== Sys2Proof/Proofs/StepFrames.lean ====
section
/-! What engine steps and turns leave unchanged, and that none of them faults (10_state.md R23, R24, R38 to R43, R45, 20_memory.md
R75, 60_exceptions.md R311). -/

namespace Sys2Proof.Machine

/-! The engine's frame. -/

/-- No engine step writes JOB, a parameter register, OVR, IRQ_EN, the build or the host's side (R40). -/
structure EngineKeeps (s t : State) : Prop where
  job : t.job = s.job
  params : t.params = s.params
  build : t.build = s.build
  ovr : t.status.ovr = s.status.ovr
  irqEn : t.ctrl.irqEn = s.ctrl.irqEn
  program : t.program = s.program
  schedule : t.schedule = s.schedule
  rdata : t.rdata = s.rdata
  race : t.race = s.race

theorem EngineEffect.keeps {s t : State} (h : EngineEffect s t) : EngineKeeps s t := by
  cases h with
  | built _ next => cases next <;> constructor <;> rfl
  | wrote => constructor <;> simp
  | waits | measured | classified | finished | cancelled => constructor <;> rfl

/-- Only a CLASSIFY or a SCALE step records memory events (R267). -/
theorem EngineEffect.events_nil {s t : State} (h : EngineEffect s t) (hscale : ∀ y x, s.eng ≠ .scale y x)
    (hclassify : s.eng ≠ .classify) (hbusy : s.status.busy = true) : t.events = [] := by
  cases h with
  | waits hidle => simp [hbusy] at hidle
  | built => exact buildStep_events _ s
  | measured => rfl
  | classified _ heng => exact absurd heng hclassify
  | finished _ y x heng | cancelled _ y x heng | wrote _ y x heng => exact absurd heng (hscale y x)

theorem engineStep_of_idle {s : State} (hidle : s.status.busy = false) : engineStep s = .next s := by
  simp [engineStep, hidle]

/-- Only a DIST or a CLASSIFY step writes the results (R38). -/
theorem EngineEffect.results {s t : State} (h : EngineEffect s t) (hdist : s.eng ≠ .dist) (hclassify : s.eng ≠ .classify) :
    t.result0 = s.result0 ∧ t.result1 = s.result1 := by
  cases h with
  | waits | finished | cancelled => exact ⟨rfl, rfl⟩
  | built _ next => exact ⟨buildStep_result0 next s, buildStep_result1 next s⟩
  | measured _ heng => exact absurd heng hdist
  | classified _ heng => exact absurd heng hclassify
  | wrote _ y x => exact ⟨pixelStep_result0 y x s, pixelStep_result1 y x s⟩

/-- Only a SCALE step counts rows or writes host memory (R39, R75). -/
theorem EngineEffect.rowsDone_mem {s t : State} (h : EngineEffect s t) (hscale : ∀ y x, s.eng ≠ .scale y x) :
    t.rowsDone = s.rowsDone ∧ t.mem = s.mem := by
  cases h with
  | waits | measured | classified => exact ⟨rfl, rfl⟩
  | built _ next => exact ⟨buildStep_rowsDone next s, buildStep_mem next s⟩
  | finished _ y x heng | cancelled _ y x heng | wrote _ y x heng => exact absurd heng (hscale y x)

/-- Only a BUILD step writes the LUT (R43). -/
theorem EngineEffect.lut {s t : State} (h : EngineEffect s t) (hbuild : ∀ next, s.eng ≠ .build next) :
    t.lut = s.lut ∧ t.status.lutReady = s.status.lutReady := by
  cases h with
  | waits | measured | classified | finished | cancelled => exact ⟨rfl, rfl⟩
  | built _ next heng => exact absurd heng (hbuild next)
  | wrote _ y x => exact ⟨pixelStep_lut y x s, congrArg Status.lutReady (pixelStep_status y x s)⟩

/-- A pixel step writes bytes of the job's rows only (R69, R75). -/
theorem memRead_writeBlock_of_outside {s : State} {y x : Nat} (hcursor : cursorInJob s.job y x = true)
    (hrow : y ≠ s.job.rowLast.toNat) {a : Nat} (ha : inDest s.job a = false) :
    memRead (writeBlock s x y) a = memRead s.mem a := by
  obtain ⟨-, hfirst, hlast, hx, -⟩ := cursorInJob_iff.1 hcursor
  refine memRead_foldl_engineStore_ne s _ s.mem fun c hc hac => ?_
  have hin := blockCells_in_dest hx hfirst (by omega) c hc
  simp [← hac, ha] at hin

theorem EngineEffect.mem_outside {s t : State} (h : EngineEffect s t) {a : Nat} (ha : inDest s.job a = false) :
    memRead t.mem a = memRead s.mem a := by
  cases h with
  | waits | measured | classified | finished | cancelled => rfl
  | built _ next => rw [buildStep_mem]
  | wrote _ y x _ hcursor hrow => rw [pixelStep_mem, memRead_writeBlock_of_outside hcursor hrow ha]

/-- Settles O30, from the list of what an engine step can do. -/
theorem engineStepFrame : Obligations.EngineStepFrame := by
  intro s t hstep
  have heffect := engineStep_effect hstep
  obtain ⟨hjob, hparams, hbuild, hovr, hirq, hprogram, hschedule, hrdata, hrace⟩ := heffect.keeps
  refine ⟨hjob, hparams, hbuild, hovr, hirq, hprogram, hschedule, hrdata, hrace, heffect.events_nil, ?_, heffect.results,
    heffect.rowsDone_mem, heffect.lut, fun a => heffect.mem_outside⟩
  intro hidle
  rw [engineStep_of_idle hidle] at hstep
  cases hstep
  rfl

/-! The LUT. -/

theorem buildStep_lutReady (next : BuildNext) (s : State) : (buildStep next s).status.lutReady = true := by
  cases next <;> rfl

/-- An engine step leaves a filled LUT as it is: a BUILD step fills in the entries it has (R43, R130). -/
theorem EngineEffect.ready_lut {s t : State} (h : EngineEffect s t) (hs : LutSound s) (hready : s.status.lutReady = true) :
    t.lut = s.lut ∧ t.status.lutReady = true := by
  cases h with
  | waits | measured | classified | finished | cancelled => exact ⟨rfl, hready⟩
  | built _ next => exact ⟨(buildStep_lut next s).trans (hs hready).symm, buildStep_lutReady next s⟩
  | wrote _ y x => exact ⟨pixelStep_lut y x s, by rw [pixelStep_status, hready]⟩

theorem TurnEffect.ready_lut {s t : State} (h : TurnEffect s t) (hs : LutSound s) (hready : s.status.lutReady = true) :
    t.lut = s.lut ∧ t.status.lutReady = true := by
  cases h with
  | engine heffect => exact heffect.ready_lut hs hready
  | started i => exact ⟨startOf_lut i _, (startOf_lutReady i _).trans hready⟩
  | rejected => exact ⟨rfl, hready⟩
  | stored a b =>
    have hrun := sameRun_hostStore a.toNat b s
    exact ⟨hrun.lut, hrun.lutReady.trans hready⟩
  | kept hrun => exact ⟨hrun.lut, hrun.lutReady.trans hready⟩

/-- Settles O32: of the effects of a turn only a BUILD step writes the LUT, and it fills in the entries a ready LUT holds. -/
theorem lutIsReadOnlyOnceFilled : Obligations.LutIsReadOnlyOnceFilled := by
  intro s t hs hready hreset hstep
  rcases step_effect hstep with ⟨hhead, -⟩ | ⟨prog, sch, heffect⟩
  · exact absurd hhead hreset
  · exact heffect.ready_lut hs.lut hready

/-! The build constants. -/

theorem TurnEffect.build {s t : State} (h : TurnEffect s t) : t.build = s.build := by
  cases h with
  | engine heffect => exact heffect.keeps.build
  | started i => exact startOf_build i _
  | rejected => rfl
  | stored a b => exact (sameRun_hostStore a.toNat b s).build
  | kept hrun => exact hrun.build

/-- No step changes the build (R21). -/
theorem step_build {s t : State} (h : step s = .next t) : t.build = s.build := by
  rcases step_effect h with ⟨-, sch, rfl⟩ | ⟨prog, sch, heffect⟩
  · rfl
  · exact heffect.build

theorem cfgWord_eq (b : Build) : cfgWord b = match b.lutBits, b.lutStatic with
    | .five, false => 0x00000085#32
    | .five, true => 0x00000185#32
    | .eight, false => 0x00000088#32
    | .eight, true => 0x00000188#32 := by
  obtain ⟨lutBits, lutStatic, -, -, -⟩ := b
  cases lutBits <;> cases lutStatic <;> simp [cfgWord, lutWidth, fracBits]

/-- Settles O6: CFG is a function of the build, which no step changes. -/
theorem cfgAndIdAreBuildConstants : Obligations.CfgAndIdAreBuildConstants :=
  ⟨cfgWord_eq, fun _ => ⟨rfl, rfl⟩,
    fun _ _ hstep => ⟨step_build hstep, congrArg cfgWord (step_build hstep)⟩,
    fun _ _ => ⟨rfl, rfl⟩⟩

/-! No fault. -/

/-! The host's accesses go on or are refused (R45). -/

theorem commandWrite_ne_fault (v : Word) (s : State) (f : Fault) : commandWrite v s ≠ .fault f := by
  rcases commandWrite_cases v s with ⟨i, -, h⟩ | ⟨e, -, h⟩ <;> rw [h]
  · rw [exec_eq_issue_startOf]
    nofun
  · nofun

theorem hostWrite_ne_fault (o : BitVec 8) (v : Word) (s : State) (f : Fault) : hostWrite o v s ≠ .fault f := by
  rcases hostWrite_cases o v s with ⟨-, h⟩ | ⟨-, h⟩ <;> rw [h]
  · exact commandWrite_ne_fault v s f
  · nofun

theorem hostLine_ne_fault (l : HostLine) (s : State) (f : Fault) : hostLine l s ≠ .fault f := by
  unfold hostLine
  split
  · cases l with
    | wr o v => exact hostWrite_ne_fault o v s f
    | rd o => nofun
    | poll o mask value => dsimp only; split <;> nofun
  · nofun

theorem hostAccess_ne_fault (op : HostOp) (s : State) (f : Fault) : hostAccess op s ≠ .fault f := by
  cases op with
  | line l => exact hostLine_ne_fault l s f
  | narrow | store | load => nofun

theorem hostTurn_ne_fault (s : State) (f : Fault) : hostTurn s ≠ .fault f := by
  unfold hostTurn
  split
  · nofun
  · exact hostAccess_ne_fault _ _ f

/-- In a state of the invariant a rule gives every engine step (R254, R266, R309). -/
theorem engineStep_ne_fault {s : State} (hs : Invariant s) (f : Fault) : engineStep s ≠ .fault f := by
  have hjob := hs.job
  unfold engineStep
  split
  · rename_i hbusy
    split
    next heng => exact absurd heng (hs.eng_ne_idle hbusy)
    next => nofun
    next => nofun
    next heng =>
      simp only [JobMatchesEngine, heng] at hjob
      obtain ⟨-, -, hvalid⟩ := hjob
      simp [classifyStep, hvalid]
    next y x heng =>
      simp only [JobMatchesEngine, heng] at hjob
      obtain ⟨-, -, hcursor, -⟩ := hjob
      rw [scaleStep, if_pos hcursor]
      split
      · nofun
      · split <;> nofun
  · nofun

theorem engineTurn_ne_fault {s : State} (hs : Invariant s) (f : Fault) : engineTurn s ≠ .fault f := by
  unfold engineTurn
  cases h : engineStep s with
  | next t => nofun
  | refused r => nofun
  | fault g => exact absurd h (engineStep_ne_fault hs g)

/-- Settles O59: the host's turn never faults, and the engine's faults are outside the invariant. -/
theorem noReachableStepFaults : Obligations.NoReachableStepFaults := by
  intro s hs f
  unfold step takeTurn
  split
  next => exact hostTurn_ne_fault _ f
  next sch _ => exact engineTurn_ne_fault (invariant_movedOn hs s.program sch) f
  next => nofun
  next =>
    split
    · exact engineTurn_ne_fault hs f
    · exact hostTurn_ne_fault s f

end Sys2Proof.Machine
end

