-- ==== Sys2Proof/Proofs/CommandTurns.lean ====
section
/-! A CMD write on the host's turn runs the command its word decodes to (45_commands.md R250, 30_encoding.md R94). -/

namespace Sys2Proof.Machine

/-- The host's turn at a CMD write is that write (R27, R250). -/
theorem hostTurn_cmd (s : State) (v : Word) (rest : List HostOp) :
    hostTurn { s with program := .line (.wr cmdOffset v) :: rest } = commandWrite v { s with program := rest } := rfl

theorem commandWrite_of_decode {v : Word} {i : Instr} (h : decodeWord v = .ok i) (s : State) :
    commandWrite v s = exec i s := by
  simp [commandWrite, h]

theorem commandWrite_of_reject {v : Word} {e : DecodeReject} (h : decodeWord v = .error e) (s : State) :
    commandWrite v s = issueIllegal v s := by
  simp [commandWrite, h]

/-- The four bytes of a word make the word (R64). -/
theorem wordOfBytes_wordByte (w : Word) : wordOfBytes (wordByte w 0) (wordByte w 1) (wordByte w 2) (wordByte w 3) = w := by
  apply BitVec.eq_of_getLsbD_eq
  intro i hi
  simp only [wordOfBytes, wordByte, BitVec.getLsbD_append, BitVec.getLsbD_extractLsb']
  grind

/-- A row of the opcode table that decodes decodes as its word (R94). -/
theorem decodeWord_of_decodeTableWord {nbits w : Nat} {i : Instr} (h : decodeTableWord nbits w = some i) :
    decodeWord (BitVec.ofNat 32 (w % 2 ^ nbits)) = .ok i := by
  simp only [decodeTableWord, wordBytes, decodeBytes, wordOfBytes_wordByte] at h
  cases hd : decodeWord (BitVec.ofNat 32 (w % 2 ^ nbits)) with
  | ok k => simpa [hd] using h
  | error e => simp [hd] at h

/-- Settles O12: each clause is the host's turn at a CMD write. -/
theorem stepRunsTheDecodedCommand : Obligations.StepRunsTheDecodedCommand := by
  refine ⟨fun s v i rest sch hv _ => ?_, fun s v i rest hidle hv => ?_, fun s nbits w i hw => ?_, fun s v e rest sch hv => ?_⟩
  · exact (hostTurn_cmd { s with schedule := sch } v rest).trans (commandWrite_of_decode hv _)
  · simp only [step, takeTurn, hidle]
    exact (hostTurn_cmd { s with schedule := [] } v rest).trans (commandWrite_of_decode hv _)
  · exact (hostTurn_cmd s _ s.program).trans (commandWrite_of_decode (decodeWord_of_decodeTableWord hw) s)
  · exact (hostTurn_cmd { s with schedule := sch } v rest).trans (commandWrite_of_reject hv _)

end Sys2Proof.Machine
end

