-- ==== Sys2Proof/Proofs/Addresses.lean ====
section
/-! Pixel addresses: the destination layout is a bijection, and every address the engine uses lies in its region (20_memory.md R60
to R63, R68, R69, 41_neighborhood_sampler.md R150, R151). -/

namespace Sys2Proof.Machine

/-! The destination layout. -/

/-- The column of a sub-pixel lies inside its output row (R63). -/
theorem outputColumn_lt {w n x sj : Nat} (hx : x < w) (hj : sj < n) : x * n + sj < w * n :=
  calc x * n + sj < x * n + n := Nat.add_lt_add_left hj _
    _ = (x + 1) * n := (Nat.succ_mul x n).symm
    _ ≤ w * n := Nat.mul_le_mul_right n hx

/-- A row number and a place in the row are the quotient and the remainder of the offset they make. -/
theorem mul_add_div_mod {q r d : Nat} (h : r < d) : (q * d + r) / d = q ∧ (q * d + r) % d = r :=
  (Nat.div_mod_unique (Nat.zero_lt_of_lt h)).2 ⟨by ring, h⟩

/-- `destPlace` finds the pixel, the sub-pixel and the byte back from the address (R63). -/
theorem destPlace_dstAddr {j : Job} {x si sj k : Nat} (y : Nat) (hx : x < j.w.toNat) (hi : si < j.n.toNat)
    (hj : sj < j.n.toNat) (hk : k < 4) : destPlace j (dstAddr j x y si sj + k) = (x, y, si, sj, k) := by
  have hoff : dstAddr j x y si sj + k - j.dstBase.toNat =
      ((y * j.n.toNat + si) * (j.w.toNat * j.n.toNat) + (x * j.n.toNat + sj)) * 4 + k := by
    unfold dstAddr
    omega
  obtain ⟨hpixel, hbyte⟩ := mul_add_div_mod
    (q := (y * j.n.toNat + si) * (j.w.toNat * j.n.toNat) + (x * j.n.toNat + sj)) hk
  obtain ⟨hrow, hcol⟩ := mul_add_div_mod (q := y * j.n.toNat + si) (outputColumn_lt hx hj)
  obtain ⟨hy, hsi⟩ := mul_add_div_mod (q := y) hi
  obtain ⟨hxq, hsj⟩ := mul_add_div_mod (q := x) hj
  simp only [destPlace, hoff, hpixel, hbyte, hrow, hcol, hy, hsi, hxq, hsj]

/-- The pixel and sub-pixel that output pixel `k` belongs to have its address (R63, R236). -/
theorem exists_dstAddr_eq {j : Job} (hn : 0 < j.n.toNat) {k : Nat}
    (hk : k < j.w.toNat * j.n.toNat * (j.h.toNat * j.n.toNat)) :
    ∃ x y si sj, x < j.w.toNat ∧ y < j.h.toNat ∧ si < j.n.toNat ∧ sj < j.n.toNat ∧
      dstAddr j x y si sj = j.dstBase.toNat + 4 * k := by
  set W := j.w.toNat * j.n.toNat with hW
  have hWpos : 0 < W := Nat.pos_of_mul_pos_right (Nat.zero_lt_of_lt hk)
  have hrow : k / W < j.h.toNat * j.n.toNat := Nat.div_lt_of_lt_mul hk
  have hcol : k % W < j.w.toNat * j.n.toNat := Nat.mod_lt k hWpos
  refine ⟨k % W / j.n.toNat, k / W / j.n.toNat, k / W % j.n.toNat, k % W % j.n.toNat,
    Nat.div_lt_of_lt_mul (Nat.mul_comm _ _ ▸ hcol), Nat.div_lt_of_lt_mul (Nat.mul_comm _ _ ▸ hrow), Nat.mod_lt _ hn,
    Nat.mod_lt _ hn, ?_⟩
  simp only [dstAddr, ← hW, Nat.add_assoc, Nat.div_add_mod']

/-- Settles O39: `destPlace` is the inverse of the layout. -/
theorem destinationLayoutIsABijection : Obligations.DestinationLayoutIsABijection := by
  refine fun j hn => ⟨fun x y si sj x' y' si' sj' hx hi hj hx' hi' hj' h => ?_, fun k hk => exists_dstAddr_eq hn hk⟩
  have hplace := destPlace_dstAddr (k := 0) y hx hi hj (by decide)
  rw [h, destPlace_dstAddr y' hx' hi' hj' (by decide)] at hplace
  simp only [Prod.mk.injEq] at hplace
  obtain ⟨rfl, rfl, rfl, rfl, -⟩ := hplace
  exact ⟨rfl, rfl, rfl, rfl⟩

/-! The regions of a validated job. -/

theorem inSource_iff {j : Job} {a : Nat} :
    inSource j a = true ↔ j.srcBase.toNat ≤ a ∧ a < j.srcBase.toNat + j.srcLen.toNat := by
  simp only [inSource, decide_eq_true_eq]

theorem inDest_iff {j : Job} {a : Nat} : inDest j a = true ↔ dstLow j ≤ a ∧ a < dstHigh j := by
  simp only [inDest, decide_eq_true_eq]

/-- The bytes a validated SCALE job writes are not bytes of its source (R69, R305). -/
theorem ScaleValid.inSource_of_inDest {j : Job} (h : ScaleValid j) {a : Nat} (ha : inDest j a = true) :
    inSource j a = false := by
  rw [inDest_iff] at ha
  have hhigh := dstHigh_le h.rowsInside
  have hlow : j.dstBase.toNat ≤ dstLow j := Nat.le_add_right _ _
  rw [Bool.eq_false_iff, ne_eq, inSource_iff]
  have := h.disjoint
  omega

theorem ScaleValid.inDest_of_inSource {j : Job} (h : ScaleValid j) {a : Nat} (ha : inSource j a = true) :
    inDest j a = false := by
  rw [Bool.eq_false_iff]
  intro hdest
  simp [h.inSource_of_inDest hdest] at ha

/-- What the sampler needs of a validated job, SCALE or CLASSIFY (R301, R303). -/
structure SourceValid (j : Job) : Prop where
  width : 0 < j.w.toNat
  height : 0 < j.h.toNat
  size : sourceBytes j = j.srcLen.toNat
  sourceFits : j.srcBase.toNat + j.srcLen.toNat ≤ addrSpace

theorem ScaleValid.source {j : Job} (h : ScaleValid j) : SourceValid j := ⟨h.width, h.height, h.size, h.sourceFits⟩

theorem ClassifyValid.source {j : Job} (h : ClassifyValid j) : SourceValid j := ⟨h.width, h.height, h.size, h.sourceFits⟩

/-- Every byte of a source pixel at clamped coordinates lies in the source region (R69, R150). -/
theorem SourceValid.inSource_srcAddr_clamp {j : Job} (h : SourceValid j) (x y : Int) {k : Nat} (hk : k < 4) :
    inSource j (srcAddr j (clamp x j.w.toNat) (clamp y j.h.toNat) + k) = true :=
  inSource_iff.2 (srcAddr_in_source (clamp_lt x h.width) (clamp_lt y h.height) h.size hk)

/-- Every byte of a block of the job's rows is one the job writes (R69). -/
theorem inDest_dstAddr {j : Job} {x y si sj k : Nat} (hx : x < j.w.toNat) (hf : j.rowFirst.toNat ≤ y)
    (hl : y < j.rowLast.toNat) (hi : si < j.n.toNat) (hj : sj < j.n.toNat) (hk : k < 4) :
    inDest j (dstAddr j x y si sj + k) = true :=
  inDest_iff.2 (dstAddr_in_dest hx hi hj hf hl hk)

/-! The recorded accesses of an engine step. -/

/-- The sampler reads the source only (R60, R156). -/
theorem inSource_of_mem_sourceReads {s : State} (h : SourceValid s.job) {x y a k : Nat} {p : Pixel} (hk : k < 4)
    (ha : .read a p ∈ sourceReads s x y) : inSource s.job (a + k) = true := by
  simp only [sourceReads, List.mem_map, MemEvent.read.injEq] at ha
  obtain ⟨_, hmem, rfl, -⟩ := ha
  obtain ⟨dx, dy, -, -, rfl⟩ := mem_windowAddrs.1 hmem
  exact h.inSource_srcAddr_clamp _ _ hk

theorem write_not_mem_sourceReads (s : State) (x y a : Nat) (p : Pixel) : .write a p ∉ sourceReads s x y := by
  simp [sourceReads]

theorem read_not_mem_blockWrites (s : State) (x y a : Nat) (p : Pixel) : .read a p ∉ blockWrites s x y := by
  simp [blockWrites]

/-- The writer writes the job's rows only (R60, R69, R232). -/
theorem inDest_of_mem_blockWrites {s : State} {x y a k : Nat} {p : Pixel} (hx : x < s.job.w.toNat)
    (hf : s.job.rowFirst.toNat ≤ y) (hl : y < s.job.rowLast.toNat) (hk : k < 4) (ha : .write a p ∈ blockWrites s x y) :
    inDest s.job (a + k) = true := by
  simp only [blockWrites, List.mem_flatMap, List.mem_map, List.mem_range, MemEvent.write.injEq] at ha
  obtain ⟨si, hi, sj, hj, rfl, -⟩ := ha
  exact inDest_dstAddr hx hf hl hi hj hk

/-- What an engine step of a running job can record: nothing, the reads of a validated CLASSIFY job, or the reads and writes of a
pixel of a validated SCALE job's rows (R267). -/
theorem engineStep_events {s t : State} (hbusy : s.status.busy = true) (h : engineStep s = .next t) :
    t.events = [] ∨
    (s.eng = .classify ∧ SourceValid s.job ∧ t.events = sourceReads s s.job.arg0.toNat s.job.arg1.toNat) ∨
    ∃ y x, ScaleValid s.job ∧ s.job.rowFirst.toNat ≤ y ∧ y < s.job.rowLast.toNat ∧ x < s.job.w.toNat ∧
      t.events = sourceReads s x y ++ blockWrites s x y := by
  by_cases hclassify : s.eng = .classify
  · have hstep : classifyStep s = .next t := by simpa [engineStep, hbusy, hclassify] using h
    obtain ⟨hvalid, rfl⟩ := classifyStep_next hstep
    exact .inr (.inl ⟨hclassify, (validateClassify_ok.1 hvalid).source, rfl⟩)
  · cases engineStep_effect h with
    | waits hidle => simp [hbusy] at hidle
    | built _ next => exact .inl (buildStep_events next s)
    | measured | finished | cancelled => exact .inl rfl
    | classified _ heng => exact absurd heng hclassify
    | wrote _ y x _ hcursor hrow =>
      obtain ⟨hvalid, hfirst, hlast, hx, -⟩ := cursorInJob_iff.1 hcursor
      exact .inr (.inr ⟨y, x, hvalid, hfirst, by omega, hx, pixelStep_events y x s⟩)

/-- Each recorded access lies in its region (R60, R68, R69). -/
theorem engineStep_events_in_regions {s t : State} (hbusy : s.status.busy = true) (h : engineStep s = .next t) {k : Nat}
    (hk : k < 4) :
    (∀ a p, .read a p ∈ t.events → inSource s.job (a + k) = true ∧
      ((∃ y x, s.eng = .scale y x) → inDest s.job (a + k) = false)) ∧
    (∀ a p, .write a p ∈ t.events → inDest s.job (a + k) = true ∧ inSource s.job (a + k) = false) := by
  rcases engineStep_events hbusy h with hev | ⟨hclassify, hvalid, hev⟩ | ⟨y, x, hvalid, hfirst, hlast, hx, hev⟩ <;> rw [hev]
  · simp
  · refine ⟨fun a p ha => ⟨inSource_of_mem_sourceReads hvalid hk ha, ?_⟩, fun a p ha => ?_⟩
    · rintro ⟨y, x, heng⟩
      simp [hclassify] at heng
    · exact absurd ha (write_not_mem_sourceReads s _ _ a p)
  · refine ⟨fun a p ha => ?_, fun a p ha => ?_⟩
    · have hread := (List.mem_append.1 ha).resolve_right (read_not_mem_blockWrites s x y a p)
      have hin := inSource_of_mem_sourceReads hvalid.source hk hread
      exact ⟨hin, fun _ => hvalid.inDest_of_inSource hin⟩
    · have hwrite := (List.mem_append.1 ha).resolve_left (write_not_mem_sourceReads s x y a p)
      have hin := inDest_of_mem_blockWrites hx hfirst hlast hk hwrite
      exact ⟨hin, hvalid.inSource_of_inDest hin⟩

/-- Settles O38: the clamp keeps the sampler in the source, and the layout keeps the blocks in the job's rows. -/
theorem engineAddressesStayInTheirRegions : Obligations.EngineAddressesStayInTheirRegions := by
  refine ⟨fun j hj x y k hk => ?_, fun j hj x y si sj k hx hf hl hi hsj hk => ?_,
    fun s t hbusy hstep k hk => engineStep_events_in_regions hbusy hstep hk⟩
  · have hvalid : SourceValid j :=
      hj.elim (fun h => (validateScale_ok.1 h).source) fun h => (validateClassify_ok.1 h).source
    obtain ⟨hlow, hhigh⟩ := inSource_iff.1 (hvalid.inSource_srcAddr_clamp x y hk)
    have hsize : j.w.toNat * j.h.toNat * 4 = j.srcLen.toNat := hvalid.size
    exact ⟨hlow, hsize ▸ hhigh, hhigh.trans_le hvalid.sourceFits⟩
  · have hvalid := validateScale_ok.1 hj
    have hin := inDest_dstAddr hx hf hl hi hsj hk
    obtain ⟨hlow, hhigh⟩ := inDest_iff.1 hin
    refine ⟨?_, ?_, lt_addrSpace_of_inDest hvalid hin, hvalid.inSource_of_inDest hin⟩
    · simpa only [dstLow, Nat.mul_assoc] using hlow
    · simpa only [dstHigh, Nat.mul_assoc] using hhigh

end Sys2Proof.Machine
end

