-- ==== Sys2Proof/Proofs/HostAccesses.lean ====
section
/-! The host's accesses: which are refused, what a store and a load of host memory do while no job runs, and what the races with a
running job can give (20_memory.md R60, R65, R67, R74 to R76, 70_reset_and_hazards.md R347). -/

namespace Sys2Proof.Machine

/-! Refused accesses. -/

theorem lineWf_wr (o : BitVec 8) (v : Word) : lineWf (.wr o v) = offsetAligned o := rfl
theorem lineWf_rd (o : BitVec 8) : lineWf (.rd o) = offsetAligned o := rfl
theorem lineWf_poll (o : BitVec 8) (m v : Word) : lineWf (.poll o m v) = offsetAligned o := rfl

theorem offsetAligned_eq_false {o : BitVec 8} (h : o.toNat % 4 ≠ 0) : offsetAligned o = false := by
  simpa [offsetAligned] using h

/-- A line at an unaligned offset has no host step (R65). -/
theorem hostLine_unaligned {l : HostLine} (h : lineWf l = false) (s : State) :
    hostLine l s = .refused .registerAccessUnaligned := by
  simp [hostLine, h]

theorem hostWrite_ne_refused (o : BitVec 8) (v : Word) (s : State) (r : Refusal) : hostWrite o v s ≠ .refused r := by
  rcases hostWrite_cases o v s with ⟨-, h⟩ | ⟨-, h⟩ <;> rw [h]
  · rcases commandWrite_cases v s with ⟨i, -, hi⟩ | ⟨e, -, he⟩
    · rw [hi, exec_eq_issue_startOf]
      nofun
    · rw [he]
      nofun
  · nofun

/-- A line at an aligned offset is not refused (R65). -/
theorem hostLine_ne_refused {l : HostLine} (hwf : lineWf l = true) (s : State) (r : Refusal) : hostLine l s ≠ .refused r := by
  unfold hostLine
  rw [if_pos hwf]
  cases l with
  | wr o v => exact hostWrite_ne_refused o v s r
  | rd o => nofun
  | poll o mask value => dsimp only; split <;> nofun

/-- Only an access the spec has no step for is refused (R65). -/
theorem hostOpWf_of_refused {op : HostOp} {s : State} {r : Refusal} (h : hostAccess op s = .refused r) :
    hostOpWf op = false := by
  cases op with
  | line l =>
    by_contra hwf
    exact hostLine_ne_refused ((Bool.not_eq_false _).mp hwf) s r h
  | narrow o n => rfl
  | store a b => cases h
  | load a => cases h

theorem hostTurn_refused {s : State} {r : Refusal} (h : hostTurn s = .refused r) :
    ∃ op rest, s.program = op :: rest ∧ hostOpWf op = false := by
  unfold hostTurn at h
  split at h
  · cases h
  · exact ⟨_, _, ‹_›, hostOpWf_of_refused h⟩

/-- The engine's turn is not refused (R254). -/
theorem engineTurn_ne_refused (s : State) (r : Refusal) : engineTurn s ≠ .refused r := by
  suffices hstep : engineStep s ≠ .refused r by
    unfold engineTurn
    cases h : engineStep s with
    | next t => nofun
    | fault f => nofun
    | refused q => simpa [tickOut, h] using hstep
  unfold engineStep
  split
  · split
    · nofun
    · nofun
    · nofun
    · unfold classifyStep
      split <;> nofun
    · unfold scaleStep
      repeat' split
      all_goals nofun
  · nofun

/-- Settles O10: a refusal of a step is the refusal of the host's next access. -/
theorem badRegisterAccessesAreRefused : Obligations.BadRegisterAccessesAreRefused := by
  refine ⟨fun s o v m ho => ?_, fun _ _ _ => rfl, fun s r h => ?_⟩
  · have hoff := offsetAligned_eq_false ho
    exact ⟨hostLine_unaligned ((lineWf_wr o v).trans hoff) s, hostLine_unaligned ((lineWf_rd o).trans hoff) s,
      hostLine_unaligned ((lineWf_poll o m v).trans hoff) s⟩
  · unfold step takeTurn at h
    split at h
    next sch _ => exact hostTurn_refused (s := s.movedOn s.program sch) h
    next => exact absurd h (engineTurn_ne_refused _ r)
    next => cases h
    next =>
      split at h
      · exact absurd h (engineTurn_ne_refused s r)
      · exact hostTurn_refused h

/-! Host memory while no job runs. -/

/-- What a byte of a canonical memory reads as after a write (R60). -/
theorem memRead_memWrite {m : Memory} (h : Memory.wf m = true) (a x : Nat) (b : Byte) :
    memRead (memWrite m a b) x = if x = a then b else memRead m x := by
  split
  next hx => exact hx ▸ memRead_memWrite_self h a b
  next hx => exact memRead_memWrite_ne m b hx

/-- The host's turn at a store or a load is that access. -/
theorem step_host_access (s : State) (op : HostOp) (rest : List HostOp) (sch : List Turn) :
    step { s with schedule := .host :: sch, program := op :: rest } = hostAccess op (s.movedOn rest sch) := rfl

/-- Settles O55: while no job runs a store is a plain write and a load a plain read. -/
theorem hostStoresAndLoadsWhileIdle : Obligations.HostStoresAndLoadsWhileIdle := by
  intro s a b rest sch hidle hmem
  have hidle' : (s.movedOn rest sch).status.busy = false := hidle
  simp only [step_host_access, hostAccess, hostStore_of_not_busy hidle', hostLoad_of_not_busy hidle']
  exact ⟨⟨_, rfl, rfl, memWrite_wf b hmem a.isLt, fun x => memRead_memWrite hmem a.toNat x b⟩, rfl⟩

/-! Draws. -/

/-- A draw by a number taken modulo the number of values gives one of them. -/
theorem getD_mod_mem {α : Type} {l : List α} (h : l ≠ []) (k : Nat) (d : α) : l.getD (k % l.length) d ∈ l := by
  have hlt : k % l.length < l.length := Nat.mod_lt _ (List.length_pos_iff.2 h)
  rw [List.getD_eq_getElem _ _ hlt]
  exact List.getElem_mem hlt

/-- The engine reads a source byte as it is or as it was before a host store (R74, U8). -/
theorem srcByte_allowed (s : State) (a : Nat) : srcByte s a = memRead s.mem a ∨ (a, srcByte s a) ∈ s.race.srcOld := by
  unfold srcByte
  split
  next => exact .inl rfl
  next olds _ =>
    have hdraw := getD_mod_mem
      (List.cons_ne_nil (memRead s.mem a) ((s.race.srcOld.filter fun c => c.1 = a).map fun c => c.2))
      (Config.sourceRace s.tick a) (memRead s.mem a)
    rw [List.length_cons, List.length_map] at hdraw
    refine (List.mem_cons.1 hdraw).imp id fun hold => ?_
    obtain ⟨⟨k, v⟩, hc, hv⟩ := List.mem_map.1 hold
    obtain ⟨hmem, hk⟩ := List.mem_filter.1 hc
    rw [← hv]
    exact of_decide_eq_true hk ▸ hmem

theorem writesByte_iff {s : State} {a : Nat} :
    writesByte s a = true ↔ s.status.busy = true ∧ s.job.op = 2 ∧ inDest s.job a = true := by
  simp only [writesByte, Bool.and_eq_true, beq_iff_eq, and_assoc]

/-- A load of a byte the running job writes gives one of three values (R75, U9). -/
theorem hostLoad_of_writesByte {s : State} {a : Nat} (h : writesByte s a = true) :
    hostLoad s a = memRead s.mem a ∨ hostLoad s a = memRead s.race.before a ∨ hostLoad s a = jobByteAt s a := by
  rw [hostLoad, if_pos h]
  simpa using getD_mod_mem (l := [memRead s.mem a, memRead s.race.before a, jobByteAt s a]) (List.cons_ne_nil _ _)
    (Config.loadRace s.tick a) (memRead s.mem a)

/-- Any other load reads memory (R60, R76). -/
theorem hostLoad_of_not_writesByte {s : State} {a : Nat} (h : writesByte s a = false) : hostLoad s a = memRead s.mem a := by
  simp [hostLoad, h]

/-! Host stores. -/

/-- A store to the source of the running job (R74, U8). -/
theorem hostStore_of_source {s : State} {a : Nat} (h : (readsSource s && inSource s.job a) = true) (b : Byte) :
    hostStore a b s =
      { s with
        mem := unsettleOutput s (memWrite s.mem a b)
        race := { s.race with srcOld := (a, memRead s.mem a) :: s.race.srcOld } } := by
  simp only [hostStore, if_pos h]

/-- A store to a byte the running job has still to write (R347). -/
theorem hostStore_of_contested {s : State} {a : Nat} (hr : (readsSource s && inSource s.job a) = false)
    (hw : writesByte s a = true) (hc : cursorPassed s a = false) (b : Byte) :
    hostStore a b s =
      { s with mem := memWrite s.mem a b, race := { s.race with contested := a :: s.race.contested } } := by
  simp only [hostStore, hr, hw, hc, if_true, Bool.false_eq_true, if_false]

/-- A store elsewhere is a plain write (R60, R346). -/
theorem hostStore_of_elsewhere {s : State} {a : Nat} (hr : (readsSource s && inSource s.job a) = false)
    (hw : writesByte s a = false) (b : Byte) : hostStore a b s = { s with mem := memWrite s.mem a b } := by
  simp only [hostStore, hr, hw, Bool.false_eq_true, if_false]

/-- A host store changes host memory and the model's race record only (R46, R346). -/
theorem hostStore_frame (a : Nat) (b : Byte) (s : State) :
    hostStore a b s = { s with mem := (hostStore a b s).mem, race := (hostStore a b s).race } := by
  unfold hostStore
  repeat' split
  all_goals rfl

/-- The bytes the job has written become free values; every other byte stays (R74, U8). -/
theorem memRead_unsettleOutput_ne {s : State} (m : Memory) {x : Nat}
    (h : ¬(writesByte s x = true ∧ cursorPassed s x = true)) : memRead (unsettleOutput s m) x = memRead m x := by
  refine memRead_foldl_memWrite_ne _ id _ m fun a ha hxa => h ?_
  obtain ⟨-, hwritten⟩ := List.mem_filter.1 ha
  rw [hxa]
  exact (Bool.and_eq_true _ _).mp hwritten

/-- A host store outside the source changes its own byte only. The byte then holds the host's value, or the job's if the job has
written it already (R347, U10). -/
theorem hostStore_outside_source {s : State} {a : Nat} (hmem : Memory.wf s.mem = true)
    (hr : (readsSource s && inSource s.job a) = false) (b : Byte) :
    (∀ x, x ≠ a → memRead (hostStore a b s).mem x = memRead s.mem x) ∧
    (memRead (hostStore a b s).mem a = b ∨
      writesByte s a = true ∧ cursorPassed s a = true ∧ memRead (hostStore a b s).mem a = jobByteAt s a) ∧
    (writesByte s a = true → cursorPassed s a = false → (hostStore a b s).race.contested = a :: s.race.contested) ∧
    (hostStore a b s).race.srcOld = s.race.srcOld := by
  cases hw : writesByte s a with
  | false =>
    rw [hostStore_of_elsewhere hr hw b]
    exact ⟨fun x hx => memRead_memWrite_ne _ b hx, .inl (memRead_memWrite_self hmem a b), nofun, rfl⟩
  | true =>
    cases hc : cursorPassed s a with
    | false =>
      rw [hostStore_of_contested hr hw hc b]
      exact ⟨fun x hx => memRead_memWrite_ne _ b hx, .inl (memRead_memWrite_self hmem a b), fun _ _ => rfl, rfl⟩
    | true =>
      have hvalue := memRead_hostStore_of_passed hmem hr hw hc b
      rw [hostStore_of_passed hr hw hc b] at hvalue ⊢
      exact ⟨fun x hx => memRead_memWrite_ne _ _ hx, hvalue.imp id fun hjob => ⟨rfl, rfl, hjob⟩, nofun, rfl⟩

/-- A host store to the source changes its own byte, and besides it bytes the job has written (R74, U8). -/
theorem hostStore_in_source {s : State} {a : Nat} (hmem : Memory.wf s.mem = true)
    (hr : (readsSource s && inSource s.job a) = true) (b : Byte) :
    (hostStore a b s).race.srcOld = (a, memRead s.mem a) :: s.race.srcOld ∧
    (∀ x, x ≠ a → ¬(writesByte s x = true ∧ cursorPassed s x = true) →
      memRead (hostStore a b s).mem x = memRead s.mem x) ∧
    (writesByte s a = false → memRead (hostStore a b s).mem a = b) := by
  rw [hostStore_of_source hr b]
  refine ⟨rfl, fun x hx hwritten => ?_, fun hw => ?_⟩
  · exact (memRead_unsettleOutput_ne _ hwritten).trans (memRead_memWrite_ne _ b hx)
  · exact (memRead_unsettleOutput_ne _ (by simp [hw])).trans (memRead_memWrite_self hmem a b)

/-- The engine's write of a byte leaves the job's byte, or what the host stored there during the job (R347, U10). -/
theorem memRead_engineStore_self (s : State) {m : Memory} (hm : Memory.wf m = true) (c : Host.Cell) :
    memRead (engineStore s m c) c.1 = jobByte s c ∨
      c.1 ∈ s.race.contested ∧ memRead (engineStore s m c) c.1 = memRead m c.1 := by
  unfold engineStore
  split
  next h =>
    simp only [Bool.and_eq_true, List.contains_iff_mem] at h
    obtain ⟨hcontested, -⟩ := h
    exact .inr ⟨hcontested, rfl⟩
  next => exact .inl (memRead_memWrite_self hm c.1 _)

/-- Settles O56: each race by its own case of `srcByte`, `hostLoad`, `hostStore` and `engineStore`. -/
theorem racesGiveAllowedValues : Obligations.RacesGiveAllowedValues := by
  refine ⟨fun s a => ⟨srcByte_allowed s a, fun h => ?_, fun h => ?_⟩,
    fun s a b => ⟨hostStore_frame a b s, fun hmem hr => ?_, fun hmem hreads hin => ?_⟩,
    fun s m c hm => ⟨memRead_engineStore_self s hm c, fun x => memRead_engineStore_ne s m c⟩⟩
  · exact hostLoad_of_writesByte (writesByte_iff.2 h)
  · exact hostLoad_of_not_writesByte (Bool.eq_false_iff.2 (mt writesByte_iff.1 h))
  · exact hostStore_outside_source hmem (by simpa using hr) b
  · exact hostStore_in_source hmem (by simp [hreads, hin]) b

end Sys2Proof.Machine
end

