-- ==== Sys2Proof/Proofs/SampleWords.lean ====
section
/-! The words of the opcode table, and the bytes that decode to a command (30_encoding.md R95, R96, R106, R110). -/

namespace Sys2Proof.Machine

/-- A word is its MBZ field above its OPC field (R95). -/
theorem toNat_eq_fields (v : Word) : v.toNat = 256 * (v.extractLsb' 8 24).toNat + (v.extractLsb' 0 8).toNat := by
  have hv := v.isLt
  simp only [BitVec.extractLsb'_toNat, Nat.shiftRight_eq_div_pow]
  omega

/-- Only a command's own word decodes to it (R96). -/
theorem eq_encode_of_decodeWord {v : Word} {i : Instr} (h : decodeWord v = .ok i) : v = encode i := by
  unfold decodeWord at h
  split at h
  next hmbz =>
    have hhigh : (v.extractLsb' 8 24).toNat = 0 := by
      rw [beq_iff_eq.mp hmbz]
      rfl
    apply BitVec.eq_of_toNat_eq
    rw [toNat_eq_fields v, hhigh]
    split at h <;> cases h
    all_goals
      rename_i hopc
      rw [hopc]
      rfl
  next => cases h

theorem decodeWord_eq_ok_iff {v : Word} {i : Instr} : decodeWord v = .ok i ↔ v = encode i :=
  ⟨eq_encode_of_decodeWord, fun h => h ▸ decodeWord_encode i⟩

/-- Byte `k` of the word made of four bytes is the `k`-th of them (R64). -/
theorem wordBytes_wordOfBytes (b0 b1 b2 b3 : Byte) : wordBytes (wordOfBytes b0 b1 b2 b3) = [b0, b1, b2, b3] := by
  simp only [wordBytes, List.cons.injEq, and_true]
  refine ⟨?_, ?_, ?_, ?_⟩ <;>
  · apply BitVec.eq_of_getLsbD_eq
    intro i hi
    simp only [wordByte, wordOfBytes, BitVec.getLsbD_extractLsb', BitVec.getLsbD_append]
    grind

/-- Four bytes decode to a command exactly when they are its bytes, and what follows them is left (R64, R96). -/
theorem decodeBytes_cons_eq_ok_iff {b0 b1 b2 b3 : Byte} {rest : List Byte} {i : Instr} :
    decodeBytes (b0 :: b1 :: b2 :: b3 :: rest) = .ok (i, rest) ↔ [b0, b1, b2, b3] = encodeBytes i := by
  have hword : decodeBytes (b0 :: b1 :: b2 :: b3 :: rest) = .ok (i, rest) ↔ decodeWord (wordOfBytes b0 b1 b2 b3) = .ok i := by
    rw [decodeBytes]
    cases decodeWord (wordOfBytes b0 b1 b2 b3) <;> simp
  rw [hword, decodeWord_eq_ok_iff, encodeBytes, ← wordBytes_wordOfBytes b0 b1 b2 b3]
  refine ⟨congrArg wordBytes, fun h => ?_⟩
  simp only [wordBytes, List.cons.injEq, and_true] at h
  obtain ⟨h0, h1, h2, h3⟩ := h
  rw [← wordOfBytes_wordByte (encode i), ← h0, ← h1, ← h2, ← h3, wordOfBytes_wordByte]

/-- Settles O3: the rows of the table and the lines of R110 are computed; the bytes of SCALE are those of its word. -/
theorem sampleWordsDecode : Obligations.SampleWordsDecode := by
  refine ⟨by decide, by decide, by decide, by decide, by decide, by decide, by decide, by decide, by decide, by decide,
    fun b0 b1 b2 b3 rest => ?_⟩
  have hscale : encodeBytes .scale = [2, 0, 0, 0] := by decide
  rw [decodeBytes_cons_eq_ok_iff, hscale]
  simp only [List.cons.injEq, and_true]

end Sys2Proof.Machine
end

