-- ==== Sys2Proof/Proofs/ScaleRun.lean ====
section
/-! A SCALE job that no host access disturbs, from its CMD write to its completion: the state it ends in, with host memory as a
function of the build, the job and the memory it starts from (40_color_distance_lut.md R127, R130, 44_output_combiner.md R232,
45_commands.md R252, R253, R266 to R269). -/

namespace Sys2Proof.Machine

/-! The filled LUT gives the distance of the entry function. -/

theorem channelDiff_natAbs_le (p q : Byte) : (channelDiff p q).natAbs ≤ 255 := by
  have hp := p.isLt
  have hq := q.isLt
  unfold channelDiff
  omega

/-- A level is at most L in size (R122). -/
theorem quantLevel_natAbs_le (b : LutBits) {d : Int} (hd : d.natAbs ≤ 255) : (quantLevel b d).natAbs ≤ lutLevels b := by
  have hlevel : (2 * d.natAbs * lutLevels b + 255) / 510 ≤ lutLevels b := by
    cases b <;> simp only [lutLevels, lutWidth] <;> omega
  have hsign : d.sign.natAbs ≤ 1 := by
    rcases Int.sign_trichotomy d with h | h | h <;> simp [h]
  rw [quantLevel, Int.natAbs_mul, Int.natAbs_natCast]
  calc d.sign.natAbs * ((2 * d.natAbs * lutLevels b + 255) / 510) ≤ 1 * lutLevels b := Nat.mul_le_mul hsign hlevel
    _ = lutLevels b := Nat.one_mul _

/-- A channel code fits its LUT_BITS bits (R99, R122). -/
theorem channelCode_lt (b : LutBits) (p q : Byte) : channelCode b (channelDiff p q) < 2 ^ lutWidth b := by
  have hlevel := quantLevel_natAbs_le b (channelDiff_natAbs_le p q)
  have hwidth : 2 * lutLevels b < 2 ^ lutWidth b := by cases b <;> decide
  unfold channelCode
  omega

/-- The index of a pixel pair is one of the LUT's (R123). -/
theorem lutIndex_lt (b : LutBits) (p q : Pixel) : lutIndex b p q < lutSize b := by
  have hr := channelCode_lt b p.r q.r
  have hg := channelCode_lt b p.g q.g
  have hb := channelCode_lt b p.b q.b
  unfold lutIndex packIndex lutSize
  cases b <;> simp only [lutWidth] at * <;> omega

/-- A lookup in the filled LUT is the entry function (R127, R130). -/
theorem lutDist_lutFill (b : Build) : lutDist b.lutBits (lutFill b) = entryDist b := by
  funext p q
  rw [lutDist, lutRead_lutFill (lutIndex_lt b.lutBits p q), entryDist]

/-! A block without a race. -/

/-- A validated SCALE job that runs with its LUT filled, no cancel requested, and no race with the host. -/
structure QuietScale (s : State) : Prop where
  valid : ScaleValid s.job
  busy : s.status.busy = true
  cancel : s.ctrl.cancel = false
  lut : s.lut = lutFill s.build
  srcOld : s.race.srcOld = []
  contested : s.race.contested = []

/-- The sub-pixel the engine computes is the one the image in memory gives (R211, R230). -/
theorem QuietScale.blockPixel_eq {s : State} (h : QuietScale s) (x y si sj : Nat) :
    blockPixel s x y si sj = scaledPixel s.build s.mem s.job x y si sj := by
  have hdist : distOf s = entryDist s.build := by rw [distOf, h.lut, lutDist_lutFill]
  simp only [blockPixel, scaledPixel, resolvedAt, imageResolved, signatureAt, imageSignature, kernelAt, hdist,
    sample_eq_imageWindow h.srcOld]

/-- The bytes of the block of source pixel (x, y) of the image `m` holds, each at its address (R63, R232). -/
def scaledCells (b : Build) (j : Job) (m : Memory) (y x : Nat) : List Host.Cell :=
  (List.range j.n.toNat).flatMap fun si => (List.range j.n.toNat).flatMap fun sj =>
    pixelCells (dstAddr j x y si sj) (scaledPixel b m j x y si sj)

/-- Memory after the block of source pixel (x, y) (R232). -/
def scaleBlock (b : Build) (j : Job) (y : Nat) (m : Memory) (x : Nat) : Memory := memWriteAll m (scaledCells b j m y x)

/-- Memory after the blocks of the `k` pixels of row `y` from column `x` on (R266). -/
def scaleColumns (b : Build) (j : Job) (y x k : Nat) (m : Memory) : Memory := (List.range' x k).foldl (scaleBlock b j y) m

/-- Memory after the blocks of the `n` source rows from row `y` on (R266). -/
def scaleRows (b : Build) (j : Job) (y n : Nat) (m : Memory) : Memory :=
  (List.range' y n).foldl (fun m y => scaleColumns b j y 0 j.w.toNat m) m

theorem scaleColumns_succ (b : Build) (j : Job) (y x k : Nat) (m : Memory) :
    scaleColumns b j y x (k + 1) m = scaleColumns b j y (x + 1) k (scaleBlock b j y m x) := rfl

@[simp] theorem scaleRows_zero (b : Build) (j : Job) (y : Nat) (m : Memory) : scaleRows b j y 0 m = m := rfl

theorem scaleRows_succ (b : Build) (j : Job) (y n : Nat) (m : Memory) :
    scaleRows b j y (n + 1) m = scaleRows b j (y + 1) n (scaleColumns b j y 0 j.w.toNat m) := rfl

/-- Scaling rows and then the rows after them is scaling them all (R81, R332). -/
theorem scaleRows_add (b : Build) (j : Job) (y n k : Nat) (m : Memory) :
    scaleRows b j y (n + k) m = scaleRows b j (y + n) k (scaleRows b j y n m) := by
  rw [scaleRows, ← List.range'_append_1, List.foldl_append]
  rfl

/-- `j` with other rows to scale. -/
def Job.withRows (j : Job) (first last : Word) : Job := { j with rowFirst := first, rowLast := last }

/-- What the rows of the image become does not depend on which rows the job scales (R81). -/
theorem scaleRows_withRows (b : Build) (j : Job) (first last : Word) (y n : Nat) (m : Memory) :
    scaleRows b (j.withRows first last) y n m = scaleRows b j y n m := rfl

/-- The engine's block is the block of the image in memory (R232). -/
theorem QuietScale.writeBlock_eq {s : State} (h : QuietScale s) (y x : Nat) :
    writeBlock s x y = scaleBlock s.build s.job y s.mem x := by
  have hstore : engineStore s = fun m c => memWrite m c.1 c.2 := by
    funext m c
    simp [engineStore, jobByte, h.srcOld, h.contested]
  have hcells : blockCells s x y = scaledCells s.build s.job s.mem y x := by
    simp only [blockCells, scaledCells, h.blockPixel_eq]
  rw [writeBlock, hstore, hcells, scaleBlock, memWriteAll]

/-! Engine steps. -/

theorem engineRun_succ {n : Nat} {s t : State} (h : engineStep s = .next t) : engineRun (n + 1) s = engineRun n t := by
  rw [engineRun, h]

/-- A run goes on from where a shorter one ends (R254). -/
theorem engineRun_add {n k : Nat} {s t : State} (h : engineRun n s = .next t) : engineRun (n + k) s = engineRun k t := by
  induction n generalizing s with
  | zero =>
    cases h
    rw [Nat.zero_add]
  | succ n ih =>
    rw [Nat.add_right_comm]
    cases hstep : engineStep s with
    | next u =>
      rw [engineRun_succ hstep] at h ⊢
      exact ih h
    | fault f => simp [engineRun, hstep] at h
    | refused r => simp [engineRun, hstep] at h

/-- `s` further on in its SCALE job: the cursor at source pixel (x, y), with these rows done, this memory, and these events. -/
def State.atPixel (s : State) (y x : Nat) (rows : Word) (m : Memory) (ev : List MemEvent) : State :=
  { s with eng := .scale y x, rowsDone := rows, mem := m, events := ev }

theorem State.eq_atPixel {s : State} {y x : Nat} (heng : s.eng = .scale y x) :
    s = s.atPixel y x s.rowsDone s.mem s.events := by
  rw [State.atPixel, ← heng]

theorem QuietScale.atPixel_quiet {s : State} (h : QuietScale s) (y x : Nat) (rows : Word) (m : Memory) (ev : List MemEvent) :
    QuietScale (s.atPixel y x rows m ev) :=
  ⟨h.valid, h.busy, h.cancel, h.lut, h.srcOld, h.contested⟩

theorem QuietScale.pixelStep_eq {s : State} (h : QuietScale s) (y x : Nat) :
    pixelStep y x s =
      if x + 1 = s.job.w.toNat then
        s.atPixel (y + 1) 0 (s.rowsDone + 1) (scaleBlock s.build s.job y s.mem x) (pixelEvents s x y)
      else s.atPixel y (x + 1) s.rowsDone (scaleBlock s.build s.job y s.mem x) (pixelEvents s x y) := by
  rw [pixelStep, advanceCursor, h.writeBlock_eq]
  rfl

/-- At a pixel of the job's rows the engine writes the pixel's block (R266). -/
theorem QuietScale.engineStep_pixel {s : State} (h : QuietScale s) {y x : Nat} (heng : s.eng = .scale y x)
    (hf : s.job.rowFirst.toNat ≤ y) (hl : y < s.job.rowLast.toNat) (hx : x < s.job.w.toNat) :
    engineStep s = .next (pixelStep y x s) := by
  have hcursor : cursorInJob s.job y x = true := cursorInJob_iff.2 ⟨h.valid, hf, hl.le, hx, fun he => absurd he hl.ne⟩
  simp [engineStep, h.busy, heng, scaleStep, hcursor, h.cancel, hl.ne]

/-- After the last row the engine completes the job (R269). -/
theorem QuietScale.engineStep_end {s : State} (h : QuietScale s) (heng : s.eng = .scale s.job.rowLast.toNat 0) :
    engineStep s = .next (complete .ok (noEvents s)) := by
  have hcursor : cursorInJob s.job s.job.rowLast.toNat 0 = true :=
    cursorInJob_iff.2 ⟨h.valid, h.valid.rowsOrdered, le_rfl, h.valid.width, fun _ => rfl⟩
  simp [engineStep, h.busy, heng, scaleStep, hcursor]

/-- The rest of a row, from column `x` on (R266, R268). -/
theorem QuietScale.run_columns {s : State} (h : QuietScale s) {y x k : Nat} (heng : s.eng = .scale y x)
    (hf : s.job.rowFirst.toNat ≤ y) (hl : y < s.job.rowLast.toNat) (hx : x + (k + 1) = s.job.w.toNat) :
    ∃ ev, engineRun (k + 1) s =
      .next (s.atPixel (y + 1) 0 (s.rowsDone + 1) (scaleColumns s.build s.job y x (k + 1) s.mem) ev) := by
  induction k generalizing s x with
  | zero =>
    have hstep := h.engineStep_pixel heng hf hl (by omega)
    rw [h.pixelStep_eq, if_pos hx] at hstep
    exact ⟨_, engineRun_succ hstep⟩
  | succ k ih =>
    have hstep := h.engineStep_pixel heng hf hl (by omega)
    rw [h.pixelStep_eq, if_neg (by omega)] at hstep
    have hrest : x + 1 + (k + 1) = s.job.w.toNat := by omega
    rw [engineRun_succ hstep, scaleColumns_succ]
    exact ih (h.atPixel_quiet _ _ _ _ _) rfl hf hl hrest

/-- `n` whole rows, from row `y` on (R266, R268). -/
theorem QuietScale.run_rows {s : State} (h : QuietScale s) {y n : Nat} (heng : s.eng = .scale y 0)
    (hf : s.job.rowFirst.toNat ≤ y) (hl : y + n ≤ s.job.rowLast.toNat) :
    ∃ ev, engineRun (n * s.job.w.toNat) s =
      .next (s.atPixel (y + n) 0 (s.rowsDone + BitVec.ofNat 32 n) (scaleRows s.build s.job y n s.mem) ev) := by
  induction n generalizing s y with
  | zero => exact ⟨s.events, by simpa [engineRun] using State.eq_atPixel heng⟩
  | succ n ih =>
    obtain ⟨k, hk⟩ : ∃ k, 0 + (k + 1) = s.job.w.toNat := ⟨s.job.w.toNat - 1, by have := h.valid.width; omega⟩
    obtain ⟨ev, hrow⟩ := h.run_columns heng hf (by omega) hk
    rw [← Nat.zero_add (k + 1), hk] at hrow
    obtain ⟨ev', hrest⟩ := ih (h.atPixel_quiet _ _ _ _ ev) rfl (Nat.le_succ_of_le hf)
      (show y + 1 + n ≤ s.job.rowLast.toNat by omega)
    have hsteps : (n + 1) * s.job.w.toNat = s.job.w.toNat + n * s.job.w.toNat := by ring
    have hnext : y + (n + 1) = y + 1 + n := by omega
    have hcount : s.rowsDone + BitVec.ofNat 32 (n + 1) = s.rowsDone + 1 + BitVec.ofNat 32 n := by
      rw [BitVec.ofNat_add, BitVec.add_comm (BitVec.ofNat 32 n), ← BitVec.add_assoc]
      rfl
    exact ⟨ev', by rw [hsteps, engineRun_add hrow, hnext, hcount, scaleRows_succ]; exact hrest⟩

/-- The whole job, from its first row to its completion (R266, R269). -/
theorem QuietScale.run_job {s : State} (h : QuietScale s) (heng : s.eng = .scale s.job.rowFirst.toNat 0) {n : Nat}
    (hn : s.job.rowFirst.toNat + n = s.job.rowLast.toNat) :
    engineRun (n * s.job.w.toNat + 1) s =
      .next (complete .ok (s.atPixel s.job.rowLast.toNat 0 (s.rowsDone + BitVec.ofNat 32 n)
        (scaleRows s.build s.job s.job.rowFirst.toNat n s.mem) [])) := by
  obtain ⟨ev, hrows⟩ := h.run_rows heng le_rfl hn.le
  rw [hn] at hrows
  exact (engineRun_add hrows).trans (engineRun_succ ((h.atPixel_quiet _ _ _ _ ev).engineStep_end rfl))

/-! From the CMD write to completion. -/

/-- `s` with the SCALE job of its registers started and its LUT filled, and these events (R251 to R253). -/
def State.scaleStarted (s : State) (ev : List MemEvent) : State :=
  { s with
    job := jobOf 2 s.params
    status := { busy := true, done := false, lutReady := true, ovr := s.status.ovr, err := .ok }
    ctrl := { s.ctrl with cancel := false }
    rowsDone := 0
    eng := .scale s.params.rowFirst.toNat 0
    lut := lutFill s.build
    race := { before := s.mem, srcOld := [], contested := [] }
    events := ev }

/-- `s` with the SCALE job of its registers done (R269). -/
def State.scaleDone (s : State) : State :=
  let j := jobOf 2 s.params
  let rows := j.rowLast.toNat - j.rowFirst.toNat
  { s with
    job := j
    status := { busy := false, done := true, lutReady := true, ovr := s.status.ovr, err := .ok }
    ctrl := { s.ctrl with cancel := false }
    rowsDone := BitVec.ofNat 32 rows
    eng := .idle
    lut := lutFill s.build
    mem := scaleRows s.build j j.rowFirst.toNat rows s.mem
    race := { before := s.mem, srcOld := [], contested := [] }
    events := [] }

theorem quietScale_scaleStarted {s : State} (hvalid : ScaleValid (jobOf 2 s.params)) (ev : List MemEvent) :
    QuietScale (s.scaleStarted ev) :=
  ⟨hvalid, rfl, rfl, rfl, rfl, rfl⟩

/-- An idle block that accepts SCALE starts it (R250 to R252). -/
theorem exec_scale_of_valid {s : State} (hidle : s.status.busy = false) (hvalid : validateScale (jobOf 2 s.params) = .ok) :
    exec .scale s = .next (startScale (latch (encode .scale) s)) := by
  have hop : opcodeOf (encode .scale) = 2 := by decide
  have hok : validate (encode .scale) (latch (encode .scale) s).job = .ok := by
    rw [validate_encode_scale, latch_job, hop, hvalid]
  rw [exec_eq_issue_startOf, issue, hidle]
  exact congrArg _ (accept_ok startScale hok)

/-- With or without a BUILD step the job reaches its first pixel with the LUT filled (R252, R253). -/
theorem scale_starts {s : State} (hlut : LutSound s) : ∃ ev,
    engineRun (if s.status.lutReady then 0 else 1) (startScale (latch (encode .scale) s)) =
      .next (s.scaleStarted ev) := by
  have hop : opcodeOf (encode .scale) = 2 := by decide
  cases hready : s.status.lutReady with
  | true =>
    refine ⟨s.events, ?_⟩
    have hstart : startScale (latch (encode .scale) s) = s.scaleStarted s.events := by
      simp [startScale, startOrBuild, startEngine, latch, State.scaleStarted, statusAccept, hready, hop, ← hlut hready, jobOf]
    exact congrArg Host.Outcome.next hstart
  | false =>
    refine ⟨[], ?_⟩
    have hstart : startScale (latch (encode .scale) s) = startEngine (.build .scale) (latch (encode .scale) s) := by
      simp [startScale, startOrBuild, hready]
    rw [hstart]
    simp [engineRun, engineStep, buildStep, fillLut, noEvents, startEngine, latch, State.scaleStarted, statusAccept, hop, jobOf]

/-- A SCALE that validation accepts, with no host access while it runs, ends in `scaleDone` (R260, R266, R268, R269). -/
theorem scale_completes {s : State} (hidle : s.status.busy = false) (hlut : LutSound s)
    (hvalid : ScaleValid (jobOf 2 s.params)) :
    ∃ t, exec .scale s = .next t ∧
      engineRun ((if s.status.lutReady then 0 else 1) +
        ((s.params.rowLast.toNat - s.params.rowFirst.toNat) * s.params.srcWidth.toNat + 1)) t = .next s.scaleDone := by
  refine ⟨_, exec_scale_of_valid hidle (validateScale_ok.2 hvalid), ?_⟩
  obtain ⟨ev, hstart⟩ := scale_starts hlut
  have hordered : s.params.rowFirst.toNat ≤ s.params.rowLast.toNat := hvalid.rowsOrdered
  have hrun := (quietScale_scaleStarted hvalid ev).run_job rfl (Nat.add_sub_cancel' hordered)
  have hcount (n : Nat) : (0 : Word) + BitVec.ofNat 32 n = BitVec.ofNat 32 n := BitVec.zero_add _
  refine (engineRun_add hstart).trans (hrun.trans ?_)
  simp only [State.scaleStarted, State.scaleDone, State.atPixel, complete, statusComplete, hcount]

/-! Two adjacent row ranges. -/

/-- Any rows of the image make a valid job (R301). -/
theorem ScaleValid.withRows {j : Job} (h : ScaleValid j) {first last : Word} (hordered : first.toNat ≤ last.toNat)
    (hinside : last.toNat ≤ j.h.toNat) : ScaleValid (j.withRows first last) :=
  { h with rowsOrdered := hordered, rowsInside := hinside }

/-- A job of rows [first, m), then a job of rows [m, last): the blocks of rows [first, last) (R81, R332). -/
theorem scaleRows_split (b : Build) (j : Job) {first m last : Word} (hfirst : first.toNat ≤ m.toNat)
    (hlast : m.toNat ≤ last.toNat) (mem : Memory) :
    scaleRows b (j.withRows m last) m.toNat (last.toNat - m.toNat)
        (scaleRows b (j.withRows first m) first.toNat (m.toNat - first.toNat) mem) =
      scaleRows b j first.toNat (last.toNat - first.toNat) mem := by
  have hrows : last.toNat - first.toNat = m.toNat - first.toNat + (last.toNat - m.toNat) := by omega
  rw [scaleRows_withRows, scaleRows_withRows, hrows, scaleRows_add, Nat.add_sub_cancel' hfirst]

/-- Settles O29: each of the three jobs runs to completion and leaves the blocks of its rows, and the rows of the two parts make up
those of the whole. -/
theorem splitRowRangesGiveTheSameImage : Obligations.SplitRowRangesGiveTheSameImage := by
  intro s m hidle hlut _ hvalid hfirst hlast
  have hwhole := validateScale_ok.1 hvalid
  have hupper : ScaleValid ((jobOf 2 s.params).withRows s.params.rowFirst m) :=
    hwhole.withRows hfirst (hlast.trans hwhole.rowsInside)
  have hlower : ScaleValid ((jobOf 2 s.params).withRows m s.params.rowLast) := hwhole.withRows hlast hwhole.rowsInside
  obtain ⟨t, hexec, hrun⟩ := scale_completes hidle hlut hwhole
  obtain ⟨t1, hexec1, hrun1⟩ := scale_completes (s := { s with params := { s.params with rowLast := m } }) hidle hlut hupper
  obtain ⟨t2, hexec2, hrun2⟩ := scale_completes
    (s := { State.scaleDone { s with params := { s.params with rowLast := m } } with
      params := { s.params with rowFirst := m } }) rfl (fun _ => rfl) hlower
  refine ⟨_, t, _, _, t1, _, _, t2, _, ⟨hexec, hrun, rfl, rfl⟩, ⟨hexec1, hrun1, rfl, rfl⟩, ⟨hexec2, hrun2, rfl, rfl⟩, ?_⟩
  exact scaleRows_split s.build (jobOf 2 s.params) hfirst hlast s.mem

end Sys2Proof.Machine
end

