-- ==== Sys2Proof/Proofs/HostPrograms.lean ====
section
/-! The decoder refuses exactly the illegal command words, and the binary form of host programs: a line is read back from its words
and from nothing else, and so is a program (30_encoding.md R95, R96, R106, R108, R110). -/

namespace Sys2Proof.Machine

/-! Illegal command words. -/

/-- Only an illegal word is refused (R106). -/
theorem decodeWord_eq_error_iff {v : Word} :
    (∃ e, decodeWord v = .error e) ↔ (v.extractLsb' 8 24 ≠ 0#24 ∨ 4 < (v.extractLsb' 0 8).toNat) := by
  unfold decodeWord mbzZero
  split
  next hmbz =>
    rw [beq_iff_eq] at hmbz
    split
    case h_6 =>
      simp only [hmbz]
      grind
    all_goals simp [*]
  next hmbz =>
    rw [beq_iff_eq] at hmbz
    exact iff_of_true ⟨_, rfl⟩ (.inl hmbz)

/-- Settles O1: a word decodes as what it encodes, and the branches of the decoder are the two ways of being illegal. -/
theorem decodeAcceptsExactlyTheFiveWords : Obligations.DecodeAcceptsExactlyTheFiveWords :=
  ⟨fun _ _ => decodeWord_eq_ok_iff, fun _ => decodeWord_eq_error_iff⟩

/-! Word 0 of a line. -/

theorem lineHead_toNat (kind : BitVec 2) (offset : BitVec 8) : (lineHead kind offset).toNat = 256 * kind.toNat + offset.toNat := by
  have hkind := kind.isLt
  have hoffset := offset.isLt
  rw [lineHead, BitVec.toNat_setWidth, BitVec.toNat_append, Nat.shiftLeft_eq, Nat.mul_comm, ← Nat.two_pow_add_eq_or_of_lt hoffset]
  omega

/-- The fields of the head of a line, and that they are all of it (R110). -/
theorem eq_lineHead_iff {h : Word} {kind : BitVec 2} {offset : BitVec 8} :
    h = lineHead kind offset ↔ h.extractLsb' 10 22 = 0#22 ∧ h.extractLsb' 8 2 = kind ∧ h.extractLsb' 0 8 = offset := by
  have hword := h.isLt
  have hkind := kind.isLt
  have hoffset := offset.isLt
  simp only [← BitVec.toNat_inj, BitVec.extractLsb'_toNat, lineHead_toNat, Nat.shiftRight_eq_div_pow, BitVec.toNat_ofNat]
  omega

/-- A word with zeros above its kind and offset is the head of a line of that kind (R110). -/
theorem eq_lineHead {h : Word} {kind : BitVec 2} (hzero : h.extractLsb' 10 22 = 0#22)
    (hkind : (h.extractLsb' 8 2).toNat = kind.toNat) : h = lineHead kind (h.extractLsb' 0 8) :=
  eq_lineHead_iff.2 ⟨hzero, BitVec.eq_of_toNat_eq hkind, rfl⟩

/-! Lines. -/

/-- A line's words give the line back, whatever follows them (R110). -/
theorem decodeLine_encodeLine (l : HostLine) (rest : List Word) : decodeLine (encodeLine l ++ rest) = .ok (l, rest) := by
  have hfields (kind : BitVec 2) (offset : BitVec 8) := eq_lineHead_iff.1 (Eq.refl (lineHead kind offset))
  cases l <;> simp [encodeLine, decodeLine, hfields]

/-- Words that begin with a line begin with its words (R110). -/
theorem eq_encodeLine_of_decodeLine {ws rest : List Word} {l : HostLine} (h : decodeLine ws = .ok (l, rest)) :
    ws = encodeLine l ++ rest := by
  unfold decodeLine at h
  split at h
  next head w rest =>
    split at h
    next hzero =>
      split at h
      next hkind =>
        cases h
        exact congrArg (· :: w :: rest) (eq_lineHead (kind := 0#2) hzero hkind)
      next hkind =>
        split at h <;> cases h
        next hw => exact hw ▸ congrArg (· :: w :: rest) (eq_lineHead (kind := 1#2) hzero hkind)
      next hkind =>
        split at h <;> cases h
        next v => exact congrArg (· :: w :: v :: rest) (eq_lineHead (kind := 2#2) hzero hkind)
      next => cases h
    next => cases h
  next => cases h

/-! Programs. -/

theorem decodeLines_succ_of_decodeLine {fuel : Nat} {ws rest : List Word} {l : HostLine} {ls : List HostLine}
    (hline : decodeLine ws = .ok (l, rest)) (hlines : decodeLines fuel rest = .ok ls) :
    decodeLines (fuel + 1) ws = .ok (l :: ls) := by
  cases ws with
  | nil => cases hline
  | cons w ws => simp [decodeLines, hline, hlines]

/-- Words that hold a program and are not empty hold a line and then a program. -/
theorem exists_line_of_decodeLines_cons {fuel : Nat} {w : Word} {ws : List Word} {p : List HostLine}
    (h : decodeLines (fuel + 1) (w :: ws) = .ok p) :
    ∃ l rest ls, decodeLine (w :: ws) = .ok (l, rest) ∧ decodeLines fuel rest = .ok ls ∧ p = l :: ls := by
  rw [decodeLines] at h
  split at h
  next => cases h
  next l rest hline =>
    split at h <;> cases h
    next ls hlines => exact ⟨l, rest, ls, hline, hlines, rfl⟩

theorem decodeLines_encodeProgram (p : List HostLine) {fuel : Nat} (hfuel : p.length ≤ fuel) :
    decodeLines fuel (encodeProgram p) = .ok p := by
  induction p generalizing fuel with
  | nil => simp [encodeProgram, decodeLines]
  | cons l ls ih =>
    obtain ⟨fuel, rfl⟩ := Nat.exists_eq_add_of_lt hfuel
    exact decodeLines_succ_of_decodeLine (decodeLine_encodeLine l _) (ih (by omega))

theorem length_le_encodeProgram (p : List HostLine) : p.length ≤ (encodeProgram p).length := by
  induction p with
  | nil => rfl
  | cons l ls ih =>
    have hline : 1 ≤ (encodeLine l).length := by cases l <;> simp [encodeLine]
    simp only [encodeProgram, List.length_cons, List.length_append]
    omega

theorem decodeProgram_encodeProgram (p : List HostLine) : decodeProgram (encodeProgram p) = .ok p :=
  decodeLines_encodeProgram p (length_le_encodeProgram p)

/-- Words that decode with any fuel are the binary form of what they decode to. -/
theorem encodeProgram_of_decodeLines {fuel : Nat} {ws : List Word} {p : List HostLine} (h : decodeLines fuel ws = .ok p) :
    encodeProgram p = ws := by
  induction fuel generalizing ws p with
  | zero =>
    cases ws with
    | nil => cases h; rfl
    | cons w ws => cases h
  | succ fuel ih =>
    cases ws with
    | nil => cases h; rfl
    | cons w ws =>
      obtain ⟨l, rest, ls, hline, hlines, rfl⟩ := exists_line_of_decodeLines_cons h
      rw [eq_encodeLine_of_decodeLine hline, encodeProgram, ih hlines]

/-! Bytes. -/

/-- The bytes of a list of words hold those words (R64, R110). -/
theorem wordsOfBytes_wordBytes (ws : List Word) : wordsOfBytes (ws.flatMap wordBytes) = some ws := by
  induction ws with
  | nil => rfl
  | cons w ws ih =>
    rw [List.flatMap_cons, wordBytes]
    simp only [List.cons_append, List.nil_append, wordsOfBytes, ih, Option.map_some, wordOfBytes_wordByte]

theorem decodeProgramBytes_encodeProgramBytes (p : List HostLine) : decodeProgramBytes (encodeProgramBytes p) = .ok p := by
  simp only [decodeProgramBytes, encodeProgramBytes, wordsOfBytes_wordBytes, decodeProgram_encodeProgram]

/-- Settles O2: a program is read back line by line, and only from its own words. -/
theorem hostProgramBinaryRoundTrip : Obligations.HostProgramBinaryRoundTrip :=
  ⟨fun p => ⟨decodeProgram_encodeProgram p, decodeProgramBytes_encodeProgramBytes p⟩,
    fun _ _ h => encodeProgram_of_decodeLines h⟩

end Sys2Proof.Machine
end

