-- ==== Sys2Proof/Proofs/RegisterWindow.lean ====
section
/-! What a write of each register does, and what it then reads: the access classes, the unmapped offsets and the reserved fields
(10_state.md R22, R24 to R39, 30_encoding.md R90 to R93). -/

namespace Sys2Proof.Machine

/-! The words of CTRL and STATUS. -/

theorem ctrlWord_ctrlWrite (v : Word) : ctrlWord (ctrlWrite v) = v &&& 0x00000003#32 := by
  apply BitVec.eq_of_getLsbD_eq
  intro i hi
  simp only [ctrlWord, ctrlWrite, BitVec.getLsbD_append, BitVec.getLsbD_and]
  interval_cases i <;> simp

theorem statusWord_statusWrite (v : Word) (t : Status) :
    statusWord (statusWrite v t) = statusWord t &&& ~~~(v &&& 0x0000000A#32) := by
  apply BitVec.eq_of_getLsbD_eq
  intro i hi
  simp only [statusWord, statusWrite, BitVec.getLsbD_append, BitVec.getLsbD_and]
  interval_cases i <;> simp

/-- A field whose bits are all 0 reads 0. -/
theorem extractLsb'_eq_zero {w : Word} {start len : Nat} (h : ∀ i < len, w.getLsbD (start + i) = false) :
    w.extractLsb' start len = 0 :=
  BitVec.eq_of_getLsbD_eq fun i hi => by simpa [hi] using h i hi

theorem cfgWord_reserved (b : Build) : (cfgWord b).extractLsb' 9 23 = 0 :=
  extractLsb'_eq_zero fun i hi => by
    simp only [cfgWord, BitVec.getLsbD_append]
    grind

theorem ctrlWord_reserved (c : Ctrl) : (ctrlWord c).extractLsb' 2 30 = 0 :=
  extractLsb'_eq_zero fun i hi => by
    simp only [ctrlWord, BitVec.getLsbD_append]
    grind

theorem statusWord_reserved_low (t : Status) : (statusWord t).extractLsb' 4 4 = 0 :=
  extractLsb'_eq_zero fun i hi => by
    simp only [statusWord, BitVec.getLsbD_append]
    grind

theorem statusWord_reserved_high (t : Status) : (statusWord t).extractLsb' 12 20 = 0 :=
  extractLsb'_eq_zero fun i hi => by
    simp only [statusWord, BitVec.getLsbD_append]
    grind

/-- A write to CTRL looks at its two fields only (R25, R92). -/
theorem ctrlWrite_and (v : Word) : ctrlWrite (v &&& 0x00000003#32) = ctrlWrite v := by
  simp [ctrlWrite]

/-- A write to STATUS looks at no reserved bit (R26, R92). -/
theorem statusWrite_and (v : Word) (t : Status) : statusWrite (v &&& 0x00000F0F#32) t = statusWrite v t := by
  simp [statusWrite]

theorem hostWrite_ctrl (v : Word) (s : State) : hostWrite 0x08 v s = .next { s with ctrl := ctrlWrite v } := rfl

theorem hostWrite_status (v : Word) (s : State) : hostWrite 0x0C v s = .next { s with status := statusWrite v s.status } := rfl

/-! The parameter registers and the unmapped offsets. -/

/-- The offsets of SRC_BASE .. ARG1 (R28 to R37). -/
def paramOffsets : List (BitVec 8) := [0x14, 0x18, 0x1C, 0x20, 0x24, 0x28, 0x2C, 0x30, 0x34, 0x38, 0x3C]

theorem mem_paramOffsets_iff {o : BitVec 8} :
    o ∈ paramOffsets ↔ 0x14 ≤ o.toNat ∧ o.toNat ≤ 0x3C ∧ o.toNat % 4 = 0 := by
  simp only [paramOffsets, List.mem_cons, List.not_mem_nil, or_false, ← BitVec.toNat_inj, BitVec.reduceToNat]
  omega

theorem paramsWrite_of_not_mem {o : BitVec 8} (h : o ∉ paramOffsets) (p : Params) (v : Word) : paramsWrite p o v = p := by
  rw [mem_paramOffsets_iff] at h
  unfold paramsWrite
  split
  case h_12 => rfl
  all_goals omega

/-- Above CMD a register write reaches the parameter registers at most (R93). -/
theorem hostWrite_above_cmd {o : BitVec 8} (h : 0x14 ≤ o.toNat) (v : Word) (s : State) :
    hostWrite o v s = .next { s with params := paramsWrite s.params o v } := by
  have hcmd : o ≠ cmdOffset := by
    rintro rfl
    exact absurd h (by decide)
  rw [hostWrite, if_neg hcmd, regWrite]
  split
  next => omega
  next => omega
  next => rfl

theorem regRead_paramsWrite_self {o : BitVec 8} (h : o ∈ paramOffsets) (v : Word) (s : State) :
    regRead { s with params := paramsWrite s.params o v } o = v := by
  simp only [paramOffsets, List.mem_cons, List.not_mem_nil, or_false] at h
  rcases h with rfl | rfl | rfl | rfl | rfl | rfl | rfl | rfl | rfl | rfl | rfl <;> rfl

/-- A write to a parameter register leaves what every other offset reads. -/
theorem regRead_paramsWrite_ne {o o' : BitVec 8} (h : o' ≠ o) (v : Word) (s : State) :
    regRead { s with params := paramsWrite s.params o v } o' = regRead s o' := by
  have hne : o'.toNat ≠ o.toNat := fun heq => h (BitVec.eq_of_toNat_eq heq)
  unfold paramsWrite
  split
  case h_12 => rfl
  all_goals
    rename_i ho
    rw [ho] at hne
    unfold regRead
    split <;> trivial

theorem regRead_unmapped {o : BitVec 8} (h : 0x4C ≤ o.toNat) (s : State) : regRead s o = 0 := by
  unfold regRead
  split
  case h_19 => rfl
  all_goals omega

theorem hostWrite_unmapped {o : BitVec 8} (h : 0x4C ≤ o.toNat) (v : Word) (s : State) : hostWrite o v s = .next s := by
  have hparams : o ∉ paramOffsets := fun ho => by
    obtain ⟨-, hhigh, -⟩ := mem_paramOffsets_iff.1 ho
    omega
  rw [hostWrite_above_cmd (by omega), paramsWrite_of_not_mem hparams]

/-- Settles O7: one clause for each access class. -/
theorem registerAccessClasses : Obligations.RegisterAccessClasses := by
  refine ⟨fun s o v hlow hhigh haligned => ?_, fun s v => ⟨_, hostWrite_ctrl v s, ctrlWord_ctrlWrite v⟩,
    fun s v => ⟨_, hostWrite_status v s, statusWord_statusWrite v s.status⟩, fun s o v ho => ?_, fun _ _ => ⟨rfl, rfl⟩,
    fun s o v hlow _ => ⟨regRead_unmapped hlow s, hostWrite_unmapped hlow v s⟩⟩
  · have ho : o ∈ paramOffsets := mem_paramOffsets_iff.2 ⟨hlow, hhigh, haligned⟩
    exact ⟨_, hostWrite_above_cmd hlow v s, regRead_paramsWrite_self ho v s, fun _ hne => regRead_paramsWrite_ne hne v s⟩
  · simp only [List.mem_cons, List.not_mem_nil, or_false] at ho
    rcases ho with rfl | rfl | rfl | rfl | rfl <;> rfl

/-- Settles O8: the reserved bits of a word read are constants of its layout, and no write looks at them. -/
theorem reservedFieldsReadZero : Obligations.ReservedFieldsReadZero := by
  intro s
  refine ⟨cfgWord_reserved s.build, ctrlWord_reserved s.ctrl, statusWord_reserved_low s.status,
    statusWord_reserved_high s.status, fun v => ?_, fun v => ?_, fun _ => rfl⟩
  · rw [hostWrite_ctrl, hostWrite_ctrl, ctrlWrite_and]
  · rw [hostWrite_status, hostWrite_status, statusWrite_and]

end Sys2Proof.Machine
end

