-- ==== Sys2Proof/Proofs/ChannelCodes.lean ====
section
/-! The quantiser, and the place of the three channel codes in an index of the LUT (30_encoding.md R100,
40_color_distance_lut.md R121 to R124). -/

namespace Sys2Proof.Machine

/-! The quantiser. -/

@[simp] theorem quantLevel_zero (b : LutBits) : quantLevel b 0 = 0 := by simp [quantLevel]

@[simp] theorem quantLevel_neg (b : LutBits) (d : Int) : quantLevel b (-d) = -quantLevel b d := by
  simp only [quantLevel, Int.sign_neg, Int.natAbs_neg, Int.neg_mul]

theorem quantLevel_nonneg (b : LutBits) {d : Int} (hd : 0 ≤ d) : 0 ≤ quantLevel b d :=
  Int.mul_nonneg (Int.sign_nonneg_iff.2 hd) (Int.natCast_nonneg _)

/-- The size of a level is the rounded quotient, at 0 too (R122). -/
theorem natAbs_quantLevel (b : LutBits) (d : Int) : (quantLevel b d).natAbs = (2 * d.natAbs * lutLevels b + 255) / 510 := by
  rw [quantLevel, Int.natAbs_mul, Int.natAbs_natCast]
  rcases eq_or_ne d 0 with rfl | hd
  · simp
  · rw [Int.natAbs_sign_of_ne_zero hd, Nat.one_mul]

/-- A code is its level moved up by L, with nothing cut off (R122). -/
theorem channelCode_cast (b : LutBits) {d : Int} (hd : d.natAbs ≤ 255) :
    (channelCode b d : Int) = quantLevel b d + lutLevels b := by
  have hlevel := quantLevel_natAbs_le b hd
  unfold channelCode
  omega

theorem channelCode_le (b : LutBits) {d : Int} (hd : d.natAbs ≤ 255) : channelCode b d ≤ 2 * lutLevels b := by
  have hlevel := quantLevel_natAbs_le b hd
  have hcode := channelCode_cast b hd
  omega

/-! The fields of an index. -/

theorem packIndex_lt (b : LutBits) {cR cG cB : Nat} (hR : cR < 2 ^ lutWidth b) (hG : cG < 2 ^ lutWidth b)
    (hB : cB < 2 ^ lutWidth b) : packIndex b cR cG cB < lutSize b := by
  cases b <;> simp only [packIndex, lutSize, lutWidth] at * <;> omega

theorem packIndex_red (b : LutBits) (cR : Nat) {cG cB : Nat} (hG : cG < 2 ^ lutWidth b) (hB : cB < 2 ^ lutWidth b) :
    packIndex b cR cG cB / 2 ^ (2 * lutWidth b) = cR := by
  cases b <;> simp only [packIndex, lutWidth] at * <;> omega

theorem packIndex_green (b : LutBits) (cR : Nat) {cG cB : Nat} (hG : cG < 2 ^ lutWidth b) (hB : cB < 2 ^ lutWidth b) :
    packIndex b cR cG cB / 2 ^ lutWidth b % 2 ^ lutWidth b = cG := by
  cases b <;> simp only [packIndex, lutWidth] at * <;> omega

theorem packIndex_blue (b : LutBits) (cR cG : Nat) {cB : Nat} (hB : cB < 2 ^ lutWidth b) :
    packIndex b cR cG cB % 2 ^ lutWidth b = cB := by
  cases b <;> simp only [packIndex, lutWidth] at * <;> omega

/-- Settles O37: the size of a level is one Euclidean division, which bounds it on both sides, and every code fits its field. -/
theorem quantiserAndIndexStayInRange : Obligations.QuantiserAndIndexStayInRange := by
  refine fun b => ⟨fun d hlo hhi => ?_, fun p q => ?_⟩
  · have hd : d.natAbs ≤ 255 := by omega
    have hlevel := natAbs_quantLevel b d
    refine ⟨quantLevel_neg b d, quantLevel_zero b, quantLevel_nonneg b, quantLevel_natAbs_le b hd, ?_, ?_, channelCode_cast b hd⟩
    · omega
    · omega
  · have hG := channelCode_lt b p.g q.g
    have hB := channelCode_lt b p.b q.b
    exact ⟨channelCode_le b (channelDiff_natAbs_le _ _), channelCode_le b (channelDiff_natAbs_le _ _),
      channelCode_le b (channelDiff_natAbs_le _ _), lutIndex_lt b p q, packIndex_red b _ hG hB, packIndex_green b _ hG hB,
      packIndex_blue b _ _ hB⟩

end Sys2Proof.Machine
end

