-- ==== Sys2Proof/Proofs/LutEntries.lean ====
section
/-! The entry function: its rounding, its symmetry and its maximum, and the command that fills the LUT with it
(40_color_distance_lut.md R125 to R130, 45_commands.md R259). -/

namespace Sys2Proof.Machine

/-! The rounded root. -/

/-- The rounded root and the half-way points between naturals: what every bound on an entry comes from (R125). -/
theorem fixedRoot_le_iff {s : ℚ} {n : Nat} : fixedRoot s ≤ n ↔ s * 4 ^ 9 < (2 * n + 1) ^ 2 := by
  have hpos : 0 < (2 * n + 1) * (2 * n + 1) := by positivity
  calc fixedRoot s ≤ n ↔ isqrt (s * 4 ^ 9).floor.toNat < 2 * n + 1 := by
        simp only [fixedRoot, fracBits, Nat.reduceAdd]
        omega
    _ ↔ (s * 4 ^ 9).floor.toNat < (2 * n + 1) * (2 * n + 1) := by rw [isqrt_eq_sqrt, Nat.sqrt_lt]
    _ ↔ (s * 4 ^ 9).floor < (((2 * n + 1) * (2 * n + 1) : Nat) : Int) := Int.toNat_lt' hpos
    _ ↔ s * 4 ^ 9 < (2 * n + 1) ^ 2 := by
        rw [Rat.floor_lt_iff]
        push_cast
        rw [sq]

/-- A positive rounded root is not below the half-way point under it: the other half of R125. -/
theorem le_of_fixedRoot_ne_zero {s : ℚ} (h : fixedRoot s ≠ 0) : (2 * (fixedRoot s : ℚ) - 1) ^ 2 ≤ s * 4 ^ 9 := by
  obtain ⟨n, hn⟩ := Nat.exists_eq_succ_of_ne_zero h
  have hbelow : ¬ fixedRoot s ≤ n := by omega
  rw [fixedRoot_le_iff, not_lt] at hbelow
  rw [hn]
  push_cast
  linarith

theorem fixedRoot_mono {s t : ℚ} (h : s ≤ t) : fixedRoot s ≤ fixedRoot t := by
  have ht := fixedRoot_le_iff.1 (le_refl (fixedRoot t))
  exact fixedRoot_le_iff.2 (by linarith)

@[simp] theorem fixedRoot_zero : fixedRoot 0 = 0 :=
  Nat.le_zero.1 (fixedRoot_le_iff.2 (by norm_num))

/-! The squared distance. -/

theorem squaredDistance_nonneg (c : Coefficients) (r g b : ℚ) : 0 ≤ squaredDistance c r g b := by
  unfold squaredDistance
  positivity

theorem squaredDistance_neg (c : Coefficients) (r g b : ℚ) :
    squaredDistance c (-r) (-g) (-b) = squaredDistance c r g b := by
  unfold squaredDistance
  ring

@[simp] theorem squaredDistance_zero (c : Coefficients) : squaredDistance c 0 0 0 = 0 := by simp [squaredDistance]

/-! Entries. -/

theorem entryOfCodes_of_gt {b : Build} {cR cG cB : Nat}
    (h : cR > 2 * lutLevels b.lutBits ∨ cG > 2 * lutLevels b.lutBits ∨ cB > 2 * lutLevels b.lutBits) :
    entryOfCodes b cR cG cB = 0 := if_pos h

theorem entryOfCodes_of_le {b : Build} {cR cG cB : Nat} (hR : cR ≤ 2 * lutLevels b.lutBits)
    (hG : cG ≤ 2 * lutLevels b.lutBits) (hB : cB ≤ 2 * lutLevels b.lutBits) :
    entryOfCodes b cR cG cB = fixedRoot (squaredDistance b.coefficients (representative b.lutBits cR)
      (representative b.lutBits cG) (representative b.lutBits cB)) := if_neg (by omega)

/-- The entry function takes the codes out of an index as R100 packs them. -/
theorem entryValue_packIndex (b : Build) {cR cG cB : Nat} (hR : cR < 2 ^ lutWidth b.lutBits)
    (hG : cG < 2 ^ lutWidth b.lutBits) (hB : cB < 2 ^ lutWidth b.lutBits) :
    entryValue b (packIndex b.lutBits cR cG cB) = entryOfCodes b cR cG cB := by
  rw [entryValue, packIndex_red _ _ hG hB, packIndex_green _ _ hG hB, packIndex_blue _ _ _ hB, Nat.mod_eq_of_lt hR]

/-- Settles O34: the codes come back out of the index, and the rounded root lies between its two half-way points. -/
theorem entryIsTheRoundedRoot : Obligations.EntryIsTheRoundedRoot := by
  intro b cR cG cB B L hR hG hB k
  have hvalue : entryValue b k = entryOfCodes b cR cG cB := entryValue_packIndex b hR hG hB
  refine ⟨⟨rfl, packIndex_lt _ hR hG hB, hvalue⟩, fun hwide => ?_, fun hR' hG' hB' => ?_⟩
  · rw [hvalue, entryOfCodes_of_gt hwide]
  · rw [hvalue, entryOfCodes_of_le hR' hG' hB']
    exact ⟨squaredDistance_nonneg _ _ _ _, fixedRoot_le_iff.1 le_rfl, le_of_fixedRoot_ne_zero⟩

/-! The distance of a pixel pair. -/

theorem channelDiff_comm (p q : Byte) : channelDiff q p = -channelDiff p q := (Int.neg_sub _ _).symm

@[simp] theorem channelDiff_self (p : Byte) : channelDiff p p = 0 := Int.sub_self _

/-- The difference a code stands for is its level, scaled back (R125). -/
theorem representative_channelCode (b : LutBits) {d : Int} (hd : d.natAbs ≤ 255) :
    representative b (channelCode b d) = (quantLevel b d : ℚ) * 255 / (lutLevels b : ℚ) := by
  have hcode : (channelCode b d : ℚ) = (quantLevel b d : ℚ) + (lutLevels b : ℚ) := by exact_mod_cast channelCode_cast b hd
  rw [representative, hcode, add_sub_cancel_right]

theorem representative_channelCode_neg (b : LutBits) {d : Int} (hd : d.natAbs ≤ 255) :
    representative b (channelCode b (-d)) = -representative b (channelCode b d) := by
  rw [representative_channelCode b hd, representative_channelCode b (by simpa using hd), quantLevel_neg]
  push_cast
  ring

@[simp] theorem representative_channelCode_zero (b : LutBits) : representative b (channelCode b 0) = 0 := by
  simp [representative_channelCode]

/-- The entry of a pixel pair has all three codes in range (R123, R125). -/
theorem entryValue_lutIndex (b : Build) (p q : Pixel) :
    entryValue b (lutIndex b.lutBits p q) = fixedRoot (squaredDistance b.coefficients
      (representative b.lutBits (channelCode b.lutBits (channelDiff p.r q.r)))
      (representative b.lutBits (channelCode b.lutBits (channelDiff p.g q.g)))
      (representative b.lutBits (channelCode b.lutBits (channelDiff p.b q.b)))) := by
  have hcode (x y : Byte) := channelCode_le b.lutBits (channelDiff_natAbs_le x y)
  rw [lutIndex, entryValue_packIndex b (channelCode_lt ..) (channelCode_lt ..) (channelCode_lt ..),
    entryOfCodes_of_le (hcode ..) (hcode ..) (hcode ..)]

/-- What the word of an entry holds depends on the entry alone, also where it does not fit (R42). -/
theorem entryDist_congr {b : Build} {p q p' q' : Pixel}
    (h : entryValue b (lutIndex b.lutBits p q) = entryValue b (lutIndex b.lutBits p' q')) : entryDist b p q = entryDist b p' q' := by
  simp only [entryDist, entryWord, h]

theorem entryDist_comm (b : Build) (p q : Pixel) : entryDist b p q = entryDist b q p := by
  apply entryDist_congr
  have hneg (x y : Byte) := representative_channelCode_neg b.lutBits (channelDiff_natAbs_le x y)
  rw [entryValue_lutIndex, entryValue_lutIndex, channelDiff_comm p.r, channelDiff_comm p.g, channelDiff_comm p.b, hneg, hneg, hneg,
    squaredDistance_neg]

theorem entryDist_self (b : Build) (p : Pixel) : entryDist b p p = 0 := by
  have hzero : entryValue b (lutIndex b.lutBits p p) = 0 := by simp [entryValue_lutIndex]
  rw [entryDist, entryWord_toNat (by omega), hzero]

/-- Settles O36: exchanging the pixels negates the three differences, of which the squared distance is an even function. -/
theorem distanceIsSymmetricAndZeroOnEqual : Obligations.DistanceIsSymmetricAndZeroOnEqual := by
  intro b p q
  rw [lutDist_lutFill]
  exact ⟨entryDist_comm b p q, entryDist_self b p, rfl, entryDist_comm b p q, entryDist_self b p, fun _ _ => rfl⟩

/-! The largest entry. -/

/-- Of three signs two agree: on a cube the three products cannot all be near its least value. -/
theorem neg_sq_le_sum_products {r g b c : ℚ} (hc : 0 < c) (hr : |r| ≤ c) (hg : |g| ≤ c) (hb : |b| ≤ c) :
    -c ^ 2 ≤ r * g + g * b + r * b := by
  obtain ⟨r1, r2⟩ := abs_le.1 hr
  obtain ⟨g1, g2⟩ := abs_le.1 hg
  obtain ⟨b1, b2⟩ := abs_le.1 hb
  have hupper : 0 ≤ (c + r) * (c + g) * (c + b) := mul_nonneg (mul_nonneg (by linarith) (by linarith)) (by linarith)
  have hlower : 0 ≤ (c - r) * (c - g) * (c - b) := mul_nonneg (mul_nonneg (by linarith) (by linarith)) (by linarith)
  have hsum : 0 ≤ 2 * c * (c ^ 2 + (r * g + g * b + r * b)) := by linarith
  linarith [nonneg_of_mul_nonneg_right hsum (by positivity)]

/-- The squared distance is largest at the corner (255, 255, −255) of the cube. Its three mixed coefficients are negative, that of
r·g the least in size, so the bounds of the squares, of g·b, r·b and of the sum of the products add up to it. -/
theorem squaredDistance_le_corner {r g b : ℚ} (hr : |r| ≤ 255) (hg : |g| ≤ 255) (hb : |b| ≤ 255) :
    squaredDistance defaultCoefficients r g b ≤ squaredDistance defaultCoefficients 255 255 (-255) := by
  have hsq {x : ℚ} (hx : |x| ≤ 255) : x ^ 2 ≤ 255 ^ 2 := sq_le_of_abs_le (abs_le.1 hx).1 (abs_le.1 hx).2
  have hmul {x y : ℚ} (hx : |x| ≤ 255) (hy : |y| ≤ 255) : -(255 * 255) ≤ x * y :=
    (abs_le.1 ((abs_mul x y).trans_le (mul_le_mul hx hy (abs_nonneg y) (by norm_num)))).1
  have hproducts := neg_sq_le_sum_products (by norm_num) hr hg hb
  unfold squaredDistance coeffKG ratioValue defaultCoefficients
  norm_num only
  linarith [hsq hr, hsq hg, hsq hb, hmul hg hb, hmul hr hb]

theorem fixedRoot_corner : fixedRoot (squaredDistance defaultCoefficients 255 255 (-255)) = 87176 := by
  have hle : fixedRoot (squaredDistance defaultCoefficients 255 255 (-255)) ≤ 87176 := by
    rw [fixedRoot_le_iff]
    norm_num [squaredDistance, coeffKG, ratioValue, defaultCoefficients]
  have hgt : ¬ fixedRoot (squaredDistance defaultCoefficients 255 255 (-255)) ≤ 87175 := by
    rw [fixedRoot_le_iff]
    norm_num [squaredDistance, coeffKG, ratioValue, defaultCoefficients]
  omega

theorem entryOfCodes_le {b : Build} (hb : b.coefficients = defaultCoefficients) (cR cG cB : Nat) :
    entryOfCodes b cR cG cB ≤ 87176 := by
  by_cases hwide : cR > 2 * lutLevels b.lutBits ∨ cG > 2 * lutLevels b.lutBits ∨ cB > 2 * lutLevels b.lutBits
  · rw [entryOfCodes_of_gt hwide]
    exact Nat.zero_le _
  · have hR : cR ≤ 2 * lutLevels b.lutBits := by omega
    have hG : cG ≤ 2 * lutLevels b.lutBits := by omega
    have hB : cB ≤ 2 * lutLevels b.lutBits := by omega
    rw [entryOfCodes_of_le hR hG hB, hb, ← fixedRoot_corner]
    exact fixedRoot_mono (squaredDistance_le_corner (representative_abs_le hR) (representative_abs_le hG)
      (representative_abs_le hB))

theorem representative_channelCode_255 (b : LutBits) : representative b (channelCode b 255) = 255 := by
  have hlevel : quantLevel b 255 = lutLevels b := by cases b <;> decide
  have hL : (lutLevels b : ℚ) ≠ 0 := by cases b <;> norm_num [lutLevels, lutWidth]
  rw [representative_channelCode b (by decide), hlevel, Int.cast_natCast, mul_div_cancel_left₀ _ hL]

/-- The differences (255, 255, −255) reach the corner in both resolutions (R126). -/
theorem entryDist_corner {b : Build} (hb : b.coefficients = defaultCoefficients) (a a' : Byte) :
    entryDist b ⟨255, 255, 0, a⟩ ⟨0, 0, 255, a'⟩ = 87176 := by
  have hup : channelDiff 255 0 = 255 := by decide
  have hdown : channelDiff 0 255 = -255 := by decide
  have hneg := representative_channelCode_neg b.lutBits (d := 255) (by decide)
  rw [entryDist, entryWord_toNat (entryValue_lt hb _), entryValue_lutIndex, hup, hdown, hneg, representative_channelCode_255, hb,
    fixedRoot_corner]

/-- Settles O35: the rounded root is monotone, so the largest squared distance gives the largest entry. -/
theorem everyEntryIsAtMost87176 : Obligations.EveryEntryIsAtMost87176 := by
  refine fun b hb => ⟨fun k => ⟨entryOfCodes_le hb _ _ _, entryWord_toNat (entryValue_lt hb k)⟩, fun a a' => ?_⟩
  exact ⟨entryDist_corner hb a a', (entryDist_comm b _ _).trans (entryDist_corner hb a' a)⟩

/-! LUT_INIT. -/

/-- `s` with LUT_INIT done (R259). -/
def State.lutInitDone (s : State) : State :=
  { s with
    job := jobOf 1 s.params
    status := { busy := false, done := true, lutReady := true, ovr := s.status.ovr, err := .ok }
    ctrl := { s.ctrl with cancel := false }
    rowsDone := 0
    eng := .idle
    lut := lutFill s.build
    race := { before := s.mem, srcOld := [], contested := [] }
    events := [] }

/-- LUT_INIT has no operands to reject: an idle block starts it (R250, R252, R259). -/
theorem exec_lutInit_of_idle {s : State} (hidle : s.status.busy = false) :
    exec .lutInit s = .next (startLutInit (latch (encode .lutInit) s)) := by
  rw [exec_eq_issue_startOf, issue, hidle]
  exact congrArg _ (accept_ok startLutInit (validate_encode_lutInit _))

/-- Its one engine step is the BUILD step that starts nothing after it (R253). -/
theorem engineRun_startLutInit (s : State) :
    engineRun 1 (startLutInit (latch (encode .lutInit) s)) = .next s.lutInitDone := by
  have hop : opcodeOf (encode .lutInit) = 1 := by decide
  have hstep : engineStep (startLutInit (latch (encode .lutInit) s)) =
      .next (buildStep .none (startLutInit (latch (encode .lutInit) s))) := rfl
  rw [engineRun_succ hstep, engineRun]
  simp only [buildStep, complete, fillLut, noEvents, startLutInit, startEngine, latch, hop, statusComplete, statusAccept,
    State.lutInitDone]

/-- Settles O21: the CMD write starts BUILD(NONE), whose step fills the LUT and completes. -/
theorem lutInitFillsTheLut : Obligations.LutInitFillsTheLut := by
  intro s hidle
  refine ⟨_, s.lutInitDone, exec_lutInit_of_idle hidle, rfl, rfl, engineRun_startLutInit s, rfl,
    lutFill_length s.build, fun k hk => ?_⟩
  have hword : lutRead s.lutInitDone.lut k = entryWord s.build k := lutRead_lutFill hk
  exact ⟨hword, fun hfits => by rw [hword, entryWord_toNat hfits]⟩

end Sys2Proof.Machine
end

