-- ==== Sys2Proof/Proofs/SourceImage.lean ====
section
/-! The source image as what the pixels of a job depend on: two memories and two jobs with one image give the same pixels, wherever
each has its source (41_neighborhood_sampler.md R150 to R157, 44_output_combiner.md R237). -/

namespace Sys2Proof.Machine

/-- The source regions of `j` in `m` and of `j'` in `m'` hold one image: the same size and the same bytes in it (R61, R62). -/
structure SameImage (m m' : Memory) (j j' : Job) : Prop where
  width : j.w = j'.w
  height : j.h = j'.h
  bytes : ∀ k, k < j.w.toNat * j.h.toNat * 4 → memRead m (j.srcBase.toNat + k) = memRead m' (j'.srcBase.toNat + k)

/-- The offset of a source pixel's byte from SRC_BASE is inside the image (R61, R62). -/
theorem pixelOffset_lt {w h x y k : Nat} (hx : x < w) (hy : y < h) (hk : k < 4) : 4 * (y * w + x) + k < w * h * 4 := by
  have hrows : (y + 1) * w ≤ h * w := Nat.mul_le_mul_right w hy
  rw [Nat.succ_mul, Nat.mul_comm h w] at hrows
  omega

/-- A job's source bytes sit at offsets from its SRC_BASE that only the width and the coordinates fix (R62). -/
theorem srcAddr_add (j : Job) (x y k : Nat) : srcAddr j x y + k = j.srcBase.toNat + (4 * (y * j.w.toNat + x) + k) :=
  Nat.add_assoc ..

section
variable {m m' : Memory} {j j' : Job}

theorem SameImage.memRead_srcAddr (h : SameImage m m' j j') {x y k : Nat} (hx : x < j.w.toNat) (hy : y < j.h.toNat)
    (hk : k < 4) : memRead m (srcAddr j x y + k) = memRead m' (srcAddr j' x y + k) := by
  rw [srcAddr_add, srcAddr_add, ← h.width]
  exact h.bytes _ (pixelOffset_lt hx hy hk)

theorem SameImage.memPixel_srcAddr (h : SameImage m m' j j') {x y : Nat} (hx : x < j.w.toNat) (hy : y < j.h.toNat) :
    memPixel m (srcAddr j x y) = memPixel m' (srcAddr j' x y) := by
  have hbyte {k : Nat} (hk : k < 4) := h.memRead_srcAddr hx hy hk
  have hfirst : memRead m (srcAddr j x y) = memRead m' (srcAddr j' x y) := hbyte (k := 0) (by decide)
  rw [memPixel, memPixel, hfirst, hbyte (k := 1) (by decide), hbyte (k := 2) (by decide), hbyte (k := 3) (by decide)]

/-- The clamp keeps every sampled coordinate inside a nonempty image, so P(x, y) never looks past the source (R150, R151). -/
theorem SameImage.imagePixel_eq (h : SameImage m m' j j') (hw : 0 < j.w.toNat) (hh : 0 < j.h.toNat) (x y : Int) :
    imagePixel m j x y = imagePixel m' j' x y := by
  rw [imagePixel, imagePixel, ← h.width, ← h.height]
  exact h.memPixel_srcAddr (clamp_lt x hw) (clamp_lt y hh)

/-- One image gives one window at every pixel (R157). -/
theorem SameImage.imageWindow_eq (h : SameImage m m' j j') (hw : 0 < j.w.toNat) (hh : 0 < j.h.toNat) (x y : Nat) :
    imageWindow m j x y = imageWindow m' j' x y := by
  funext dy dx
  exact h.imagePixel_eq hw hh _ _

end

/-! What is computed from the window. -/

section
variable {m m' : Memory} {j j' : Job} {x y : Nat}

theorem imageSignature_congr (b : Build) (hwin : imageWindow m j x y = imageWindow m' j' x y) :
    imageSignature b m j x y = imageSignature b m' j' x y := by
  rw [imageSignature, hwin, ← imageSignature]

theorem imageResolved_congr (b : Build) (hwin : imageWindow m j x y = imageWindow m' j' x y) :
    imageResolved b m j x y = imageResolved b m' j' x y := by
  rw [imageResolved, imageSignature_congr b hwin, hwin, ← imageResolved]

/-- Of a job's fields a pixel of the block takes the factor; everything else reaches it through the window (R261). -/
theorem scaledPixel_congr (b : Build) (hn : j.n = j'.n) (hwin : imageWindow m j x y = imageWindow m' j' x y) (si sj : Nat) :
    scaledPixel b m j x y si sj = scaledPixel b m' j' x y si sj := by
  rw [scaledPixel, imageResolved_congr b hwin, hn, hwin, ← scaledPixel]

end

/-- Settles O54: one image gives one window, and the signature and the block are functions of the window, N and the build. -/
theorem outputDependsOnlyOnTheSourceImage : Obligations.OutputDependsOnlyOnTheSourceImage := by
  intro b m m' j j' hwidth hheight hn hw hh hbytes x y si sj
  have himage : SameImage m m' j j' := ⟨hwidth, hheight, hbytes⟩
  have hwin := himage.imageWindow_eq hw hh x y
  exact ⟨scaledPixel_congr b hn hwin si sj, imageSignature_congr b hwin⟩

end Sys2Proof.Machine
end

