-- ==== Sys2Proof/Proofs/EdgeClassifier.lean ====
section
/-! The edge classifier (42_edge_classifier.md R170 to R180): what CORNER_CLASSIFY gives in each order of its two sums, the corners of
an image, the quarter turn, and the widths of the sums. -/

namespace Sys2Proof.Machine

/-! The marks of a corner. -/

/-- A pixel that may be marked gets a mark exactly when it differs from both its neighbours (R171). -/
theorem markIf_dominance_ne_none_iff {t : Thresholds} {p n1 n2 : Pixel} {a b : Nat} :
    markIf p n1 n2 (dominance t a b) ≠ .none ↔ p ≠ n1 ∧ p ≠ n2 := by
  have hmark : dominance t a b ≠ .none := by
    unfold dominance
    split <;> decide
  simp [markIf, hmark]

/-- The mark is then DOMINANT exactly past the threshold (R173). -/
theorem markIf_dominance_eq_dominant_iff {t : Thresholds} {p n1 n2 : Pixel} {a b : Nat} :
    markIf p n1 n2 (dominance t a b) = .dominant ↔ (p ≠ n1 ∧ p ≠ n2) ∧ t.dominant.num * a < t.dominant.den * b := by
  rw [markIf]
  split
  next hdiff => simp [dominance, hdiff]
  next hsame => simp [hsame]

theorem markIf_comm (p n1 n2 : Pixel) (m : BlendType) : markIf p n1 n2 m = markIf p n2 n1 m := by
  simp only [markIf, and_comm]

/-- In a flat block every pixel equals one of its neighbours, so the flat-block test only saves the sums (R171). -/
theorem markIf_of_cornerFlat {k : CornerWindow} (h : cornerFlat k = true) (m : BlendType) :
    markIf k.pF k.pG k.pJ m = .none ∧ markIf k.pK k.pJ k.pG m = .none ∧
    markIf k.pJ k.pF k.pK m = .none ∧ markIf k.pG k.pF k.pK m = .none := by
  simp only [cornerFlat, Bool.or_eq_true, Bool.and_eq_true, beq_iff_eq] at h
  rcases h with ⟨hFG, hJK⟩ | ⟨hFJ, hGK⟩
  · simp [markIf, hFG, hJK]
  · simp [markIf, hFJ, hGK]

section
variable {t : Thresholds} {d : Pixel → Pixel → Nat} {k : CornerWindow}

theorem cornerClassify_of_flat (h : cornerFlat k = true) : cornerClassify t d k = noMarks := if_pos h

theorem cornerClassify_of_lt (h : sumJG t d k < sumFK t d k) :
    cornerClassify t d k = { noMarks with
      bF := markIf k.pF k.pG k.pJ (dominance t (sumJG t d k) (sumFK t d k))
      bK := markIf k.pK k.pJ k.pG (dominance t (sumJG t d k) (sumFK t d k)) } := by
  by_cases hflat : cornerFlat k = true
  · obtain ⟨hF, hK, -, -⟩ := markIf_of_cornerFlat hflat (dominance t (sumJG t d k) (sumFK t d k))
    rw [cornerClassify_of_flat hflat, hF, hK, noMarks]
  · simp only [cornerClassify, if_neg hflat, if_pos h]

theorem cornerClassify_of_gt (h : sumFK t d k < sumJG t d k) :
    cornerClassify t d k = { noMarks with
      bJ := markIf k.pJ k.pF k.pK (dominance t (sumFK t d k) (sumJG t d k))
      bG := markIf k.pG k.pF k.pK (dominance t (sumFK t d k) (sumJG t d k)) } := by
  by_cases hflat : cornerFlat k = true
  · obtain ⟨-, -, hJ, hG⟩ := markIf_of_cornerFlat hflat (dominance t (sumFK t d k) (sumJG t d k))
    rw [cornerClassify_of_flat hflat, hJ, hG, noMarks]
  · simp only [cornerClassify, if_neg hflat, if_neg h.not_gt, if_pos h]

theorem cornerClassify_of_eq (h : sumJG t d k = sumFK t d k) : cornerClassify t d k = noMarks := by
  simp only [cornerClassify, h, lt_irrefl, if_false, ite_self]

end

/-- The sums of R171 with the CENTER_WEIGHT of R11. -/
theorem sums_defaultThresholds (d : Pixel → Pixel → Nat) (k : CornerWindow) :
    sumJG defaultThresholds d k = d k.pI k.pF + d k.pF k.pC + d k.pN k.pK + d k.pK k.pH + 4 * d k.pJ k.pG ∧
    sumFK defaultThresholds d k = d k.pE k.pJ + d k.pJ k.pO + d k.pB k.pG + d k.pG k.pL + 4 * d k.pF k.pK := by
  simp only [sumJG, sumFK, defaultThresholds, Nat.one_mul, and_self]

/-- Settles O41: the three orders of the sums, with at most one diagonal's two pixels open to a mark in each. -/
theorem cornerMarksOneDiagonal : Obligations.CornerMarksOneDiagonal := by
  refine ⟨fun t d k => ?_, sums_defaultThresholds, rfl⟩
  rcases lt_trichotomy (sumJG t d k) (sumFK t d k) with h | h | h
  · rw [cornerClassify_of_lt h]
    simp +contextual [noMarks, h.ne, h.not_ge, h.not_gt, markIf_dominance_ne_none_iff, markIf_dominance_eq_dominant_iff]
  · simp [cornerClassify_of_eq h, noMarks, h]
  · rw [cornerClassify_of_gt h]
    simp +contextual [noMarks, h.ne', h.not_ge, h.not_gt, markIf_dominance_ne_none_iff, markIf_dominance_eq_dominant_iff]

/-! The quarter turn. -/

/-- The window of a picture turned a quarter turn clockwise (R180). -/
def Window.turn (w : Window) : Window := fun dy dx => w (-dx) dy

/-- A corner window turned so: row r, column c holds what row 3 − c, column r held. -/
def CornerWindow.turn (k : CornerWindow) : CornerWindow :=
  { pA := k.pM, pB := k.pI, pC := k.pE, pD := k.pA
    pE := k.pN, pF := k.pJ, pG := k.pF, pH := k.pB
    pI := k.pO, pJ := k.pK, pK := k.pG, pL := k.pC
    pM := k.pP, pN := k.pL, pO := k.pH, pP := k.pD }

/-- The marks carried along with the pixels that hold them. -/
def CornerMarks.turn (m : CornerMarks) : CornerMarks := { bF := m.bJ, bG := m.bF, bJ := m.bK, bK := m.bG }

/-- A corner of the turned picture is a corner of the picture, turned. -/
theorem cornerWindow_turn (w : Window) (ax ay : Int) : cornerWindow w.turn ax ay = (cornerWindow w ay (-ax - 1)).turn := by
  have h0 : -(ax - 1) = -ax - 1 + 2 := by ring
  have h1 : -ax = -ax - 1 + 1 := by ring
  have h2 : -(ax + 1) = -ax - 1 := by ring
  have h3 : -(ax + 2) = -ax - 1 - 1 := by ring
  simp only [cornerWindow, Window.turn, CornerWindow.turn, h0, h2, h3, ← h1]

section
variable {d : Pixel → Pixel → Nat}

/-- The turn carries each diagonal to the other one (R171). -/
theorem sumJG_turn (hd : ∀ p q, d p q = d q p) (t : Thresholds) (k : CornerWindow) : sumJG t d k.turn = sumFK t d k := by
  simp only [sumJG, sumFK, CornerWindow.turn, hd k.pO, hd k.pJ k.pE, hd k.pL, hd k.pG k.pB, hd k.pK k.pF]
  ring

theorem sumFK_turn (hd : ∀ p q, d p q = d q p) (t : Thresholds) (k : CornerWindow) : sumFK t d k.turn = sumJG t d k := by
  simp only [sumJG, sumFK, CornerWindow.turn, hd k.pN, hd k.pK k.pH, hd k.pI, hd k.pF k.pC]
  ring

theorem cornerClassify_turn (hd : ∀ p q, d p q = d q p) (t : Thresholds) (k : CornerWindow) :
    cornerClassify t d k.turn = (cornerClassify t d k).turn := by
  have hJG := sumJG_turn hd t k
  have hFK := sumFK_turn hd t k
  rcases lt_trichotomy (sumJG t d k) (sumFK t d k) with h | h | h
  · rw [cornerClassify_of_lt h, cornerClassify_of_gt (by rwa [hJG, hFK]), hJG, hFK]
    simp only [CornerMarks.turn, CornerWindow.turn, noMarks, markIf_comm k.pF, markIf_comm k.pK]
  · rw [cornerClassify_of_eq h, cornerClassify_of_eq (by rw [hJG, hFK, h])]
    rfl
  · rw [cornerClassify_of_gt h, cornerClassify_of_lt (by rwa [hJG, hFK]), hJG, hFK]
    simp only [CornerMarks.turn, CornerWindow.turn, noMarks, markIf_comm k.pG]

end

/-- Moving each field to the next corner clockwise, and the last one to the first, rotates the signature (R103). -/
theorem packSignature_rotate (tl tr br bl : BlendType) :
    packSignature bl tl tr br = (packSignature tl tr br bl <<< 2) ||| (packSignature tl tr br bl >>> 6) := by
  apply BitVec.eq_of_getLsbD_eq
  intro i hi
  simp only [packSignature, BitVec.getLsbD_or, BitVec.getLsbD_shiftLeft, BitVec.getLsbD_ushiftRight, BitVec.getLsbD_append]
  grind

/-- Settles O42: each corner of the turned window is the next corner of the window, turned, and its marks turn with it. -/
theorem turningThePictureTurnsTheSignature : Obligations.TurningThePictureTurnsTheSignature := by
  intro t d w hd
  calc signature t d w.turn
    _ = packSignature (cornerClassify t d (cornerWindow w (-1) 0)).bG (cornerClassify t d (cornerWindow w (-1) (-1))).bK
          (cornerClassify t d (cornerWindow w 0 (-1))).bJ (cornerClassify t d (cornerWindow w 0 0)).bF := by
      simp only [signature, cornerWindow_turn, cornerClassify_turn hd, CornerMarks.turn, neg_neg, neg_zero, zero_sub, sub_self]
    _ = (signature t d w <<< 2) ||| (signature t d w >>> 6) := packSignature_rotate ..

/-! The corners of an image. -/

/-- The four fields of a signature (R103). -/
theorem packSignature_fields (tl tr br bl : BlendType) :
    (packSignature tl tr br bl).extractLsb' 0 2 = blendCode tl ∧ (packSignature tl tr br bl).extractLsb' 2 2 = blendCode tr ∧
    (packSignature tl tr br bl).extractLsb' 4 2 = blendCode br ∧ (packSignature tl tr br bl).extractLsb' 6 2 = blendCode bl := by
  refine ⟨?_, ?_, ?_, ?_⟩ <;>
  · apply BitVec.eq_of_getLsbD_eq
    intro i hi
    simp only [packSignature, BitVec.getLsbD_extractLsb', BitVec.getLsbD_append]
    grind

/-- The marks the corner of an image anchored at (cx, cy) gives (R154, R171). -/
def imageCorner (b : Build) (m : Memory) (j : Job) (cx cy : Int) : CornerMarks :=
  cornerClassify b.thresholds (entryDist b) (cornerWindow (imageWindow m j 0 0) cx cy)

/-- A corner of a pixel's window is the image's corner there (R154). -/
theorem cornerWindow_imageWindow (m : Memory) (j : Job) (x y : Nat) (ax ay : Int) :
    cornerWindow (imageWindow m j x y) ax ay = cornerWindow (imageWindow m j 0 0) (x + ax) (y + ay) := by
  simp only [cornerWindow, imageWindow, Nat.cast_zero, zero_add, add_assoc, add_sub_assoc]

theorem imageSignature_eq (b : Build) (m : Memory) (j : Job) (x y : Nat) :
    imageSignature b m j x y = packSignature (imageCorner b m j ((x : Int) - 1) ((y : Int) - 1)).bK
      (imageCorner b m j x ((y : Int) - 1)).bJ (imageCorner b m j x y).bF (imageCorner b m j ((x : Int) - 1) y).bG := by
  simp only [imageSignature, signature, imageCorner, cornerWindow_imageWindow m j x y, add_zero, Int.sub_eq_add_neg]

/-- Across an edge of the image the clamp repeats the coordinate (R150). -/
theorem clamp_succ_of_edge {c : Int} {n : Nat} (hn : 0 < n) (h : c = -1 ∨ c = (n : Int) - 1) : clamp (c + 1) n = clamp c n := by
  unfold clamp
  split_ifs <;> omega

/-- Two equal columns or rows meet at a corner on the boundary, so its block is flat (R150, R171, R174). -/
theorem cornerFlat_of_boundary (m : Memory) {j : Job} {cx cy : Int} (hw : 0 < j.w.toNat) (hh : 0 < j.h.toNat)
    (h : cx = -1 ∨ cx = (j.w.toNat : Int) - 1 ∨ cy = -1 ∨ cy = (j.h.toNat : Int) - 1) :
    cornerFlat (cornerWindow (imageWindow m j 0 0) cx cy) = true := by
  rw [← or_assoc] at h
  rcases h with hcol | hrow
  · simp [cornerFlat, cornerWindow, imageWindow, imagePixel, clamp_succ_of_edge hw hcol]
  · simp [cornerFlat, cornerWindow, imageWindow, imagePixel, clamp_succ_of_edge hh hrow]

theorem imageCorner_of_boundary (b : Build) (m : Memory) {j : Job} {cx cy : Int} (hw : 0 < j.w.toNat) (hh : 0 < j.h.toNat)
    (h : cx = -1 ∨ cx = (j.w.toNat : Int) - 1 ∨ cy = -1 ∨ cy = (j.h.toNat : Int) - 1) : imageCorner b m j cx cy = noMarks :=
  cornerClassify_of_flat (cornerFlat_of_boundary m hw hh h)

/-- Settles O40: a boundary corner is flat, and the fields of the signature are the image's four corners at the pixel. -/
theorem borderCornersAreNone : Obligations.BorderCornersAreNone := by
  refine ⟨fun t d m j cx cy hw hh h => cornerClassify_of_flat (cornerFlat_of_boundary m hw hh h), fun b m j x y hx hy => ?_⟩
  have hnone {cx cy : Int} := imageCorner_of_boundary b m (cx := cx) (cy := cy) (Nat.zero_lt_of_lt hx) (Nat.zero_lt_of_lt hy)
  obtain ⟨hTL, hTR, hBR, hBL⟩ := packSignature_fields (imageCorner b m j ((x : Int) - 1) ((y : Int) - 1)).bK
    (imageCorner b m j x ((y : Int) - 1)).bJ (imageCorner b m j x y).bF (imageCorner b m j ((x : Int) - 1) y).bG
  rw [← imageSignature_eq] at hTL hTR hBR hBL
  refine ⟨⟨hTL, hTR, hBR, hBL⟩, fun hleft => ?_, fun htop => ?_, fun hright => ?_, fun hbottom => ?_⟩
  · rw [hTL, hBL, hnone (by omega), hnone (by omega)]
    decide
  · rw [hTL, hTR, hnone (by omega), hnone (by omega)]
    decide
  · rw [hTR, hBR, hnone (by omega), hnone (by omega)]
    decide
  · rw [hBR, hBL, hnone (by omega), hnone (by omega)]
    decide

/-! The widths of the datapath. -/

theorem entryDist_le {b : Build} (hb : b.coefficients = defaultCoefficients) (p q : Pixel) : entryDist b p q ≤ 87176 := by
  obtain ⟨hentry, -⟩ := everyEntryIsAtMost87176 b hb
  obtain ⟨hle, hword⟩ := hentry (lutIndex b.lutBits p q)
  rwa [entryDist, hword]

/-- With CENTER_WEIGHT = 4 a sum is four distances and four times a fifth (R172). -/
theorem sums_defaultThresholds_le {d : Pixel → Pixel → Nat} {D : Nat} (hd : ∀ p q, d p q ≤ D) (k : CornerWindow) :
    sumJG defaultThresholds d k ≤ 8 * D ∧ sumFK defaultThresholds d k ≤ 8 * D := by
  obtain ⟨hJG, hFK⟩ := sums_defaultThresholds d k
  rw [hJG, hFK]
  constructor
  · linarith [hd k.pI k.pF, hd k.pF k.pC, hd k.pN k.pK, hd k.pK k.pH, hd k.pJ k.pG]
  · linarith [hd k.pE k.pJ, hd k.pJ k.pO, hd k.pB k.pG, hd k.pG k.pL, hd k.pF k.pK]

/-- Settles O43: every distance is at most 87176 (R126), and the rest is the arithmetic of the constants. -/
theorem sumsFitTheDatapath : Obligations.SumsFitTheDatapath := by
  intro b k p q hb ht
  have hdist := entryDist_le hb p q
  obtain ⟨hJG, hFK⟩ := sums_defaultThresholds_le (entryDist_le hb) k
  have hdominant : defaultThresholds.dominant = ⟨36, 10⟩ := rfl
  have hsteep : defaultThresholds.steep.num = 22 := rfl
  simp only [ht, hdominant, hsteep]
  omega

end Sys2Proof.Machine
end

