-- ==== Sys2Proof/Proofs/BlendResolver.lean ====
section
/-! The blend resolver (43_blend_resolver.md R190 to R199, R210): the quarter turns, and what RESOLVE answers for one rotation. -/

namespace Sys2Proof.Machine

/-! The quarter turns. -/

/-- S_r carries each field of the signature r corners on, so its bottom-right field is the corner rotation r handles (R192). -/
theorem sigBR_rotSignature (s : BitVec 8) : sigBR (rotSignature 0 s) = sigBR s ∧ sigBR (rotSignature 1 s) = sigTR s ∧
    sigBR (rotSignature 2 s) = sigTL s ∧ sigBR (rotSignature 3 s) = sigBL s := by
  refine ⟨rfl, ?_, ?_, ?_⟩ <;>
  · refine congrArg BitVec.toNat (BitVec.eq_of_getLsbD_eq fun i _ => ?_)
    simp only [rotSignature, BitVec.getLsbD_extractLsb', BitVec.getLsbD_or, BitVec.getLsbD_shiftLeft,
      BitVec.getLsbD_ushiftRight]
    grind

/-- One more rotation is one more quarter turn of the block (R210). -/
theorem rotSub_succ {n r i j : Nat} (hr : r < 3) (hj : j < n) :
    rotSub n (r + 1) i j = (n - 1 - (rotSub n r i j).2, (rotSub n r i j).1) := by
  interval_cases r
  · rfl
  · rfl
  · exact Prod.ext (show j = n - 1 - (n - 1 - j) by omega) rfl

/-- Settles O44: each turn has four values, and each is computed. -/
theorem rotationsHandleTheirCorners : Obligations.RotationsHandleTheirCorners := by
  refine ⟨fun l => ?_, sigBR_rotSignature, fun n _ => ?_, fun n r i j hr _ hj => rotSub_succ hr hj⟩
  · cases l <;> decide
  · simp [rotSub]

/-! The slope of a line blend. -/

section
variable {t : Thresholds} {d : Pixel → Pixel → Nat} {s : BitVec 8} {k : Kernel} {r : Nat}

theorem similar_iff {p q : Pixel} :
    similar t d p q = true ↔ t.equalTolerance.den * d p q < t.equalTolerance.num * 2 ^ 8 := decide_eq_true_iff

/-- Each slope is its case of the two tests (R195). -/
theorem linePattern_iff :
    (linePattern t d k = .steepAndShallow ↔ lineShallow t d k = true ∧ lineSteep t d k = true) ∧
    (linePattern t d k = .shallow ↔ lineShallow t d k = true ∧ ¬lineSteep t d k = true) ∧
    (linePattern t d k = .steep ↔ lineSteep t d k = true ∧ ¬lineShallow t d k = true) ∧
    (linePattern t d k = .diagonal ↔ ¬lineShallow t d k = true ∧ ¬lineSteep t d k = true) := by
  unfold linePattern
  cases lineShallow t d k <;> cases lineSteep t d k <;> decide

/-- A line blend has one of the four slopes (R195). -/
theorem linePattern_mem : linePattern t d k ∈ [Pattern.diagonal, .shallow, .steep, .steepAndShallow] := by
  unfold linePattern
  split <;> decide

theorem linePattern_ne_none : linePattern t d k ≠ .none := fun h => absurd (h ▸ linePattern_mem) (by decide)

theorem linePattern_ne_corner : linePattern t d k ≠ .corner := fun h => absurd (h ▸ linePattern_mem) (by decide)

/-- With STEEP_THRESHOLD = 22/10 each of the two distances is at least 2.2 times the other only if both are 0 (R11, R195). -/
theorem distances_eq_zero_of_steepAndShallow (h : linePattern defaultThresholds d k = .steepAndShallow) :
    d (k .f) (k .g) = 0 ∧ d (k .h) (k .c) = 0 := by
  obtain ⟨hshallow, hsteep⟩ := linePattern_iff.1.1 h
  obtain ⟨hfg, -⟩ := decide_eq_true_iff.1 hshallow
  obtain ⟨hhc, -⟩ := decide_eq_true_iff.1 hsteep
  have hthreshold : defaultThresholds.steep = ⟨22, 10⟩ := rfl
  simp only [hthreshold] at hfg hhc
  omega

/-! Dominant-edge suppression. -/

/-- A DOMINANT corner blends as a line (R194). -/
theorem lineBlend_of_dominant (h : 2 ≤ sigBR s) : lineBlend t d s k = true := if_pos h

/-- What reduces a NORMAL corner to CORNER (R194): a marked neighbouring corner with a pixel across it that is not similar to e, or an
L-shape of similar pixels around a dissimilar i. -/
def ReducesToCorner (t : Thresholds) (d : Pixel → Pixel → Nat) (s : BitVec 8) (k : Kernel) : Prop :=
  sigTR s ≠ 0 ∧ ¬similar t d (k .e) (k .g) = true ∨ sigBL s ≠ 0 ∧ ¬similar t d (k .e) (k .c) = true ∨
    ¬similar t d (k .e) (k .i) = true ∧ similar t d (k .g) (k .h) = true ∧ similar t d (k .h) (k .i) = true ∧
      similar t d (k .i) (k .f) = true ∧ similar t d (k .f) (k .c) = true

theorem lineBlend_of_normal (h : sigBR s = 1) : lineBlend t d s k = true ↔ ¬ReducesToCorner t d s k := by
  have hnormal : ¬2 ≤ sigBR s := by omega
  simp only [lineBlend, ge_iff_le, if_neg hnormal, ReducesToCorner, ← Bool.not_eq_true]
  split
  next hTR => simp [hTR]
  next hTR =>
    split
    next hBL => simp [hBL]
    next hBL =>
      split
      next hL => simp [hL]
      next hL => simp only [hTR, hBL, hL, or_self, not_false_eq_true]

/-! The answer of one rotation. -/

theorem resolve_of_unmarked (h : sigBR (rotSignature r s) = 0) :
    resolve t d s k r = { pattern := .none, sel := false, partner := none } := if_pos (by omega)

theorem resolve_of_marked (h : sigBR (rotSignature r s) ≠ 0) : resolve t d s k r =
    { pattern := if lineBlend t d (rotSignature r s) (rotKernel r k) then linePattern t d (rotKernel r k) else .corner
      sel := partnerSelect d (rotKernel r k)
      partner := some (partnerLetter r (partnerSelect d (rotKernel r k))) } := if_neg (by omega)

/-- A marked corner's pattern is its slope where it blends as a line and CORNER where it does not (R193, R194). -/
theorem resolve_pattern_of_marked (h : sigBR (rotSignature r s) ≠ 0) :
    ((resolve t d s k r).pattern = .corner ↔ ¬lineBlend t d (rotSignature r s) (rotKernel r k) = true) ∧
    (lineBlend t d (rotSignature r s) (rotKernel r k) = true → (resolve t d s k r).pattern = linePattern t d (rotKernel r k)) := by
  rw [resolve_of_marked h]
  split
  next hline => simp [hline, linePattern_ne_corner]
  next hcorner => simp [hcorner]

/-- A rotation resolves to NONE exactly when its corner is unmarked (R193). -/
theorem resolve_pattern_eq_none_iff : (resolve t d s k r).pattern = .none ↔ sigBR (rotSignature r s) = 0 := by
  refine ⟨fun hnone => ?_, fun h => by rw [resolve_of_unmarked h]⟩
  by_contra hmarked
  obtain ⟨hcorner, hline⟩ := resolve_pattern_of_marked (t := t) (d := d) (k := k) hmarked
  by_cases hblend : lineBlend t d (rotSignature r s) (rotKernel r k) = true
  · exact linePattern_ne_none ((hline hblend).symm.trans hnone)
  · exact absurd (hnone.symm.trans (hcorner.2 hblend)) (by decide)

theorem resolve_of_pattern_none (h : (resolve t d s k r).pattern = .none) :
    resolve t d s k r = { pattern := .none, sel := false, partner := none } :=
  resolve_of_unmarked (resolve_pattern_eq_none_iff.1 h)

/-- A resolved corner blends with the letter its partner select names (R193, R196). -/
theorem resolve_of_pattern_ne_none (h : (resolve t d s k r).pattern ≠ .none) :
    (resolve t d s k r).sel = partnerSelect d (rotKernel r k) ∧
    (resolve t d s k r).partner = some (partnerLetter r (resolve t d s k r).sel) := by
  rw [resolve_of_marked (mt resolve_pattern_eq_none_iff.2 h)]
  exact ⟨rfl, rfl⟩

end

/-! The partner. -/

/-- The edge neighbours of the centre: the letters a rotation can blend with (R196). -/
def edgeNeighbours : List Letter := [.b, .d, .f, .h]

theorem quarterTurn_mem_edgeNeighbours : ∀ l ∈ edgeNeighbours, quarterTurn l ∈ edgeNeighbours := by decide

theorem rotLetter_mem_edgeNeighbours (r : Nat) {l : Letter} (hl : l ∈ edgeNeighbours) : rotLetter r l ∈ edgeNeighbours := by
  induction r with
  | zero => exact hl
  | succ r ih => exact quarterTurn_mem_edgeNeighbours _ ih

theorem partnerLetter_mem_edgeNeighbours (r : Nat) (sel : Bool) : partnerLetter r sel ∈ edgeNeighbours := by
  cases sel
  · exact rotLetter_mem_edgeNeighbours r (l := .f) (by decide)
  · exact rotLetter_mem_edgeNeighbours r (l := .h) (by decide)

theorem rotLetter_e (r : Nat) : rotLetter r .e = .e := by
  induction r with
  | zero => rfl
  | succ r ih => rw [rotLetter, ih]; rfl

/-- The h neighbour is selected exactly when it is strictly nearer (R196). -/
theorem partnerSelect_rotKernel_iff {d : Pixel → Pixel → Nat} {k : Kernel} {r : Nat} :
    partnerSelect d (rotKernel r k) = true ↔ d (k .e) (k (rotLetter r .h)) < d (k .e) (k (rotLetter r .f)) := by
  simp only [partnerSelect, rotKernel, rotLetter_e, decide_eq_true_iff, not_le]

theorem mem_edgeNeighbours_of_resolve {t : Thresholds} {d : Pixel → Pixel → Nat} {s : BitVec 8} {k : Kernel} {r : Nat} {p : Letter}
    (h : (resolve t d s k r).partner = some p) : p ∈ edgeNeighbours := by
  by_cases hnone : (resolve t d s k r).pattern = .none
  · rw [resolve_of_pattern_none hnone] at h
    cases h
  · rw [(resolve_of_pattern_ne_none hnone).2] at h
    cases h
    exact partnerLetter_mem_edgeNeighbours ..

/-- Settles O45: an unmarked corner answers NONE, a marked one the letter of the comparison R196 makes. -/
theorem resolvePicksTheNearerEdgeNeighbour : Obligations.ResolvePicksTheNearerEdgeNeighbour := by
  intro t d s k r _
  refine ⟨resolve_pattern_eq_none_iff, fun hnone => ?_, fun hmarked => ?_⟩
  · rw [resolve_of_pattern_none hnone]
    exact ⟨rfl, rfl⟩
  · obtain ⟨hsel, hpartner⟩ := resolve_of_pattern_ne_none hmarked
    rw [hpartner, hsel]
    refine ⟨fun hnear => ?_, fun hfar => ?_, _, rfl, partnerLetter_mem_edgeNeighbours ..⟩
    · have hf : partnerSelect d (rotKernel r k) = false := Bool.eq_false_iff.2 (mt partnerSelect_rotKernel_iff.1 hnear.not_gt)
      exact ⟨hf, by rw [hf]; rfl⟩
    · have hh := partnerSelect_rotKernel_iff.2 hfar
      exact ⟨hh, by rw [hh]; rfl⟩

/-- Settles O46: the two facts of `resolve_pattern_of_marked`, with the blend of each strength, and the two tests of each slope. -/
theorem lineBlendsAndSlopesAreExact : Obligations.LineBlendsAndSlopesAreExact := by
  refine ⟨fun t d s k r => ?_, fun t d k => ?_, fun d p q => ?_, rfl, fun d k => distances_eq_zero_of_steepAndShallow⟩
  · refine ⟨resolve_pattern_eq_none_iff.2, fun hnormal => ?_, fun hdominant => ?_⟩
    · have hblend := lineBlend_of_normal (t := t) (d := d) (k := rotKernel r k) hnormal
      obtain ⟨hcorner, hline⟩ := resolve_pattern_of_marked (t := t) (d := d) (k := k) (show sigBR (rotSignature r s) ≠ 0 by omega)
      simp only [hblend, not_not, ReducesToCorner, similar_iff] at hcorner hline
      exact ⟨hcorner, hline⟩
    · obtain ⟨-, hline⟩ := resolve_pattern_of_marked (t := t) (d := d) (k := k) (show sigBR (rotSignature r s) ≠ 0 by omega)
      have hpat := hline (lineBlend_of_dominant hdominant)
      exact ⟨hpat, hpat ▸ linePattern_ne_corner⟩
  · have hslopes := linePattern_iff (t := t) (d := d) (k := k)
    simpa only [lineShallow, lineSteep, decide_eq_true_iff] using hslopes
  · rw [similar_iff]
    exact iff_of_eq (by simp only [defaultThresholds, Nat.one_mul]; rfl)

end Sys2Proof.Machine
end

