-- ==== Sys2Proof/Proofs/WeightMap.lean ====
section
/-! The blend catalogue and the weight map (43_blend_resolver.md R199 to R215): the shape of the lists, what the pattern word fixes, and
what every blend keeps of a weight vector. -/

namespace Sys2Proof.Machine

/-! The catalogue. -/

theorem catalogueList_none (c : Catalogue) (n : Nat) : catalogueList c n .none = [] := by
  unfold catalogueList
  split <;> rfl

/-- Only a supported factor and a blend pattern have operations (R201, R302). -/
theorem supported_of_mem_catalogueList {c : Catalogue} {n : Nat} {p : Pattern} {o : CatOp} (h : o ∈ catalogueList c n p) :
    n ∈ supportedFactors ∧ p ∈ blendPatterns := by
  refine ⟨?_, ?_⟩
  · unfold catalogueList at h
    split at h
    case h_6 => cases h
    all_goals decide
  · cases p
    case none =>
      rw [catalogueList_none] at h
      cases h
    all_goals decide

/-- The blend fractions of a well-formed catalogue lie in (0, 1] (R200). -/
theorem catFraction_mem_of_wf {c : Catalogue} (hc : catalogueWf c = true) {n : Nat} {p : Pattern} {o : CatOp}
    (h : o ∈ catalogueList c n p) : 0 < catFraction o ∧ catFraction o ≤ 1 := by
  obtain ⟨hn, hp⟩ := supported_of_mem_catalogueList h
  have hlist := List.all_eq_true.1 (List.all_eq_true.1 hc n hn) p hp
  obtain ⟨hops, -⟩ := Bool.and_eq_true_iff.1 hlist
  obtain ⟨-, -, hnum, hden⟩ := of_decide_eq_true (List.all_eq_true.1 hops o h)
  have hpos : (0 : ℚ) < o.num := Nat.cast_pos.2 hnum
  have hle : (o.num : ℚ) ≤ o.den := Nat.cast_le.2 hden
  exact ⟨div_pos hpos (hpos.trans_le hle), div_le_one_of_le₀ hle (hpos.le.trans hle)⟩

/-- The denominators R205 to R209 use are factors of 30 cubed (R212). -/
theorem den_dvd_of_mem_defaultCatalogue : ∀ n ∈ supportedFactors, ∀ p ∈ blendPatterns,
    ∀ o ∈ catalogueList defaultCatalogue n p, o.den ∣ 30 ^ 3 := by decide

/-- Every operation lies in the lower-right triangle of the block and none on its centre (R203). -/
theorem triangle_of_mem_defaultCatalogue : ∀ n ∈ supportedFactors, ∀ p ∈ blendPatterns,
    ∀ o ∈ catalogueList defaultCatalogue n p, o.i < n ∧ o.j < n ∧ n - 1 ≤ o.i + o.j ∧ ¬(2 * o.i = n - 1 ∧ 2 * o.j = n - 1) := by
  decide

theorem fractions_and_places_of_defaultCatalogue : ∀ n ∈ supportedFactors, ∀ p ∈ blendPatterns,
    (∀ o ∈ catalogueList defaultCatalogue n p, 0 < o.num ∧ o.num ≤ o.den) ∧
    ((catalogueList defaultCatalogue n p).map fun o => (o.i, o.j)).Nodup := by decide

/-- For every sub-pixel there is a rotation whose turned triangle holds it at most as the block's centre (R203, R210). -/
theorem exists_rotation_off_triangle {n i j : Nat} (hj : j < n) : ∃ r < 4,
    ∀ a b, a < n → b < n → n - 1 ≤ a + b → ¬(2 * a = n - 1 ∧ 2 * b = n - 1) → rotSub n r a b ≠ (i, j) := by
  have hside : i + j < n - 1 ∨ n - 1 < i + j ∨ i < j ∨ j < i ∨ 2 * i = n - 1 ∧ 2 * j = n - 1 := by omega
  rcases hside with hbefore | hafter | hright | hbelow | hcentre
  on_goal 1 => refine ⟨0, by decide, ?_⟩
  on_goal 2 => refine ⟨2, by decide, ?_⟩
  on_goal 3 => refine ⟨3, by decide, ?_⟩
  on_goal 4 => refine ⟨1, by decide, ?_⟩
  on_goal 5 => refine ⟨0, by decide, ?_⟩
  all_goals
    intro a b ha hb htriangle hoff hplace
    simp only [rotSub, Prod.mk.injEq] at hplace
    omega

/-- Every sub-pixel is free of the operations of one rotation (R203). -/
theorem exists_free_rotation {n i j : Nat} (hj : j < n) : ∃ r < 4, ∀ p,
    ∀ o ∈ catalogueList defaultCatalogue n p, rotSub n r o.i o.j ≠ (i, j) := by
  obtain ⟨r, hr, hfree⟩ := exists_rotation_off_triangle hj
  refine ⟨r, hr, fun p o ho => ?_⟩
  obtain ⟨hn, hp⟩ := supported_of_mem_catalogueList ho
  obtain ⟨hoi, hoj, htriangle, hcentre⟩ := triangle_of_mem_defaultCatalogue n hn p hp o ho
  exact hfree o.i o.j hoi hoj htriangle hcentre

/-- Settles O47: the lists are finite and their shape is computed; the free rotation is `exists_free_rotation`. -/
theorem catalogueListsHaveTheirShape : Obligations.CatalogueListsHaveTheirShape := by
  refine ⟨by decide, fun n hn => ⟨catalogueList_none _ n, fun p hp => ⟨fun o ho => ?_, ?_⟩, ?_, ?_, ?_, fun i _ j hj => ?_⟩⟩
  · obtain ⟨hoi, hoj, htriangle, -⟩ := triangle_of_mem_defaultCatalogue n hn p hp o ho
    obtain ⟨hnum, hden⟩ := (fractions_and_places_of_defaultCatalogue n hn p hp).1 o ho
    refine ⟨hoi, hoj, htriangle, fun horigin => ?_, hnum, hden⟩
    have htwo : ∀ n ∈ supportedFactors, 2 ≤ n := by decide
    have := htwo n hn
    simp only [Prod.mk.injEq] at horigin
    omega
  · exact (fractions_and_places_of_defaultCatalogue n hn p hp).2
  · revert n
    decide
  · revert n
    decide
  · revert n
    decide
  · obtain ⟨r, hr, hfree⟩ := exists_free_rotation hj
    exact ⟨r, hr, fun p _ => hfree p⟩

/-! What the pattern word fixes. -/

/-- The pattern of a code; a code that R102 never produces counts as NONE. -/
def patternOfCode : BitVec 3 → Pattern
  | 1#3 => .corner
  | 2#3 => .diagonal
  | 3#3 => .shallow
  | 4#3 => .steep
  | 5#3 => .steepAndShallow
  | _ => .none

/-- The answer of rotation `r` that a nibble of the pattern word stands for (R104, R196, R199). -/
def resolvedOfNibble (r : Nat) (x : BitVec 4) : Resolved :=
  let pattern := patternOfCode (x.extractLsb' 0 3)
  if pattern = .none then { pattern := .none, sel := false, partner := none }
  else { pattern := pattern, sel := x.msb, partner := some (partnerLetter r x.msb) }

/-- The answer of rotation `r` that a pattern word stands for (R104, R199). -/
def resolvedOfWord (pw : BitVec 16) (r : Nat) : Resolved := resolvedOfNibble r (pw.extractLsb' (4 * r) 4)

theorem resolvedOfNibble_patternNibble (r : Nat) (p : Pattern) (sel : Bool) : resolvedOfNibble r (patternNibble p sel) =
    if p = .none then { pattern := .none, sel := false, partner := none }
    else { pattern := p, sel := sel, partner := some (partnerLetter r sel) } := by
  cases p <;> cases sel <;> rfl

/-- A rotation's nibble gives back its answer (R199). -/
theorem resolvedOfNibble_resolve (t : Thresholds) (d : Pixel → Pixel → Nat) (s : BitVec 8) (k : Kernel) (r : Nat) :
    resolvedOfNibble r (resolvedNibble (resolve t d s k r)) = resolve t d s k r := by
  rw [resolvedNibble, resolvedOfNibble_patternNibble]
  split
  next hnone => exact (resolve_of_pattern_none hnone).symm
  next hmarked => rw [← (resolve_of_pattern_ne_none hmarked).2]

theorem patternWord_nibble (res : Nat → Resolved) {r : Nat} (hr : r < 4) :
    (patternWord res).extractLsb' (4 * r) 4 = resolvedNibble (res r) := by
  apply BitVec.eq_of_getLsbD_eq
  intro i hi
  simp only [patternWord, packPatternWord, BitVec.getLsbD_extractLsb', BitVec.getLsbD_append]
  interval_cases r <;> grind

/-- The pattern word gives back the answers of the four rotations (R199). -/
theorem resolvedOfWord_patternWord (t : Thresholds) (d : Pixel → Pixel → Nat) (s : BitVec 8) (k : Kernel) {r : Nat} (hr : r < 4) :
    resolvedOfWord (patternWord (resolve t d s k)) r = resolve t d s k r := by
  rw [resolvedOfWord, patternWord_nibble _ hr, resolvedOfNibble_resolve]

theorem rotation_lt : ∀ r ∈ [0, 1, 2, 3], r < 4 := by decide

/-- The weight map looks at the answers of the four rotations only (R211). -/
theorem weightMap_congr {c : Catalogue} {n : Nat} {res res' : Nat → Resolved} (h : ∀ r < 4, res r = res' r) :
    weightMap c n res = weightMap c n res' := by
  have hrotation (wt : WeightMap) {r : Nat} (hr : r < 4) : applyRotation c n res wt r = applyRotation c n res' wt r := by
    rw [applyRotation, applyRotation, h r hr]
  exact List.foldl_ext _ _ _ fun wt r hr => hrotation wt (rotation_lt r hr)

/-- The weight map is a function of the pattern word and N (R199). -/
theorem weightMap_resolve (c : Catalogue) (n : Nat) (t : Thresholds) (d : Pixel → Pixel → Nat) (s : BitVec 8) (k : Kernel) :
    weightMap c n (resolve t d s k) = weightMap c n (resolvedOfWord (patternWord (resolve t d s k))) :=
  weightMap_congr fun _ hr => (resolvedOfWord_patternWord t d s k hr).symm

/-- Settles O48: both weight maps are that of the one pattern word. -/
theorem patternWordDeterminesTheWeights : Obligations.PatternWordDeterminesTheWeights := by
  intro c n t t' d d' s s' k k' hword
  rw [weightMap_resolve, hword, ← weightMap_resolve]

/-! What every blend keeps. -/

/-- A property of unit(e) that every blend on a sub-pixel keeps holds of the sub-pixel's weight vector (R211). -/
theorem weightMap_induction {c : Catalogue} {n : Nat} {res : Nat → Resolved} {i j : Nat} {P : Weights → Prop}
    (hunit : P (unitWeights .e))
    (hblend : ∀ r < 4, ∀ p, (res r).partner = some p → ∀ o ∈ catalogueList c n (res r).pattern, rotSub n r o.i o.j = (i, j) →
      ∀ w, P w → P (blendWeights (catFraction o) p w)) :
    P (weightMap c n res i j) := by
  refine List.foldlRecOn (motive := fun wt : WeightMap => P (wt i j)) [0, 1, 2, 3] _ hunit fun wt hwt r hr => ?_
  cases hp : (res r).partner with
  | none => simpa only [applyRotation, hp] using hwt
  | some p =>
    simp only [applyRotation, hp]
    refine List.foldlRecOn (motive := fun wt : WeightMap => P (wt i j)) _ _ hwt fun wt hwt o ho => ?_
    unfold applyCatOp
    split
    next hplace => exact hblend r (rotation_lt r hr) p hp o ho hplace.symm _ hwt
    next => exact hwt

/-- A weight vector that mixes the contributors (R212). -/
structure IsMix (w : Weights) : Prop where
  nonneg : ∀ l, 0 ≤ w l
  sum : w .e + w .b + w .d + w .f + w .h = 1
  others : ∀ l, l ∉ contributors → w l = 0

theorem isMix_unitWeights {l : Letter} (hl : l ∈ contributors) : IsMix (unitWeights l) where
  nonneg m := by
    unfold unitWeights
    split <;> decide
  sum := by
    fin_cases hl <;> simp [unitWeights]
  others m hm := if_neg fun h : m = l => hm (h ▸ hl)

/-- A blend of two mixes is one. -/
theorem IsMix.blend {w : Weights} (hw : IsMix w) {q : ℚ} (hq : 0 ≤ q) (hq' : q ≤ 1) {p : Letter} (hp : p ∈ contributors) :
    IsMix (blendWeights q p w) := by
  have hu := isMix_unitWeights hp
  constructor
  case nonneg =>
    intro l
    exact add_nonneg (mul_nonneg (sub_nonneg.2 hq') (hw.nonneg l)) (mul_nonneg hq (hu.nonneg l))
  case sum =>
    unfold blendWeights
    linear_combination (1 - q) * hw.sum + q * hu.sum
  case others =>
    intro l hl
    rw [blendWeights, hw.others l hl, hu.others l hl, mul_zero, mul_zero, add_zero]

/-- Every sub-pixel mixes the contributors, with any well-formed catalogue (R212). -/
theorem isMix_weightMap {c : Catalogue} (hc : catalogueWf c = true) (n : Nat) (t : Thresholds) (d : Pixel → Pixel → Nat)
    (s : BitVec 8) (k : Kernel) (i j : Nat) : IsMix (weightMap c n (resolve t d s k) i j) := by
  refine weightMap_induction (isMix_unitWeights (by decide)) fun r _ p hp o ho _ w hw => ?_
  obtain ⟨hpos, hle⟩ := catFraction_mem_of_wf hc ho
  exact hw.blend hpos.le hle (List.mem_cons_of_mem _ (mem_edgeNeighbours_of_resolve hp))

/-- A denominator with no prime factor but 2, 3 and 5 (R212). -/
def IsRegular (q : ℚ) : Prop := ∃ e : Nat, q.den ∣ 30 ^ e

theorem IsRegular.of_den_dvd {q q₁ q₂ : ℚ} (h₁ : IsRegular q₁) (h₂ : IsRegular q₂) (h : q.den ∣ q₁.den * q₂.den) : IsRegular q := by
  obtain ⟨e₁, he₁⟩ := h₁
  obtain ⟨e₂, he₂⟩ := h₂
  exact ⟨e₁ + e₂, h.trans (pow_add 30 e₁ e₂ ▸ mul_dvd_mul he₁ he₂)⟩

theorem IsRegular.add {q₁ q₂ : ℚ} (h₁ : IsRegular q₁) (h₂ : IsRegular q₂) : IsRegular (q₁ + q₂) :=
  h₁.of_den_dvd h₂ (Rat.add_den_dvd q₁ q₂)

theorem IsRegular.sub {q₁ q₂ : ℚ} (h₁ : IsRegular q₁) (h₂ : IsRegular q₂) : IsRegular (q₁ - q₂) :=
  h₁.of_den_dvd h₂ (Rat.sub_den_dvd q₁ q₂)

theorem IsRegular.mul {q₁ q₂ : ℚ} (h₁ : IsRegular q₁) (h₂ : IsRegular q₂) : IsRegular (q₁ * q₂) :=
  h₁.of_den_dvd h₂ (Rat.mul_den_dvd q₁ q₂)

theorem isRegular_one : IsRegular 1 := ⟨0, by decide⟩

theorem isRegular_unitWeights (l m : Letter) : IsRegular (unitWeights l m) := by
  unfold unitWeights
  split
  · exact isRegular_one
  · exact ⟨0, by decide⟩

theorem isRegular_catFraction {n : Nat} {p : Pattern} {o : CatOp} (h : o ∈ catalogueList defaultCatalogue n p) :
    IsRegular (catFraction o) := by
  obtain ⟨hn, hp⟩ := supported_of_mem_catalogueList h
  have hden : (catFraction o).den ∣ o.den := by
    have h := Rat.den_dvd o.num o.den
    rw [Rat.divInt_eq_div] at h
    exact Int.natCast_dvd_natCast.1 h
  exact ⟨3, hden.trans (den_dvd_of_mem_defaultCatalogue n hn p hp o h)⟩

/-- A blend has the denominators of its fraction and of the weights it blends (R212). -/
theorem isRegular_weightMap (n : Nat) (res : Nat → Resolved) (i j : Nat) :
    ∀ l, IsRegular (weightMap defaultCatalogue n res i j l) := by
  refine weightMap_induction (P := fun w => ∀ l, IsRegular (w l)) (isRegular_unitWeights .e) fun r _ p _ o ho _ w hw l => ?_
  have hq := isRegular_catFraction ho
  exact ((isRegular_one.sub hq).mul (hw l)).add (hq.mul (isRegular_unitWeights p l))

/-- Settles O49: unit(e) mixes the contributors with regular denominators, and every blend keeps both. -/
theorem weightsAreNonNegativeAndSumToOne : Obligations.WeightsAreNonNegativeAndSumToOne := by
  intro c n t d s k i j hc
  obtain ⟨hnonneg, hsum, hothers⟩ := isMix_weightMap hc n t d s k i j
  refine ⟨hnonneg, hsum, hothers .a (by decide), hothers .c (by decide), hothers .g (by decide), hothers .i (by decide), ?_⟩
  rintro rfl
  exact isRegular_weightMap n _ i j

/-! Contributors. -/

/-- A letter that is neither e nor a partner on the sub-pixel has weight 0 there (R211). -/
theorem weightMap_eq_zero {c : Catalogue} {n : Nat} {res : Nat → Resolved} {i j : Nat} {l : Letter} (hl : l ≠ .e)
    (h : ∀ r < 4, (res r).partner = some l → ∀ o ∈ catalogueList c n (res r).pattern, rotSub n r o.i o.j ≠ (i, j)) :
    weightMap c n res i j l = 0 := by
  refine weightMap_induction (P := fun w => w l = 0) (if_neg hl) fun r hr p hp o ho hplace w hw => ?_
  have hpl : l ≠ p := fun e => h r hr (e ▸ hp) o ho hplace
  simp [blendWeights, unitWeights, hw, hpl]

/-- Three rotations have at most three partners, so one of the four edge neighbours is none of them (R213). -/
theorem exists_edgeNeighbour_not_partner (res : Nat → Resolved) {r₀ : Nat} (hr₀ : r₀ < 4) :
    ∃ l ∈ edgeNeighbours, ∀ r < 4, r ≠ r₀ → (res r).partner ≠ some l := by
  by_contra! hall
  have hsub : edgeNeighbours.toFinset.image some ⊆ ((Finset.range 4).erase r₀).image fun r => (res r).partner := by
    intro x hx
    obtain ⟨l, hl, rfl⟩ := Finset.mem_image.1 hx
    obtain ⟨r, hr, hne, hpartner⟩ := hall l (List.mem_toFinset.1 hl)
    exact Finset.mem_image.2 ⟨r, Finset.mem_erase.2 ⟨hne, Finset.mem_range.2 hr⟩, hpartner⟩
  have hcard := (Finset.card_le_card hsub).trans Finset.card_image_le
  rw [Finset.card_erase_of_mem (Finset.mem_range.2 hr₀)] at hcard
  exact absurd hcard (by decide)

/-- Settles O50: the free rotation of R203 leaves three partners at most, and the pattern word fixes the weights of the vector. -/
theorem atMostFourContributors : Obligations.AtMostFourContributors := by
  refine ⟨fun n _ t d s k i j _ hj => ?_, fun t d s k hword => ?_⟩
  · obtain ⟨r₀, hr₀, hfree⟩ := exists_free_rotation hj
    obtain ⟨l, hl, hothers⟩ := exists_edgeNeighbour_not_partner (resolve t d s k) hr₀
    have hle : l ≠ .e := fun e => absurd (e ▸ hl) (by decide)
    refine ⟨l, hl, weightMap_eq_zero hle fun r hr hpartner => ?_⟩
    obtain rfl : r = r₀ := not_not.1 fun hne => hothers r hr hne hpartner
    exact hfree _
  · simp only [weightMap_resolve, hword]
    decide +kernel

/-! No marks. -/

theorem rotSignature_zero (r : Nat) : rotSignature r 0 = 0 := by
  cases r <;> simp [rotSignature]

/-- Where every rotation resolves to NONE no blend is made (R214). -/
theorem weightMap_of_all_none {c : Catalogue} {n : Nat} {res : Nat → Resolved} (h : ∀ r < 4, (res r).pattern = .none) (i j : Nat) :
    weightMap c n res i j = unitWeights .e := by
  refine weightMap_induction (P := (· = unitWeights .e)) rfl fun r hr p _ o ho => ?_
  rw [h r hr, catalogueList_none] at ho
  cases ho

/-- Rounding changes no channel value (R230). -/
theorem roundChannel_toNat (x : Byte) : roundChannel (x.toNat : ℚ) = x := by
  have hfloor : ((x.toNat : ℚ) + 1 / 2).floor = x.toNat := by
    refine le_antisymm (Int.le_of_lt_add_one (Rat.floor_lt_iff.2 ?_)) (Rat.le_floor_iff.2 ?_) <;>
    · push_cast
      linarith
  have hx := x.isLt
  rw [roundChannel, hfloor, clamp255, if_neg (by omega), if_neg (by omega), Int.toNat_natCast, BitVec.ofNat_toNat,
    BitVec.setWidth_eq]

theorem weightedSum_unitWeights_e (ch : Letter → Byte) : weightedSum (unitWeights .e) ch = (ch .e).toNat := by
  simp [weightedSum, contributors, unitWeights]

/-- The centre's weight alone gives the centre pixel (R214, R230). -/
theorem combine_unitWeights_e (k : Kernel) : combine (unitWeights .e) k = k .e := by
  simp only [combine, weightedSum_unitWeights_e, roundChannel_toNat]

/-- Settles O51: in both cases every rotation resolves to NONE. -/
theorem noMarksGiveNearestNeighbour : Obligations.NoMarksGiveNearestNeighbour := by
  intro c n t d s k hmarks i j
  have hnone : ∀ r < 4, (resolve t d s k r).pattern = .none := by
    rcases hmarks with rfl | hnone
    · intro r _
      rw [resolve_pattern_eq_none_iff, rotSignature_zero]
      rfl
    · exact hnone
  rw [weightMap_of_all_none hnone]
  exact ⟨rfl, combine_unitWeights_e k⟩

end Sys2Proof.Machine
end

