-- ==== Sys2Proof/Proofs/OutputCombiner.lean ====
section
/-! The output combiner (44_output_combiner.md R230 to R235): rounding to the nearest integer, the range of a mix of channel values, and
uniform images. -/

namespace Sys2Proof.Machine

/-! Rounding. -/

/-- The clamp changes no value a byte can hold (R230). -/
theorem clamp255_of_inside {n : Int} (h : 0 ≤ n) (h' : n ≤ 255) : (clamp255 n : Int) = n := by
  rw [clamp255, if_neg (by omega), if_neg (by omega), Int.toNat_of_nonneg h]

/-- Rounding half up keeps a value between natural bounds between them. -/
theorem floor_add_half_bounds {v : ℚ} {lo hi : Nat} (hlo : (lo : ℚ) ≤ v) (hhi : v ≤ hi) :
    (lo : Int) ≤ (v + 1 / 2).floor ∧ (v + 1 / 2).floor ≤ hi := by
  refine ⟨Rat.le_floor_iff.2 ?_, Int.le_of_lt_add_one (Rat.floor_lt_iff.2 ?_)⟩ <;>
  · push_cast
    linarith

/-- A channel value in range is rounded and not clamped (R230, R234). -/
theorem roundChannel_toNat_eq_floor {v : ℚ} (h : 0 ≤ v) (h' : v ≤ 255) :
    ((roundChannel v).toNat : Int) = (v + 1 / 2).floor := by
  obtain ⟨hlo, hhi⟩ := floor_add_half_bounds (lo := 0) (hi := 255) (by exact_mod_cast h) (by exact_mod_cast h')
  have hclamp := clamp255_of_inside hlo hhi
  rw [roundChannel, BitVec.toNat_ofNat, Nat.mod_eq_of_lt (by omega), hclamp]

/-- Settles O52: the rounded channel is floor(v + 1/2), which lies in (v − 1/2, v + 1/2]. -/
theorem channelsRoundHalfUp : Obligations.ChannelsRoundHalfUp := by
  intro v h h'
  have hround := roundChannel_toNat_eq_floor h h'
  have hvalue : ((roundChannel v).toNat : ℚ) = ((v + 1 / 2).floor : ℚ) := by rw [← hround, Int.cast_natCast]
  have hle := Rat.floor_le (v + 1 / 2)
  have hlt := Rat.lt_floor_add_one (v + 1 / 2)
  rw [Int.cast_add, Int.cast_one] at hlt
  refine ⟨hround, ?_, ?_⟩ <;> rw [hvalue] <;> linarith

/-! Mixes. -/

/-- A mix of one value is that value (R212). -/
theorem IsMix.sum_map_mul {w : Weights} (hw : IsMix w) (q : ℚ) : (contributors.map fun l => w l * q).sum = q := by
  simp only [contributors, List.map_cons, List.map_nil, List.sum_cons, List.sum_nil]
  linear_combination q * hw.sum

/-- The weighted sum of a channel lies between bounds of the channel over the contributors (R235). -/
theorem IsMix.weightedSum_bounds {w : Weights} (hw : IsMix w) {ch : Letter → Byte} {lo hi : Nat}
    (h : ∀ l ∈ contributors, lo ≤ (ch l).toNat ∧ (ch l).toNat ≤ hi) :
    (lo : ℚ) ≤ weightedSum w ch ∧ weightedSum w ch ≤ hi := by
  constructor
  · calc (lo : ℚ) = (contributors.map fun l => w l * (lo : ℚ)).sum := (hw.sum_map_mul _).symm
      _ ≤ weightedSum w ch := List.sum_le_sum fun l hl =>
        mul_le_mul_of_nonneg_left (Nat.cast_le.2 (h l hl).1) (hw.nonneg l)
  · calc weightedSum w ch ≤ (contributors.map fun l => w l * (hi : ℚ)).sum := List.sum_le_sum fun l hl =>
        mul_le_mul_of_nonneg_left (Nat.cast_le.2 (h l hl).2) (hw.nonneg l)
      _ = hi := hw.sum_map_mul _

/-- So does the rounded channel: the bounds are integers, and a weighted sum of bytes is in the range of a byte (R234, R235). -/
theorem IsMix.roundChannel_bounds {w : Weights} (hw : IsMix w) {ch : Letter → Byte} {lo hi : Nat}
    (h : ∀ l ∈ contributors, lo ≤ (ch l).toNat ∧ (ch l).toNat ≤ hi) :
    lo ≤ (roundChannel (weightedSum w ch)).toNat ∧ (roundChannel (weightedSum w ch)).toNat ≤ hi := by
  have hbyte : ∀ l ∈ contributors, 0 ≤ (ch l).toNat ∧ (ch l).toNat ≤ 255 := fun l _ =>
    ⟨Nat.zero_le _, Nat.le_of_lt_succ (ch l).isLt⟩
  obtain ⟨hpos, hmax⟩ := hw.weightedSum_bounds hbyte
  obtain ⟨hlo, hhi⟩ := hw.weightedSum_bounds h
  have hround := roundChannel_toNat_eq_floor (by exact_mod_cast hpos) (by exact_mod_cast hmax)
  obtain ⟨hlo', hhi'⟩ := floor_add_half_bounds hlo hhi
  omega

/-- The four channels of a pixel. -/
def channels : List (Pixel → Byte) := [fun p => p.r, fun p => p.g, fun p => p.b, fun p => p.a]

/-- COMBINE treats each channel alike, alpha included (R230, R233). -/
theorem channel_combine (w : Weights) (k : Kernel) {ch : Pixel → Byte} (hch : ch ∈ channels) :
    ch (combine w k) = roundChannel (weightedSum w fun l => ch (k l)) := by
  simp only [channels, List.mem_cons, List.not_mem_nil, or_false] at hch
  rcases hch with rfl | rfl | rfl | rfl <;> rfl

/-! Uniform images. -/

/-- A window of one colour has no marks: all its corners are flat (R171, R176). -/
theorem signature_uniform (t : Thresholds) (d : Pixel → Pixel → Nat) (p : Pixel) : signature t d (fun _ _ => p) = 0 := by
  have hflat (ax ay : Int) : cornerFlat (cornerWindow (fun _ _ => p) ax ay) = true := by simp [cornerFlat, cornerWindow]
  simp only [signature, cornerClassify_of_flat (hflat _ _)]
  decide

/-- A uniform image scales to its colour, with any catalogue (R214, R235). -/
theorem scaledPixel_uniform (b : Build) {m : Memory} {j : Job} {p : Pixel} (h : ∀ x y, imagePixel m j x y = p)
    (x y si sj : Nat) : scaledPixel b m j x y si sj = p := by
  have hwindow : imageWindow m j x y = fun _ _ => p := by
    funext dy dx
    exact h _ _
  have hsignature : imageSignature b m j x y = 0 := by rw [imageSignature, hwindow, signature_uniform]
  obtain ⟨-, hcentre⟩ := noMarksGiveNearestNeighbour b.catalogue j.n.toNat b.thresholds (entryDist b)
    (imageSignature b m j x y) (kernelOf (imageWindow m j x y)) (.inl hsignature) si sj
  exact hcentre.trans (h _ _)

/-- Settles O53: the weights are a mix of the contributors, and a uniform image has no marks. -/
theorem outputStaysInTheContributorsRange : Obligations.OutputStaysInTheContributorsRange := by
  refine ⟨fun c n t d s k i j hc ch hch lo hi hrange => ?_, fun b m j p huniform => scaledPixel_uniform b huniform⟩
  rw [channel_combine _ k hch]
  exact (isMix_weightMap hc n t d s k i j).roundChannel_bounds hrange

end Sys2Proof.Machine
end

