-- ==== Sys2Proof/Proofs/PixelSteps.lean ====
section
/-! One pixel step of a SCALE job: what the block leaves in host memory, the memory events recorded, and the step itself (20_memory.md
R73, 41_neighborhood_sampler.md R156, 44_output_combiner.md R232, 45_commands.md R266 to R268). -/

namespace Sys2Proof.Machine

/-! Reads after a list of writes. -/

/-- After writes that put nothing but `b` at an address they reach, the address holds `b`. -/
theorem memRead_memWriteAll_of_mem {cs : List Host.Cell} {m : Memory} {a : Nat} {b : Byte} (hm : Memory.wf m = true)
    (hspace : ∀ c ∈ cs, c.1 < addrSpace) (hvalue : ∀ c ∈ cs, c.1 = a → c.2 = b) (ha : ∃ c ∈ cs, c.1 = a) :
    memRead (memWriteAll m cs) a = b := by
  induction cs using List.reverseRecOn with
  | nil => simp at ha
  | append_singleton cs c ih =>
    simp only [List.mem_append, List.mem_singleton, or_imp, forall_and, forall_eq] at hspace hvalue
    obtain ⟨hspace, -⟩ := hspace
    obtain ⟨hvalue, hlast⟩ := hvalue
    have hstep : memWriteAll m (cs ++ [c]) = memWrite (memWriteAll m cs) c.1 c.2 := by
      simp only [memWriteAll, List.foldl_append, List.foldl_cons, List.foldl_nil]
    rw [hstep, memRead_memWrite (memWriteAll_wf hm hspace)]
    split
    next hac => exact hlast hac.symm
    next hac =>
      obtain ⟨c', hc', rfl⟩ := ha
      obtain hc' | hc' := List.mem_append.1 hc'
      · exact ih hspace hvalue ⟨c', hc', rfl⟩
      · exact absurd (congrArg Prod.fst (List.mem_singleton.1 hc')) hac

/-! The block in host memory. -/

/-- The writes of a block are the bytes of its pixels, each at its address (R63, R232). -/
theorem mem_scaledCells {b : Build} {j : Job} {m : Memory} {y x : Nat} {c : Host.Cell} : c ∈ scaledCells b j m y x ↔
    ∃ si < j.n.toNat, ∃ sj < j.n.toNat, ∃ k < 4,
      c = (dstAddr j x y si sj + k, (pixelBytes (scaledPixel b m j x y si sj)).getD k 0) := by
  have hpixel (a : Nat) (p : Pixel) : pixelCells a p = (List.range 4).map fun k => (a + k, (pixelBytes p).getD k 0) := rfl
  simp only [scaledCells, hpixel, List.mem_flatMap, List.mem_map, List.mem_range, eq_comm]

/-- A block leaves every byte outside it alone (R232). -/
theorem memRead_scaleBlock_of_outside {b : Build} {j : Job} {m : Memory} {y x a : Nat}
    (ha : ∀ si sj k, si < j.n.toNat → sj < j.n.toNat → k < 4 → a ≠ dstAddr j x y si sj + k) :
    memRead (scaleBlock b j y m x) a = memRead m a := by
  refine memRead_foldl_memWrite_ne (scaledCells b j m y x) Prod.fst Prod.snd m fun c hc => ?_
  obtain ⟨si, hi, sj, hj, k, hk, rfl⟩ := mem_scaledCells.1 hc
  exact ha si sj k hi hj hk

section
variable {b : Build} {j : Job} {m : Memory} {y x si sj : Nat}

/-- The layout gives each byte of a block its own address, so the block holds the bytes written (R63, R232). -/
theorem memRead_scaleBlock (hm : Memory.wf m = true) (hvalid : ScaleValid j) (hf : j.rowFirst.toNat ≤ y)
    (hl : y < j.rowLast.toNat) (hx : x < j.w.toNat) (hi : si < j.n.toNat) (hj : sj < j.n.toNat) {k : Nat} (hk : k < 4) :
    memRead (scaleBlock b j y m x) (dstAddr j x y si sj + k) = (pixelBytes (scaledPixel b m j x y si sj)).getD k 0 := by
  refine memRead_memWriteAll_of_mem hm (fun c hc => ?_) (fun c hc ha => ?_)
    ⟨_, mem_scaledCells.2 ⟨si, hi, sj, hj, k, hk, rfl⟩, rfl⟩ <;>
    obtain ⟨si', hi', sj', hj', k', hk', rfl⟩ := mem_scaledCells.1 hc
  · exact lt_addrSpace_of_inDest hvalid (inDest_dstAddr hx hf hl hi' hj' hk')
  · have hplace := congrArg (destPlace j) ha
    rw [destPlace_dstAddr y hx hi' hj' hk', destPlace_dstAddr y hx hi hj hk] at hplace
    simp only [Prod.mk.injEq, true_and] at hplace
    obtain ⟨rfl, rfl, rfl⟩ := hplace
    rfl

/-- After a block its output pixels are those of the image (R232, R261). -/
theorem memPixel_scaleBlock (hm : Memory.wf m = true) (hvalid : ScaleValid j) (hf : j.rowFirst.toNat ≤ y)
    (hl : y < j.rowLast.toNat) (hx : x < j.w.toNat) (hi : si < j.n.toNat) (hj : sj < j.n.toNat) :
    memPixel (scaleBlock b j y m x) (dstAddr j x y si sj) = scaledPixel b m j x y si sj := by
  have hbyte {k : Nat} (hk : k < 4) := memRead_scaleBlock (b := b) hm hvalid hf hl hx hi hj hk
  rw [memPixel, hbyte (k := 1) (by decide), hbyte (k := 2) (by decide), hbyte (k := 3) (by decide)]
  exact congrArg (fun r => unpack4 r _ _ _) (hbyte (k := 0) (by decide))

end

/-! The window's reads rise strictly. -/

theorem clamp_mono {v w : Int} (n : Nat) (h : v ≤ w) : clamp v n ≤ clamp w n := by
  unfold clamp
  split_ifs <;> omega

theorem srcAddr_le_srcAddr (j : Job) {x x' : Nat} (y : Nat) (h : x ≤ x') : srcAddr j x y ≤ srcAddr j x' y := by
  unfold srcAddr
  omega

/-- A pixel of a later row stands at a higher address (R62). -/
theorem srcAddr_lt_srcAddr_of_row_lt {j : Job} {x x' y y' : Nat} (hx : x < j.w.toNat) (hy : y < y') :
    srcAddr j x y < srcAddr j x' y' := by
  have hrow : (y + 1) * j.w.toNat ≤ y' * j.w.toNat := Nat.mul_le_mul_right _ hy
  rw [Nat.succ_mul] at hrow
  unfold srcAddr
  omega

theorem windowOffsets_pairwise_le : windowOffsets.Pairwise (· ≤ ·) := by decide

theorem windowRow_pairwise_le (j : Job) (x row : Nat) : (windowRow j x row).Pairwise (· ≤ ·) :=
  windowOffsets_pairwise_le.map _ fun _ _ h => srcAddr_le_srcAddr j row (clamp_mono _ (Int.add_le_add_left h _))

/-- SAMPLE reads in the order of rising addresses, each distinct address once (R156, R267). -/
theorem windowAddrs_pairwise_lt {j : Job} (hw : 0 < j.w.toNat) (x y : Nat) : (windowAddrs j x y).Pairwise (· < ·) := by
  have hrows : (windowOffsets.map fun dy => clamp ((y : Int) + dy) j.h.toNat).Pairwise (· ≤ ·) :=
    windowOffsets_pairwise_le.map _ fun _ _ h => clamp_mono _ (Int.add_le_add_left h _)
  have habove (c c' : Nat) (hc : c < c') : ∀ a ∈ windowRow j x c, ∀ b ∈ windowRow j x c', a < b := by
    simp only [windowRow, List.forall_mem_map]
    exact fun _ _ _ _ => srcAddr_lt_srcAddr_of_row_lt (clamp_lt _ hw) hc
  have hlt := flatMap_eraseDups_pairwise_lt (windowRow_pairwise_le j x) habove hrows
  rwa [List.flatMap_map] at hlt

/-- SAMPLE reads from 1 to 25 pixels (R156). -/
theorem windowAddrs_length {j : Job} (hw : 0 < j.w.toNat) (x y : Nat) :
    1 ≤ (windowAddrs j x y).length ∧ (windowAddrs j x y).length ≤ 25 := by
  constructor
  · have hcentre : srcAddr j (clamp ((x : Int) + 0) j.w.toNat) (clamp ((y : Int) + 0) j.h.toNat) ∈ windowAddrs j x y :=
      mem_windowAddrs.2 ⟨0, 0, by decide, by decide, rfl⟩
    exact List.length_pos_of_mem hcentre
  · have hnodup : (windowAddrs j x y).Nodup := (windowAddrs_pairwise_lt hw x y).imp ne_of_lt
    exact (List.subperm_of_subset hnodup fun _ => List.mem_eraseDups.1).length_le

/-! The pixel step. -/

/-- `s` with no cancel requested. What a pixel step computes does not depend on a request (R270). -/
def State.uncancelled (s : State) : State := { s with ctrl := { s.ctrl with cancel := false } }

/-- What the invariant says of a running SCALE job at a pixel (R41, R253, R266). -/
theorem Invariant.scaling {s : State} (hs : Invariant s) {y x : Nat} (heng : s.eng = .scale y x) :
    s.status.busy = true ∧ s.lut = lutFill s.build ∧ cursorInJob s.job y x = true := by
  have hjob := hs.job
  simp only [JobMatchesEngine, heng] at hjob
  obtain ⟨-, hready, hcursor, -⟩ := hjob
  have hbusy : s.status.busy ≠ false := fun hidle => by simp [hs.busy.1 hidle] at heng
  exact ⟨Bool.eq_true_of_not_eq_false hbusy, hs.lut hready, hcursor⟩

/-- Without a race a pixel step of a reachable state computes what a quiet job computes. -/
theorem Invariant.quietScale_uncancelled {s : State} (hs : Invariant s) {y x : Nat} (heng : s.eng = .scale y x)
    (hold : s.race.srcOld = []) (hcontested : s.race.contested = []) : QuietScale s.uncancelled := by
  obtain ⟨hbusy, hlut, hcursor⟩ := hs.scaling heng
  obtain ⟨hvalid, -⟩ := cursorInJob_iff.1 hcursor
  exact ⟨hvalid, hbusy, rfl, hlut, hold, hcontested⟩

/-- A pixel of the job's rows is processed unless a cancel is honoured before it (R266, R270). -/
theorem engineStep_eq_pixelStep {s : State} {y x : Nat} (hbusy : s.status.busy = true) (heng : s.eng = .scale y x)
    (hcursor : cursorInJob s.job y x = true) (hrow : y ≠ s.job.rowLast.toNat) (hcancel : x = 0 → s.ctrl.cancel = false) :
    engineStep s = .next (pixelStep y x s) := by
  have hhonoured : ¬(x = 0 ∧ s.ctrl.cancel = true) := fun ⟨hx, hc⟩ => by simp [hcancel hx] at hc
  simp only [engineStep, hbusy, heng, scaleStep, hcursor, if_true, if_neg hhonoured, if_neg fun h => hrow (And.right h)]

/-- Apart from memory and the event record a pixel step moves the cursor and counts finished rows (R266, R268). -/
theorem pixelStep_frame (y x : Nat) (s : State) : pixelStep y x s =
    { s with
      mem := (pixelStep y x s).mem
      events := (pixelStep y x s).events
      eng := if x + 1 = s.job.w.toNat then .scale (y + 1) 0 else .scale y (x + 1)
      rowsDone := if x + 1 = s.job.w.toNat then s.rowsDone + 1 else s.rowsDone } := by
  simp only [pixelStep_mem, pixelStep_events]
  unfold pixelStep advanceCursor
  split <;> rfl

/-- Settles O28: without a race the block is that of the image in memory, and the reads are the window's addresses. -/
theorem pixelStepWritesItsBlockAndAdvances : Obligations.PixelStepWritesItsBlockAndAdvances := by
  intro s y x hs heng hl hcancel hold hcontested
  obtain ⟨hbusy, -, hcursor⟩ := hs.scaling heng
  obtain ⟨hvalid, hf, -, hx, -⟩ := cursorInJob_iff.1 hcursor
  have hquiet := hs.quietScale_uncancelled heng hold hcontested
  have hmem : (pixelStep y x s).mem = scaleBlock s.build s.job y s.mem x :=
    (pixelStep_mem y x s).trans (hquiet.writeBlock_eq y x)
  have hpixel (si sj : Nat) : blockPixel s x y si sj = scaledPixel s.build s.mem s.job x y si sj :=
    hquiet.blockPixel_eq x y si sj
  refine ⟨pixelStep y x s, engineStep_eq_pixelStep hbusy heng hcursor hl.ne hcancel, pixelStep_frame y x s,
    fun si sj hi hj => ?_, fun a ha => ?_, windowAddrs s.job x y, windowAddrs_pairwise_lt hvalid.width x y, ?_, ?_,
    fun a => ?_, ?_⟩
  · rw [hmem, memPixel_scaleBlock hs.memory hvalid hf hl hx hi hj]
  · rw [hmem, memRead_scaleBlock_of_outside ha]
  · exact (windowAddrs_length hvalid.width x y).1
  · exact (windowAddrs_length hvalid.width x y).2
  · rw [mem_windowAddrs, exists_comm]
    simp only [and_left_comm]
  · rw [pixelStep_events, pixelEvents, sourceReads_eq hold, blockWrites_eq hold]
    simp only [hpixel]

end Sys2Proof.Machine
end

