-- ==== Sys2Proof/Proofs/ScaleResult.lean ====
section
/-! What a SCALE job leaves in host memory, when it runs to its end and when it is cancelled at a row boundary (20_memory.md R69, R75,
44_output_combiner.md R232, R236, 45_commands.md R260, R261, R266 to R270). -/

namespace Sys2Proof.Machine

/-! The blocks of a list of pixels. -/

/-- A pixel whose bytes stand at an address is the pixel read there (R61). -/
theorem memPixel_eq_of_bytes {m : Memory} {a : Nat} {p : Pixel}
    (h : ∀ k < 4, memRead m (a + k) = (pixelBytes p).getD k 0) : memPixel m a = p := by
  have hfirst : memRead m a = p.r := h 0 (by decide)
  rw [memPixel, hfirst, h 1 (by decide), h 2 (by decide), h 3 (by decide)]
  rfl

/-- The pixel (p.1, p.2), as row and column, is one of the job's rows (R266). -/
def InRows (j : Job) (p : Nat × Nat) : Prop := j.rowFirst.toNat ≤ p.1 ∧ p.1 < j.rowLast.toNat ∧ p.2 < j.w.toNat

/-- Memory after the blocks of the pixels `ps`, in order (R266). -/
def scalePixels (b : Build) (j : Job) (ps : List (Nat × Nat)) (m : Memory) : Memory :=
  ps.foldl (fun m p => scaleBlock b j p.1 m p.2) m

theorem scalePixels_concat (b : Build) (j : Job) (ps : List (Nat × Nat)) (p : Nat × Nat) (m : Memory) :
    scalePixels b j (ps ++ [p]) m = scaleBlock b j p.1 (scalePixels b j ps m) p.2 := by
  simp [scalePixels]

section
variable {b : Build} {j : Job} {m : Memory}

theorem scaleBlock_wf (hm : Memory.wf m = true) (hvalid : ScaleValid j) {p : Nat × Nat} (hp : InRows j p) :
    Memory.wf (scaleBlock b j p.1 m p.2) = true := by
  obtain ⟨hf, hl, hx⟩ := hp
  refine memWriteAll_wf hm fun c hc => ?_
  obtain ⟨si, hi, sj, hj, k, hk, rfl⟩ := mem_scaledCells.1 hc
  exact lt_addrSpace_of_inDest hvalid (inDest_dstAddr hx hf hl hi hj hk)

theorem scalePixels_wf (hm : Memory.wf m = true) (hvalid : ScaleValid j) {ps : List (Nat × Nat)}
    (hps : ∀ p ∈ ps, InRows j p) : Memory.wf (scalePixels b j ps m) = true := by
  induction ps generalizing m with
  | nil => exact hm
  | cons p ps ih =>
    obtain ⟨hp, hps⟩ := List.forall_mem_cons.1 hps
    exact ih (scaleBlock_wf hm hvalid hp) hps

/-- The blocks of the job's rows leave every byte outside those rows alone (R69, R75). -/
theorem memRead_scalePixels_of_outside {ps : List (Nat × Nat)} (hps : ∀ p ∈ ps, InRows j p) {a : Nat}
    (ha : inDest j a = false) : memRead (scalePixels b j ps m) a = memRead m a := by
  induction ps generalizing m with
  | nil => rfl
  | cons p ps ih =>
    obtain ⟨⟨hf, hl, hx⟩, hps⟩ := List.forall_mem_cons.1 hps
    refine (ih hps).trans (memRead_scaleBlock_of_outside ?_)
    rintro si sj k hi hj hk rfl
    simp [inDest_dstAddr hx hf hl hi hj hk] at ha

/-- The blocks leave the source image as it is, so each is computed from the image the job starts with (R69, R261, R305). -/
theorem scaledPixel_scalePixels (hvalid : ScaleValid j) {ps : List (Nat × Nat)} (hps : ∀ p ∈ ps, InRows j p)
    (x y si sj : Nat) : scaledPixel b (scalePixels b j ps m) j x y si sj = scaledPixel b m j x y si sj := by
  have himage : SameImage (scalePixels b j ps m) m j j := ⟨rfl, rfl, fun k hk => by
    have hsize : j.w.toNat * j.h.toNat * 4 = j.srcLen.toNat := hvalid.size
    have hsource : inSource j (j.srcBase.toNat + k) = true := inSource_iff.2 (by omega)
    exact memRead_scalePixels_of_outside hps (hvalid.inDest_of_inSource hsource)⟩
  exact scaledPixel_congr b rfl (himage.imageWindow_eq hvalid.width hvalid.height x y) si sj

/-- A block leaves the bytes of every other pixel's block alone: the layout gives no byte to two pixels (R63, R236). -/
theorem memRead_scaleBlock_of_ne {p q : Nat × Nat} (hp : p.2 < j.w.toNat) (hq : q.2 < j.w.toNat) (hpq : p ≠ q) {si sj k : Nat}
    (hi : si < j.n.toNat) (hj : sj < j.n.toNat) (hk : k < 4) :
    memRead (scaleBlock b j q.1 m q.2) (dstAddr j p.2 p.1 si sj + k) = memRead m (dstAddr j p.2 p.1 si sj + k) := by
  refine memRead_scaleBlock_of_outside fun si' sj' k' hi' hj' hk' ha => hpq ?_
  have hplace := congrArg (destPlace j) ha
  rw [destPlace_dstAddr p.1 hp hi hj hk, destPlace_dstAddr q.1 hq hi' hj' hk'] at hplace
  simp only [Prod.mk.injEq] at hplace
  obtain ⟨hx, hy, -⟩ := hplace
  exact Prod.ext hy hx

/-- Every pixel of the list has its block in place, whatever was written after it (R232, R261). -/
theorem memRead_scalePixels (hm : Memory.wf m = true) (hvalid : ScaleValid j) {ps : List (Nat × Nat)}
    (hps : ∀ p ∈ ps, InRows j p) {p : Nat × Nat} (hp : p ∈ ps) {si sj k : Nat} (hi : si < j.n.toNat) (hj : sj < j.n.toNat)
    (hk : k < 4) :
    memRead (scalePixels b j ps m) (dstAddr j p.2 p.1 si sj + k) =
      (pixelBytes (scaledPixel b m j p.2 p.1 si sj)).getD k 0 := by
  induction ps using List.reverseRecOn with
  | nil => simp at hp
  | append_singleton ps q ih =>
    obtain ⟨hinit, hlast⟩ := List.forall_mem_append.1 hps
    obtain ⟨hf, hl, hx⟩ : InRows j q := hlast q (List.mem_singleton_self q)
    rw [scalePixels_concat]
    by_cases hpq : p = q
    · subst hpq
      rw [memRead_scaleBlock (scalePixels_wf hm hvalid hinit) hvalid hf hl hx hi hj hk, scaledPixel_scalePixels hvalid hinit]
    · have hmem : p ∈ ps := (List.mem_append.1 hp).resolve_right fun h => hpq (List.mem_singleton.1 h)
      obtain ⟨-, -, hpx⟩ := hinit p hmem
      rw [memRead_scaleBlock_of_ne hpx hx hpq hi hj hk, ih hinit hmem]

end

/-! The rows of a job. -/

/-- The pixels of the `n` source rows from row `y` on, as rows and columns, in the order the engine takes them (R266). -/
def rowPixels (j : Job) (y n : Nat) : List (Nat × Nat) :=
  (List.range' y n).flatMap fun y => (List.range' 0 j.w.toNat).map fun x => (y, x)

theorem mem_rowPixels {j : Job} {y n : Nat} {p : Nat × Nat} :
    p ∈ rowPixels j y n ↔ (y ≤ p.1 ∧ p.1 < y + n) ∧ p.2 < j.w.toNat := by
  obtain ⟨py, px⟩ := p
  simp [rowPixels]

theorem scaleRows_eq_scalePixels (b : Build) (j : Job) (y n : Nat) (m : Memory) :
    scaleRows b j y n m = scalePixels b j (rowPixels j y n) m := by
  simp only [scaleRows, scaleColumns, scalePixels, rowPixels, List.foldl_flatMap, List.foldl_map]

/-- `m'` is `m` with the scaled block of every pixel of the job's rows in place, and nothing else changed (R260, R261). -/
structure RowsScaled (b : Build) (j : Job) (m m' : Memory) : Prop where
  block : ∀ {x y si sj k : Nat}, x < j.w.toNat → j.rowFirst.toNat ≤ y → y < j.rowLast.toNat → si < j.n.toNat → sj < j.n.toNat →
    k < 4 → memRead m' (dstAddr j x y si sj + k) = (pixelBytes (scaledPixel b m j x y si sj)).getD k 0
  outside : ∀ {a : Nat}, inDest j a = false → memRead m' a = memRead m a
  wf : Memory.wf m' = true

theorem RowsScaled.memPixel_eq {b : Build} {j : Job} {m m' : Memory} (h : RowsScaled b j m m') {x y si sj : Nat}
    (hx : x < j.w.toNat) (hf : j.rowFirst.toNat ≤ y) (hl : y < j.rowLast.toNat) (hi : si < j.n.toNat) (hj : sj < j.n.toNat) :
    memPixel m' (dstAddr j x y si sj) = scaledPixel b m j x y si sj :=
  memPixel_eq_of_bytes fun _ hk => h.block hx hf hl hi hj hk

/-- The rows of a validated job are scaled by the blocks of their pixels (R266). -/
theorem ScaleValid.rowsScaled {b : Build} {j : Job} {m : Memory} (hvalid : ScaleValid j) (hm : Memory.wf m = true) :
    RowsScaled b j m (scaleRows b j j.rowFirst.toNat (j.rowLast.toNat - j.rowFirst.toNat) m) := by
  have hlast : j.rowFirst.toNat + (j.rowLast.toNat - j.rowFirst.toNat) = j.rowLast.toNat :=
    Nat.add_sub_cancel' hvalid.rowsOrdered
  have hmem {p : Nat × Nat} : p ∈ rowPixels j j.rowFirst.toNat (j.rowLast.toNat - j.rowFirst.toNat) ↔ InRows j p := by
    rw [mem_rowPixels, hlast, InRows, and_assoc]
  rw [scaleRows_eq_scalePixels]
  exact {
    block := fun hx hf hl hi hj hk =>
      memRead_scalePixels hm hvalid (fun _ => hmem.1) (p := (_, _)) (hmem.2 ⟨hf, hl, hx⟩) hi hj hk
    outside := memRead_scalePixels_of_outside fun _ => hmem.1
    wf := scalePixels_wf hm hvalid fun _ => hmem.1 }

/-! A job that runs to its end. -/

/-- Settles O24: `scale_completes` gives the run and the state it ends in, whose memory has the job's rows scaled. -/
theorem scaleWritesEveryBlockOfItsRows : Obligations.ScaleWritesEveryBlockOfItsRows := by
  intro s hidle hlut hm hok j rows
  have hvalid : ScaleValid j := validateScale_ok.1 hok
  obtain ⟨t, hexec, hrun⟩ := scale_completes hidle hlut hvalid
  have hscaled : RowsScaled s.build j s.mem s.scaleDone.mem := hvalid.rowsScaled hm
  refine ⟨t, s.scaleDone, hexec, ?_, rfl, fun x y si sj k => hscaled.block, fun a => hscaled.outside, hscaled.wf⟩
  rw [Nat.add_assoc]
  exact hrun

/-- Bytes outside the destination image are bytes outside the job's rows (R69). -/
theorem ScaleValid.inDest_eq_false {j : Job} (hvalid : ScaleValid j) {a : Nat}
    (ha : a < j.dstBase.toNat ∨ j.dstBase.toNat + destBytes j ≤ a) : inDest j a = false := by
  have hlow : j.dstBase.toNat ≤ dstLow j := Nat.le_add_right _ _
  have hhigh := dstHigh_le hvalid.rowsInside
  rw [Bool.eq_false_iff, ne_eq, inDest_iff]
  omega

/-- Settles O25: the rows 0 to H are all the rows of the image. -/
theorem wholeImageScale : Obligations.WholeImageScale := by
  intro s hidle hlut hm hfirst hlast hok j
  have hvalid : ScaleValid j := validateScale_ok.1 hok
  have hscaled : RowsScaled s.build j s.mem s.scaleDone.mem := hvalid.rowsScaled hm
  have hf : j.rowFirst.toNat = 0 := congrArg BitVec.toNat hfirst
  have hl : j.rowLast.toNat = j.h.toNat := congrArg BitVec.toNat hlast
  obtain ⟨t, hexec, hrun⟩ := scale_completes hidle hlut hvalid
  refine ⟨t, _, s.scaleDone, hexec, hrun, rfl, rfl, rfl, fun x y si sj hx hy hi hj => ?_, fun a ha => ?_⟩
  · exact hscaled.memPixel_eq hx (hf ▸ y.zero_le) (hl ▸ hy) hi hj
  · exact hscaled.outside (hvalid.inDest_eq_false ha)

/-! SCALE steps (R266, R269, R270). -/

section
variable {s : State} {y x : Nat} (hin : cursorInJob s.job y x = true)
include hin

theorem scaleStep_finishes (hx : x = 0) (hrow : y = s.job.rowLast.toNat) :
    scaleStep y x s = .next (complete .ok (noEvents s)) := by
  rw [scaleStep, if_pos hin, if_pos ⟨hx, hrow⟩]

theorem scaleStep_cancels (hx : x = 0) (hrow : y ≠ s.job.rowLast.toNat) (hcancel : s.ctrl.cancel = true) :
    scaleStep y x s = .next (complete .cancelled { noEvents s with ctrl := { s.ctrl with cancel := false } }) := by
  rw [scaleStep, if_pos hin, if_neg fun h => hrow h.right, if_pos ⟨hx, hcancel⟩]

theorem scaleStep_writes (hrow : y ≠ s.job.rowLast.toNat) (hcancel : ¬(x = 0 ∧ s.ctrl.cancel = true)) :
    scaleStep y x s = .next (pixelStep y x s) := by
  rw [scaleStep, if_pos hin, if_neg fun h => hrow h.right, if_neg hcancel]

end

/-! A job that is cancelled. -/

/-- At the start of a row of the job the engine honours a cancel (R270). -/
theorem engineStep_cancelled {s : State} {y : Nat} (hbusy : s.status.busy = true) (heng : s.eng = .scale y 0)
    (hcursor : cursorInJob s.job y 0 = true) (hrow : y ≠ s.job.rowLast.toNat) (hcancel : s.ctrl.cancel = true) :
    engineStep s = .next (complete .cancelled { noEvents s with ctrl := { s.ctrl with cancel := false } }) := by
  simp only [engineStep, hbusy, heng, if_true]
  exact scaleStep_cancels hcursor rfl hrow hcancel

/-- The first `m` rows of a valid job, as a job of their own (R301). -/
def Job.firstRows (j : Job) (m : Nat) : Job := j.withRows j.rowFirst (BitVec.ofNat 32 (j.rowFirst.toNat + m))

theorem Job.firstRows_rowLast {j : Job} {m : Nat} (hm : m < j.rowLast.toNat - j.rowFirst.toNat) :
    (j.firstRows m).rowLast.toNat = j.rowFirst.toNat + m := by
  have hlast := j.rowLast.isLt
  exact Nat.mod_eq_of_lt (by omega)

theorem ScaleValid.firstRows {j : Job} (hvalid : ScaleValid j) {m : Nat} (hm : m < j.rowLast.toNat - j.rowFirst.toNat) :
    ScaleValid (j.firstRows m) := by
  have hlast : (BitVec.ofNat 32 (j.rowFirst.toNat + m)).toNat = j.rowFirst.toNat + m := Job.firstRows_rowLast hm
  have hinside := hvalid.rowsInside
  exact hvalid.withRows (by omega) (by omega)

/-- The blocks of the first `m` rows of a valid job (R268). -/
theorem ScaleValid.firstRows_scaled {b : Build} {j : Job} {mem : Memory} (hvalid : ScaleValid j) {m : Nat}
    (hm : m < j.rowLast.toNat - j.rowFirst.toNat) (hmem : Memory.wf mem = true) :
    RowsScaled b (j.firstRows m) mem (scaleRows b j j.rowFirst.toNat m mem) := by
  have hscaled := (hvalid.firstRows hm).rowsScaled (b := b) hmem
  have hcount : (j.firstRows m).rowLast.toNat - (j.firstRows m).rowFirst.toNat = m := by
    rw [Job.firstRows_rowLast hm]
    exact Nat.add_sub_cancel_left ..
  rw [hcount] at hscaled
  exact hscaled

/-- After the first `m` rows the running job stands at the start of the row after them (R266, R268). -/
theorem scale_reaches_row {s : State} (hidle : s.status.busy = false) (hlut : LutSound s)
    (hvalid : ScaleValid (jobOf 2 s.params)) {m : Nat} (hm : m ≤ s.params.rowLast.toNat - s.params.rowFirst.toNat) :
    ∃ t ev ev', exec .scale s = .next t ∧
      engineRun ((if s.status.lutReady then 0 else 1) + m * s.params.srcWidth.toNat) t =
        .next ((s.scaleStarted ev).atPixel (s.params.rowFirst.toNat + m) 0 (BitVec.ofNat 32 m)
          (scaleRows s.build (jobOf 2 s.params) s.params.rowFirst.toNat m s.mem) ev') := by
  obtain ⟨ev, hstart⟩ := scale_starts hlut
  have hordered : s.params.rowFirst.toNat ≤ s.params.rowLast.toNat := hvalid.rowsOrdered
  obtain ⟨ev', hrows⟩ := (quietScale_scaleStarted hvalid ev).run_rows (n := m) rfl le_rfl
    (show s.params.rowFirst.toNat + m ≤ s.params.rowLast.toNat by omega)
  have hcount : (s.scaleStarted ev).rowsDone + BitVec.ofNat 32 m = BitVec.ofNat 32 m := BitVec.zero_add _
  rw [hcount] at hrows
  exact ⟨_, ev, ev', exec_scale_of_valid hidle (validateScale_ok.2 hvalid), (engineRun_add hstart).trans hrows⟩

/-- Settles O26: the job stands at row `row_first + m` with the rows before it scaled, and its next step honours the cancel. -/
theorem cancelledScaleLeavesWholeRows : Obligations.CancelledScaleLeavesWholeRows := by
  intro s m hidle hlut hmem hok hm j
  have hvalid : ScaleValid j := validateScale_ok.1 hok
  have hscaled := hvalid.firstRows_scaled (b := s.build) hm hmem
  have hlast : (j.firstRows m).rowLast.toNat = j.rowFirst.toNat + m := Job.firstRows_rowLast hm
  have hbefore : j.rowFirst.toNat + m < j.rowLast.toNat := Nat.add_lt_of_lt_sub' hm
  have hcursor : cursorInJob j (j.rowFirst.toNat + m) 0 = true :=
    cursorInJob_iff.2 ⟨hvalid, Nat.le_add_right _ _, hbefore.le, hvalid.width, fun _ => rfl⟩
  obtain ⟨t, ev, ev', hexec, hrun⟩ := scale_reaches_row hidle hlut hvalid hm.le
  refine ⟨t, _, _, hexec, hrun, hostWrite_ctrl 2 _, engineStep_cancelled rfl rfl hcursor hbefore.ne rfl,
    fun x y si sj hx hf hl hi hj => ?_, fun a ha => hscaled.outside ?_⟩
  · exact hscaled.memPixel_eq hx hf (hlast ▸ hl) hi hj
  · rw [Bool.eq_false_iff, ne_eq, inDest_iff, dstHigh, hlast]
    exact fun ⟨hlow, hhigh⟩ => ha.elim hlow.not_gt hhigh.not_ge

end Sys2Proof.Machine
end

