-- ==== Sys2Proof/Proofs/Acceptance.lean ====
section
/-! CMD writes: dropped while a job runs, accepted while none does (45_commands.md R250 to R252, R258). -/

namespace Sys2Proof.Machine

/-! While a job runs. -/

theorem issue_of_busy {s : State} (hbusy : s.status.busy = true) (v : Word) (start : State → State) :
    issue v start s = { s with status := { s.status with ovr := true } } := if_pos hbusy

theorem exec_of_busy {s : State} (hbusy : s.status.busy = true) (i : Instr) :
    exec i s = .next { s with status := { s.status with ovr := true } } := by
  rw [exec_eq_issue_startOf, issue_of_busy hbusy]

/-- Settles O14: a word that decodes and one that does not are both issued, and `issue` looks at BUSY first. -/
theorem commandWhileBusyIsDropped : Obligations.CommandWhileBusyIsDropped := by
  refine fun s hbusy => ⟨fun v => ?_, exec_of_busy hbusy⟩
  rcases commandWrite_cases v s with ⟨i, -, h⟩ | ⟨e, -, h⟩ <;> rw [h]
  · exact exec_of_busy hbusy i
  · rw [issue_of_busy hbusy]

/-! While no job runs. -/

/-- A command that validation accepts runs its START from the latched state (R251, R252). -/
theorem exec_of_valid {s : State} (hidle : s.status.busy = false) {i : Instr}
    (hvalid : validate (encode i) (latch (encode i) s).job = .ok) : exec i s = .next (startOf i (latch (encode i) s)) := by
  rw [exec_eq_issue_startOf, issue, hidle]
  exact congrArg _ (accept_ok (startOf i) hvalid)

/-- Settles O20: NOP has no operands to reject, and its START is COMPLETE(OK). -/
theorem nopCompletesAtAcceptance : Obligations.NopCompletesAtAcceptance :=
  ⟨fun _ hidle => exec_of_valid hidle (validate_encode_nop _), fun _ hbusy => exec_of_busy hbusy .nop⟩

/-- What a CMD write does while no job runs: validation accepts the word of a command, whose START follows, or rejects the word, which
completes with validation's code (R250, R251). -/
theorem commandWrite_of_idle {s : State} (hidle : s.status.busy = false) (v : Word) :
    (∃ i, v = encode i ∧ validate v (latch v s).job = .ok ∧ commandWrite v s = .next (startOf i (latch v s))) ∨
    (validate v (latch v s).job ≠ .ok ∧ commandWrite v s = .next (complete (validate v (latch v s).job) (latch v s))) := by
  by_cases hvalid : validate v (latch v s).job = .ok
  · rcases commandWrite_cases v s with ⟨i, hdecode, h⟩ | ⟨e, hdecode, -⟩
    · obtain rfl := eq_encode_of_decodeWord hdecode
      exact .inl ⟨i, rfl, hvalid, h.trans (exec_of_valid hidle hvalid)⟩
    · rw [validate_illegal _ hdecode] at hvalid
      cases hvalid
  · have hissue (start : State → State) : issue v start s = complete (validate v (latch v s).job) (latch v s) := by
      rw [issue, hidle]
      exact accept_rejected start hvalid
    refine .inr ⟨hvalid, ?_⟩
    rcases commandWrite_cases v s with ⟨i, hdecode, h⟩ | ⟨e, -, h⟩ <;> rw [h]
    · rw [exec_eq_issue_startOf, ← eq_encode_of_decodeWord hdecode, hissue]
    · rw [hissue]

/-- A START leaves the latched job alone (R40, R252). -/
theorem startOf_job (i : Instr) (s : State) : (startOf i s).job = s.job := by cases i <;> rfl

/-- What an accepted command changes by the time it has started: JOB, the flags, CANCEL, ROWS_DONE, ENG and the model's race record
(R251, R252). -/
theorem startOf_latch_frame (i : Instr) (v : Word) (s : State) :
    startOf i (latch v s) =
      { s with
        job := (startOf i (latch v s)).job
        status := (startOf i (latch v s)).status
        ctrl := { s.ctrl with cancel := false }
        rowsDone := 0
        eng := (startOf i (latch v s)).eng
        race := (startOf i (latch v s)).race } := by
  cases i <;> rfl

/-- Of the flags a START from the latched state writes BUSY and DONE only (R251, R252). -/
theorem startOf_latch_flags (i : Instr) (v : Word) (s : State) :
    (startOf i (latch v s)).status.ovr = s.status.ovr ∧ (startOf i (latch v s)).status.lutReady = s.status.lutReady ∧
      (startOf i (latch v s)).status.err = .ok := by
  cases i <;> exact ⟨rfl, rfl, rfl⟩

/-- What starts: nothing for NOP, a BUILD step for LUT_INIT, and for the others their own step if the LUT is ready, else a BUILD step
(R252). -/
theorem startOf_latch_starts (i : Instr) (s : State) :
    let t := startOf i (latch (encode i) s)
    encode i = 0x00000000#32 ∧ t.status.busy = false ∧ t.status.done = true ∧ t.eng = .idle ∨
    encode i = 0x00000001#32 ∧ t.status.busy = true ∧ t.status.done = false ∧ t.eng = .build .none ∨
    encode i = 0x00000003#32 ∧ t.status.busy = true ∧ t.status.done = false ∧
      t.eng = (if s.status.lutReady then .dist else .build .dist) ∨
    encode i = 0x00000004#32 ∧ t.status.busy = true ∧ t.status.done = false ∧
      t.eng = (if s.status.lutReady then .classify else .build .classify) ∨
    encode i = 0x00000002#32 ∧ t.status.busy = true ∧ t.status.done = false ∧
      t.eng = (if s.status.lutReady then .scale (regRead s 0x30).toNat 0 else .build .scale) := by
  cases i with
  | nop => exact .inl ⟨rfl, rfl, rfl, rfl⟩
  | lutInit => exact .inr (.inl ⟨rfl, rfl, rfl, rfl⟩)
  | dist => exact .inr (.inr (.inl ⟨rfl, rfl, rfl, rfl⟩))
  | classify => exact .inr (.inr (.inr (.inl ⟨rfl, rfl, rfl, rfl⟩)))
  | scale => exact .inr (.inr (.inr (.inr ⟨rfl, rfl, rfl, rfl⟩)))

/-- Settles O15: a rejected word completes from the latched state, and an accepted one is the word of a command, whose START follows. -/
theorem acceptanceLatchesClearsAndStarts : Obligations.AcceptanceLatchesClearsAndStarts := by
  intro s v hidle
  rcases commandWrite_of_idle hidle v with ⟨i, rfl, hvalid, h⟩ | ⟨hrejected, h⟩
  · have hjob := startOf_job i (latch (encode i) s)
    have hframe := startOf_latch_frame i (encode i) s
    obtain ⟨hovr, hready, herr⟩ := startOf_latch_flags i (encode i) s
    refine ⟨_, h, hjob, congrArg (fun t => t.ctrl.cancel) hframe, congrArg State.rowsDone hframe, hframe, hovr, hready,
      fun hrejected => ?_, fun _ => ⟨herr, startOf_latch_starts i s⟩⟩
    rw [hjob] at hrejected
    exact absurd hvalid hrejected
  · exact ⟨_, h, rfl, rfl, rfl, rfl, rfl, rfl, fun _ => ⟨rfl, rfl, rfl, rfl⟩, fun hvalid => absurd hvalid hrejected⟩

end Sys2Proof.Machine
end

