-- ==== Sys2Proof/Proofs/EngineTurns.lean ====
section
/-! What an engine step does not look at: the schedule and the count of draws while no host access races with the job, and CANCEL away
from a row boundary (45_commands.md R254, R255, R270). -/

namespace Sys2Proof.Machine

/-- The change `f` of a state is one that BUSY, ENG and JOB do not show, and that a BUILD, DIST or CLASSIFY step carries along. -/
structure CarriedAlong (f : State → State) (s : State) : Prop where
  status : (f s).status = s.status
  eng : (f s).eng = s.eng
  job : (f s).job = s.job
  build : ∀ n, buildStep n (f s) = f (buildStep n s)
  dist : distStep (f s) = f (distStep s)
  classify : classifyResult (f s) = f (classifyResult s)

/-- If a SCALE step carries the change along too, an engine step does (R254). -/
theorem CarriedAlong.engineStep {f : State → State} {s t : State} (h : CarriedAlong f s)
    (hscale : ∀ y x, s.eng = .scale y x → scaleStep y x s = .next t → scaleStep y x (f s) = .next (f t))
    (hstep : engineStep s = .next t) : engineStep (f s) = .next (f t) := by
  rcases engineStep_next hstep with ⟨hidle, rfl⟩ | ⟨hbusy, ⟨n, heng, rfl⟩ | ⟨heng, rfl⟩ | ⟨heng, hclassify⟩ | ⟨y, x, heng, hs⟩⟩
  · exact engineStep_of_idle (h.status ▸ hidle)
  · simp [Machine.engineStep, h.status, h.eng, hbusy, heng, h.build]
  · simp [Machine.engineStep, h.status, h.eng, hbusy, heng, h.dist]
  · obtain ⟨hvalid, rfl⟩ := classifyStep_next hclassify
    simp [Machine.engineStep, h.status, h.eng, hbusy, heng, classifyStep, h.job, hvalid, h.classify]
  · simp [Machine.engineStep, h.status, h.eng, hbusy, heng, hscale y x heng hs]

/-! CANCEL. -/

/-- `s` with a cancel requested (R25). -/
def State.withCancel (s : State) : State := { s with ctrl := { s.ctrl with cancel := true } }

theorem carriedAlong_withCancel (s : State) : CarriedAlong State.withCancel s where
  status := rfl
  eng := rfl
  job := rfl
  build n := by cases n <;> rfl
  dist := rfl
  classify := rfl

theorem pixelStep_withCancel (y x : Nat) (s : State) : pixelStep y x s.withCancel = (pixelStep y x s).withCancel := by
  simp only [pixelStep, advanceCursor, apply_ite State.withCancel]
  rfl

/-- Of the SCALE steps only the one that starts a row of the job reads CANCEL (R270). -/
theorem scaleStep_withCancel {y x : Nat} {s t : State} (hstart : x = 0 → y = s.job.rowLast.toNat)
    (h : scaleStep y x s = .next t) : scaleStep y x s.withCancel = .next t.withCancel := by
  obtain ⟨hin, ⟨hx, hrow, rfl⟩ | ⟨hx, hrow, -⟩ | ⟨hrow, -, rfl⟩⟩ := scaleStep_next h
  · exact scaleStep_finishes (s := s.withCancel) hin hx hrow
  · exact absurd (hstart hx) hrow
  · rw [scaleStep_writes (s := s.withCancel) hin hrow fun ⟨hx, _⟩ => hrow (hstart hx), pixelStep_withCancel]

/-- Settles O27: a step that is not at the start of a row carries CANCEL along. -/
theorem cancelIsTestedOnlyAtRowBoundaries : Obligations.CancelIsTestedOnlyAtRowBoundaries := by
  intro s t hboundary hstep
  refine (carriedAlong_withCancel s).engineStep (fun y x heng => scaleStep_withCancel ?_) hstep
  rintro rfl
  exact hboundary y heng

/-! The schedule and the count of draws. -/

/-- `s` with these turns still to come and this count of draws (log entries 3 and 7). -/
def State.atTurn (s : State) (sch : List Turn) (tick : Nat) : State := { s with schedule := sch, tick := tick }

section
variable {s : State} (hold : s.race.srcOld = []) (sch : List Turn) (tick : Nat)
include hold

theorem sample_atTurn (x y : Nat) : sample (s.atTurn sch tick) x y = sample s x y := by
  rw [sample_eq_imageWindow hold, sample_eq_imageWindow (s := s.atTurn sch tick) hold]
  rfl

theorem sourceReads_atTurn (x y : Nat) : sourceReads (s.atTurn sch tick) x y = sourceReads s x y := by
  rw [sourceReads_eq hold, sourceReads_eq (s := s.atTurn sch tick) hold]
  rfl

theorem blockPixel_atTurn (x y si sj : Nat) : blockPixel (s.atTurn sch tick) x y si sj = blockPixel s x y si sj := by
  simp only [blockPixel, resolvedAt, signatureAt, kernelAt, sample_atTurn hold]
  rfl

theorem pixelEvents_atTurn (x y : Nat) : pixelEvents (s.atTurn sch tick) x y = pixelEvents s x y := by
  simp only [pixelEvents, sourceReads_atTurn hold, blockWrites_eq hold, blockWrites_eq (s := s.atTurn sch tick) hold,
    blockPixel_atTurn hold]
  rfl

/-- With no source byte raced for, only a SCALE step can draw. -/
theorem carriedAlong_atTurn : CarriedAlong (fun u => u.atTurn sch tick) s where
  status := rfl
  eng := rfl
  job := rfl
  build n := by cases n <;> rfl
  dist := rfl
  classify := by
    simp only [classifyResult, resolvedAt, signatureAt, kernelAt, sample_atTurn hold, sourceReads_atTurn hold]
    rfl

section
variable (hcontested : s.race.contested = [])
include hcontested

theorem writeBlock_atTurn (x y : Nat) : writeBlock (s.atTurn sch tick) x y = writeBlock s x y := by
  have hstore : engineStore (s.atTurn sch tick) = engineStore s := by
    funext m c
    simp [engineStore, jobByte, State.atTurn, hold, hcontested]
  have hcells : blockCells (s.atTurn sch tick) x y = blockCells s x y := by
    simp only [blockCells, blockPixel_atTurn hold]
    rfl
  rw [writeBlock, hstore, hcells]
  rfl

theorem pixelStep_atTurn (y x : Nat) : pixelStep y x (s.atTurn sch tick) = (pixelStep y x s).atTurn sch tick := by
  simp only [pixelStep, advanceCursor, writeBlock_atTurn hold sch tick hcontested, pixelEvents_atTurn hold,
    apply_ite fun u : State => u.atTurn sch tick]
  rfl

theorem scaleStep_atTurn {t : State} {y x : Nat} (h : scaleStep y x s = .next t) :
    scaleStep y x (s.atTurn sch tick) = .next (t.atTurn sch tick) := by
  obtain ⟨hin, ⟨hx, hrow, rfl⟩ | ⟨hx, hrow, hcancel, rfl⟩ | ⟨hrow, hcancel, rfl⟩⟩ := scaleStep_next h
  · exact scaleStep_finishes (s := s.atTurn sch tick) hin hx hrow
  · exact scaleStep_cancels (s := s.atTurn sch tick) hin hx hrow hcancel
  · have hgoes : ¬(x = 0 ∧ s.ctrl.cancel = true) := fun ⟨hx, hset⟩ => by simp [hcancel hx] at hset
    rw [scaleStep_writes (s := s.atTurn sch tick) hin hrow hgoes, pixelStep_atTurn hold sch tick hcontested]

/-- Without a race no engine step draws (R74, R347). -/
theorem engineStep_atTurn {t : State} (h : engineStep s = .next t) :
    engineStep (s.atTurn sch tick) = .next (t.atTurn sch tick) :=
  (carriedAlong_atTurn hold sch tick).engineStep (fun _ _ _ => scaleStep_atTurn hold sch tick hcontested) h

end

end

theorem step_engineTurn (s : State) (sch : List Turn) :
    step { s with schedule := .engine :: sch } = tickOut (engineStep { s with schedule := sch }) := rfl

theorem step_of_schedule_nil {s : State} (hbusy : s.status.busy = true) (hsch : s.schedule = []) :
    step s = tickOut (engineStep s) := by
  simp only [step, takeTurn, hsch, hbusy, if_true, engineTurn]

theorem core_step_engineTurn (s : State) (sch : List Turn) (tick : Nat) :
    core.step (s.atTurn (.engine :: sch) tick) = tickOut (engineStep (s.atTurn sch tick)) := rfl

/-- A run of the machine starts with its first step. -/
theorem core_run_succ {n : Nat} {s t : State} (h : core.step s = .next t) : core.run (n + 1) s = core.run n t := by
  simp only [Host.Core.run, h]

/-- Engine steps in a row are steps of the machine on a schedule of engine turns, each of which counts one draw (R254, R255). -/
theorem run_engineTurns {n : Nat} {s t : State} (hold : s.race.srcOld = []) (hcontested : s.race.contested = [])
    (hrun : engineRun n s = .next t) (sch : List Turn) (tick : Nat) :
    core.run n (s.atTurn (List.replicate n .engine ++ sch) tick) = .next (t.atTurn sch (tick + n)) := by
  induction n generalizing s tick with
  | zero =>
    cases hrun
    rfl
  | succ n ih =>
    cases hstep : engineStep s with
    | next u =>
      rw [engineRun_succ hstep] at hrun
      have hrace := (engineStep_effect hstep).keeps.race
      have hturn : core.step (s.atTurn (List.replicate (n + 1) .engine ++ sch) tick) =
          .next (u.atTurn (List.replicate n .engine ++ sch) (tick + 1)) := by
        rw [List.replicate_succ, List.cons_append, core_step_engineTurn, engineStep_atTurn hold _ tick hcontested hstep]
        rfl
      have hrest := ih (hrace ▸ hold) (hrace ▸ hcontested) hrun (tick + 1)
      rw [Nat.add_right_comm] at hrest
      exact (core_run_succ hturn).trans hrest
    | fault f => simp [engineRun, hstep] at hrun
    | refused r => simp [engineRun, hstep] at hrun

/-- Settles O13: an engine turn is one engine step, and without a race the schedule and the count of draws only go along with a run. -/
theorem engineRunsAreMachineSteps : Obligations.EngineRunsAreMachineSteps := by
  refine ⟨step_engineTurn, fun s hbusy hsch => step_of_schedule_nil hbusy hsch, fun s => engineStep_of_idle,
    fun n s t sch hsch hold hcontested hrun => ?_⟩
  have hturns := run_engineTurns hold hcontested hrun sch s.tick
  rw [← hsch] at hturns
  exact hturns

end Sys2Proof.Machine
end

