-- ==== Sys2Proof/Proofs/RegisterReads.lean ====
section
/-! The host's turn at a RD and at a POLL (45_commands.md R257, 30_encoding.md R108). -/

namespace Sys2Proof.Machine

theorem hostLine_rd {o : BitVec 8} (ho : offsetAligned o = true) (s : State) : hostLine (.rd o) s = .next (hostRead o s) :=
  if_pos ho

theorem hostLine_poll_seen {o : BitVec 8} (ho : offsetAligned o = true) {mask value : Word} {s : State}
    (h : regRead s o &&& mask = value) : hostLine (.poll o mask value) s = .next (hostRead o s) := by
  rw [hostLine, if_pos ((lineWf_poll o mask value).trans ho)]
  exact if_pos h

theorem hostLine_poll_unseen {o : BitVec 8} (ho : offsetAligned o = true) {mask value : Word} {s : State}
    (h : regRead s o &&& mask ≠ value) :
    hostLine (.poll o mask value) s =
      .next { hostRead o s with program := .line (.poll o mask value) :: s.program } := by
  rw [hostLine, if_pos ((lineWf_poll o mask value).trans ho)]
  exact if_neg h

/-- Settles O9: the host's turn at a line is that line, and `hostRead` writes `rdata` only. -/
theorem registerReadsChangeNothing : Obligations.RegisterReadsChangeNothing := by
  intro s o rest sch haligned
  have ho : offsetAligned o = true := beq_iff_eq.2 haligned
  simp only [step_host_access, hostAccess]
  exact ⟨hostLine_rd ho (s.movedOn rest sch), fun mask value =>
    ⟨fun h => hostLine_poll_seen (s := s.movedOn rest sch) ho h,
      fun h => hostLine_poll_unseen (s := s.movedOn rest sch) ho h⟩⟩

end Sys2Proof.Machine
end

