-- ==== Sys2Proof/Proofs/LookupCommands.lean ====
section
/-! DIST and CLASSIFY that no host access disturbs, from the CMD write to the completion (40_color_distance_lut.md R127,
41_neighborhood_sampler.md R156, 45_commands.md R252, R253, R262, R264). -/

namespace Sys2Proof.Machine

/-! The start. -/

/-- `s` with the job `j` started, its LUT filled, the engine at the command's own step `e`, and these events (R251 to R253). -/
def State.lookupStarted (s : State) (j : Job) (e : Eng) (ev : List MemEvent) : State :=
  { s with
    job := j
    status := { busy := true, done := false, lutReady := true, ovr := s.status.ovr, err := .ok }
    ctrl := { s.ctrl with cancel := false }
    rowsDone := 0
    eng := e
    lut := lutFill s.build
    race := { before := s.mem, srcOld := [], contested := [] }
    events := ev }

/-- With or without a BUILD step a command that looks distances up reaches its own step with the LUT filled (R252, R253). -/
theorem lookup_starts {s : State} (hlut : LutSound s) (v : Word) {next : BuildNext} {e : Eng}
    (hnext : ∀ u, buildStep next u = { fillLut (noEvents u) with eng := e }) : ∃ ev,
    engineRun (if s.status.lutReady then 0 else 1) (startOrBuild next e (latch v s)) =
      .next (s.lookupStarted (jobOf (opcodeOf v) s.params) e ev) := by
  cases hready : s.status.lutReady with
  | true =>
    refine ⟨s.events, congrArg Host.Outcome.next ?_⟩
    simp [startOrBuild, startEngine, latch, State.lookupStarted, statusAccept, hready, ← hlut hready]
  | false =>
    refine ⟨[], ?_⟩
    have hstart : startOrBuild next e (latch v s) = startEngine (.build next) (latch v s) := by
      simp [startOrBuild, hready]
    have hstep : engineStep (startEngine (.build next) (latch v s)) =
        .next (buildStep next (startEngine (.build next) (latch v s))) := rfl
    rw [hstart]
    exact (engineRun_succ hstep).trans (by rw [hnext]; rfl)

/-- Of the run of such a command everything but its own step is the start (R262, R264). -/
theorem lookup_run {s t : State} (hlut : LutSound s) (v : Word) {next : BuildNext} {e : Eng}
    (hnext : ∀ u, buildStep next u = { fillLut (noEvents u) with eng := e })
    (hstep : ∀ ev, engineStep (s.lookupStarted (jobOf (opcodeOf v) s.params) e ev) = .next t) :
    engineRun (if s.status.lutReady then 1 else 2) (startOrBuild next e (latch v s)) = .next t := by
  obtain ⟨ev, hstart⟩ := lookup_starts hlut v hnext
  have hsteps : (if s.status.lutReady then 1 else 2) = (if s.status.lutReady then 0 else 1) + 1 := by split <;> rfl
  rw [hsteps]
  exact (engineRun_add hstart).trans (engineRun_succ (hstep ev))

/-! DIST. -/

/-- A LUT word as the number the engine looks up and back (R127). -/
theorem ofNat_entryDist (b : Build) (p q : Pixel) :
    BitVec.ofNat 32 (entryDist b p q) = entryWord b (lutIndex b.lutBits p q) := by
  simp [entryDist]

/-- The index of a pixel pair fits RESULT1 (R123, R262). -/
theorem toNat_ofNat_lutIndex (b : LutBits) (p q : Pixel) : (BitVec.ofNat 32 (lutIndex b p q)).toNat = lutIndex b p q := by
  have hsize : lutSize b ≤ 2 ^ 32 := by cases b <;> decide
  exact Nat.mod_eq_of_lt ((lutIndex_lt b p q).trans_le hsize)

/-- With the LUT filled the engine's distance is that of the entry function (R127, R130). -/
theorem distOf_eq_entryDist {s : State} (hlut : s.lut = lutFill s.build) : distOf s = entryDist s.build := by
  rw [distOf, hlut, lutDist_lutFill]

/-- DIST starts with its own step or with the BUILD step before it (R252, R262). -/
theorem startDist_eng (s : State) : (startDist s).eng = .dist ∨ (startDist s).eng = .build .dist :=
  ite_eq_or_eq _ _ _

/-- The first step of a DIST job records no memory event, whichever it is (R253, R262). -/
theorem startDist_step_events {s t : State} (h : engineStep (startDist s) = .next t) : t.events = [] := by
  refine (engineStep_effect h).events_nil (fun y x heng => ?_) (fun heng => ?_) rfl <;>
    rcases startDist_eng s with h | h <;> simp [heng] at h

/-- Settles O22: the DIST step reads the filled LUT at the index of its two pixels. -/
theorem distGivesDistanceAndIndex : Obligations.DistGivesDistanceAndIndex := by
  intro s hidle hlut
  set u := s.lookupStarted (jobOf (opcodeOf (encode .dist)) s.params) .dist []
  have hrun := lookup_run (t := distStep u) hlut (encode .dist) (next := .dist) (e := .dist) (fun _ => rfl) fun _ => rfl
  have hword : (distStep u).result0 =
      entryWord s.build (lutIndex s.build.lutBits (unpack s.params.arg0) (unpack s.params.arg1)) := by
    rw [distStep, complete_result0, distOf_eq_entryDist rfl]
    exact ofNat_entryDist s.build _ _
  refine ⟨_, distStep u, exec_of_valid hidle (validate_encode_dist _), hrun, fun _ => startDist_step_events, rfl, hword,
    fun hfits => ?_, toNat_ofNat_lutIndex s.build.lutBits _ _⟩
  rw [hword, entryWord_toNat hfits]

/-! CLASSIFY. -/

section
variable {s : State} (hold : s.race.srcOld = []) (hlut : s.lut = lutFill s.build)
include hold hlut

/-- With the LUT filled and no race the engine computes the signature of the image in memory (R176). -/
theorem signatureAt_eq_imageSignature (x y : Nat) : signatureAt s x y = imageSignature s.build s.mem s.job x y := by
  rw [signatureAt, distOf_eq_entryDist hlut, sample_eq_imageWindow hold, imageSignature]

/-- So it does the resolved rotations (R193). -/
theorem resolvedAt_eq_imageResolved (x y : Nat) : resolvedAt s x y = imageResolved s.build s.mem s.job x y := by
  rw [resolvedAt, signatureAt_eq_imageSignature hold hlut, kernelAt, distOf_eq_entryDist hlut, sample_eq_imageWindow hold,
    imageResolved]

end

/-- Settles O23: the CLASSIFY step computes from the image in memory, and its reads are those of the window. -/
theorem classifyGivesSignatureAndPatterns : Obligations.ClassifyGivesSignatureAndPatterns := by
  intro s hidle hlut hvalid
  refine ⟨_, exec_of_valid hidle ((validate_encode_classify _).trans hvalid), ?_⟩
  refine lookup_run hlut (encode .classify) (fun _ => rfl) fun ev => ?_
  have hop : opcodeOf (encode .classify) = 4 := by decide
  rw [hop]
  set u := s.lookupStarted (jobOf 4 s.params) .classify ev
  have hstep : engineStep u = .next (classifyResult u) := if_pos hvalid
  rw [hstep, classifyResult, signatureAt_eq_imageSignature rfl rfl, resolvedAt_eq_imageResolved rfl rfl, sourceReads_eq rfl]
  rfl

end Sys2Proof.Machine
end

