-- ==== Sys2Proof/Proofs/Completion.lean ====
section
/-! Every accepted command completes within its bound of engine steps (45_commands.md R271). -/

namespace Sys2Proof.Machine

/-- The job is over, with the outcome of a job that ran (R269, R270, R310). -/
structure JobOver (s : State) : Prop where
  busy : s.status.busy = false
  done : s.status.done = true
  err : s.status.err = .ok ∨ s.status.err = .cancelled

theorem jobOver_complete {code : ErrCode} (hcode : code = .ok ∨ code = .cancelled) (s : State) : JobOver (complete code s) :=
  ⟨rfl, rfl, hcode⟩

/-! One step of a running job. -/

theorem stepsLeft_pos {s : State} (heng : s.eng ≠ .idle) : 0 < stepsLeft s := by
  cases h : s.eng with
  | idle => exact absurd h heng
  | build next => cases next <;> simp [stepsLeft, h]
  | dist | classify | scale => simp [stepsLeft, h]

/-- At a pixel of the job's rows there are more steps left than at the pixel after it (R266, R269). -/
theorem stepsLeft_pixelStep_lt {s : State} {y x : Nat} (heng : s.eng = .scale y x) (hcursor : cursorInJob s.job y x = true)
    (hrow : y ≠ s.job.rowLast.toNat) : stepsLeft (pixelStep y x s) < stepsLeft s := by
  obtain ⟨-, -, hlast, hx, -⟩ := cursorInJob_iff.1 hcursor
  obtain ⟨r, hr⟩ : ∃ r, s.job.rowLast.toNat - y = r + 1 := ⟨s.job.rowLast.toNat - y - 1, by omega⟩
  have hr' : s.job.rowLast.toNat - (y + 1) = r := by omega
  rcases pixelStep_cursor y x s with ⟨hcol, he, -⟩ | ⟨-, he, -⟩ <;>
    simp only [stepsLeft, heng, he, pixelStep_job, hr, hr', Nat.succ_mul] <;>
    omega

theorem stepsLeft_buildStep_lt {s : State} {next : BuildNext} (heng : s.eng = .build next) (hnext : next ≠ .none) :
    stepsLeft (buildStep next s) < stepsLeft s := by
  cases next with
  | none => exact absurd rfl hnext
  | dist | classify => simp [stepsLeft, heng, buildStep]
  | scale => simp [stepsLeft, heng, buildStep, fillLut, noEvents]

/-- A step of a running job ends the job or leaves fewer steps (R271). -/
theorem EngineEffect.progress {s t : State} (h : EngineEffect s t) (hbusy : s.status.busy = true) :
    JobOver t ∨ t.status.busy = true ∧ stepsLeft t < stepsLeft s := by
  cases h with
  | waits hidle => simp [hbusy] at hidle
  | built _ next heng =>
    by_cases hnext : next = .none
    · subst hnext
      exact .inl (jobOver_complete (.inl rfl) _)
    · have hstays : (buildStep next s).status.busy = true := by
        cases next with
        | none => exact absurd rfl hnext
        | dist | classify | scale => exact hbusy
      exact .inr ⟨hstays, stepsLeft_buildStep_lt heng hnext⟩
  | measured | classified | finished => exact .inl (jobOver_complete (.inl rfl) _)
  | cancelled => exact .inl (jobOver_complete (.inr rfl) _)
  | wrote _ y x heng hcursor hrow =>
    exact .inr ⟨(congrArg Status.busy (pixelStep_status y x s)).trans hbusy, stepsLeft_pixelStep_lt heng hcursor hrow⟩

/-- The engine's step is not refused (R254). -/
theorem engineStep_ne_refused (s : State) (r : Refusal) : engineStep s ≠ .refused r := fun h =>
  engineTurn_ne_refused s r (by rw [engineTurn, h]; rfl)

/-- In a state of the invariant the engine takes a step (R254, R309). -/
theorem Invariant.engineStep_next {s : State} (hs : Invariant s) : ∃ t, engineStep s = .next t := by
  cases h : engineStep s with
  | next t => exact ⟨t, rfl⟩
  | fault f => exact absurd h (engineStep_ne_fault hs f)
  | refused r => exact absurd h (engineStep_ne_refused s r)

/-- A running job completes within `stepsLeft` engine steps (R271). -/
theorem Invariant.completes {s : State} (hs : Invariant s) (hbusy : s.status.busy = true) :
    ∃ n u, n ≤ stepsLeft s ∧ engineRun n s = .next u ∧ JobOver u := by
  induction hleft : stepsLeft s using Nat.strong_induction_on generalizing s with
  | _ left ih =>
    subst hleft
    obtain ⟨t, hstep⟩ := hs.engineStep_next
    have heffect := engineStep_effect hstep
    rcases heffect.progress hbusy with hover | ⟨hbusy', hlt⟩
    · exact ⟨1, t, stepsLeft_pos (hs.eng_ne_idle hbusy), engineRun_succ hstep, hover⟩
    · obtain ⟨n, u, hn, hrun, hover⟩ := ih _ hlt (invariant_engineEffect hs heffect) hbusy' rfl
      exact ⟨n + 1, u, by omega, (engineRun_succ hstep).trans hrun, hover⟩

/-! Commands. -/

/-- The most engine steps an accepted command takes (R271). -/
def commandBound (i : Instr) (j : Job) : Nat :=
  match i with
  | .nop => 0
  | .lutInit => 1
  | .dist => 2
  | .classify => 2
  | .scale => (j.rowLast.toNat - j.rowFirst.toNat) * j.w.toNat + 2

theorem stepsLeft_startOrBuild_le (next : BuildNext) (e : Eng) (s : State) :
    stepsLeft (startOrBuild next e s) ≤ max (stepsLeft { s with eng := e }) (stepsLeft { s with eng := .build next }) := by
  unfold startOrBuild
  split
  · exact le_max_left _ _
  · exact le_max_right _ _

theorem stepsLeft_startOf_le (i : Instr) (v : Word) (s : State) :
    stepsLeft (startOf i (latch v s)) ≤ commandBound i (jobOf (opcodeOf v) s.params) := by
  cases i with
  | nop => exact le_rfl
  | lutInit => exact le_rfl
  | dist => exact stepsLeft_startOrBuild_le _ _ _
  | classify => exact stepsLeft_startOrBuild_le _ _ _
  | scale =>
    refine (stepsLeft_startOrBuild_le _ _ _).trans (max_le ?_ le_rfl)
    exact Nat.le_succ _

/-- Every command but NOP starts the engine (R252). -/
theorem startOf_busy {i : Instr} (hi : i ≠ .nop) (s : State) : (startOf i s).status.busy = true := by
  cases i with
  | nop => exact absurd rfl hi
  | lutInit | dist | classify | scale => rfl

/-- An accepted command completes within its bound; LUT_INIT takes its one step (R271). -/
theorem Invariant.command_completes {s : State} (hs : Invariant s) (i : Instr)
    (hvalid : validate (encode i) (latch (encode i) s).job = .ok) :
    ∃ n u, engineRun n (startOf i (latch (encode i) s)) = .next u ∧ u.status.busy = false ∧ u.status.done = true ∧
      n ≤ commandBound i (jobOf (opcodeOf (encode i)) s.params) ∧ (i = .lutInit → n = 1) := by
  by_cases hnop : i = .nop
  · subst hnop
    exact ⟨0, _, rfl, rfl, rfl, Nat.zero_le _, nofun⟩
  · have hbusy := startOf_busy hnop (latch (encode i) s)
    obtain ⟨n, u, hn, hrun, hover⟩ := (invariant_startOf_latch hs i hvalid).completes hbusy
    have hbound := hn.trans (stepsLeft_startOf_le i (encode i) s)
    refine ⟨n, u, hrun, hover.busy, hover.done, hbound, ?_⟩
    rintro rfl
    have hmoves : n ≠ 0 := by
      rintro rfl
      cases hrun
      simp [hover.busy] at hbusy
    exact le_antisymm hbound (Nat.one_le_iff_ne_zero.2 hmoves)

theorem encode_injective : Function.Injective encode := fun i k h => by
  have hdecode := decodeWord_encode i
  rw [h, decodeWord_encode] at hdecode
  cases hdecode
  rfl

/-- Settles O60: each step of a running job leaves fewer steps, and a CMD write starts no job or one of bounded steps. -/
theorem everyCommandCompletesWithinItsBound : Obligations.EveryCommandCompletesWithinItsBound := by
  refine ⟨fun s hs hbusy => ?_, fun s v hs hidle => ?_⟩
  · obtain ⟨n, t, hn, hrun, hover⟩ := hs.completes hbusy
    exact ⟨n, t, hn, hrun, hover.busy, hover.done, hover.err⟩
  · rcases commandWrite_of_idle hidle v with ⟨i, rfl, hvalid, h⟩ | ⟨hrejected, h⟩
    · obtain ⟨n, u, hrun, hidle', hdone, hbound, hinit⟩ := hs.command_completes i hvalid
      refine ⟨_, n, u, h, hrun, hidle', hdone, ?_, fun hrejected => absurd hvalid hrejected, ?_, ?_, ?_⟩ <;>
        simp only [encode_injective.eq_iff]
      · rintro rfl
        exact Nat.le_zero.1 hbound
      · exact hinit
      · rintro (rfl | rfl) <;> exact hbound
      · rintro rfl
        exact hbound
    · refine ⟨_, 0, _, h, rfl, rfl, rfl, fun _ => rfl, fun _ => rfl, ?_, fun _ => Nat.zero_le _, fun _ => Nat.zero_le _⟩
      rintro rfl
      exact absurd (validate_encode_lutInit _) hrejected

end Sys2Proof.Machine
end

