-- ==== Sys2Proof/Proofs/Validation.lean ====
section
/-! What validation answers: the code of the first check that fails, for each command and for an illegal word (60_exceptions.md R301 to
R309). -/

namespace Sys2Proof.Machine

/-! The checks. -/

theorem badDimensions_iff {j : Job} :
    badDimensions j = true ↔ j.w.toNat = 0 ∨ j.h.toNat = 0 ∨ j.w.toNat * j.h.toNat * 4 ≠ j.srcLen.toNat := decide_eq_true_iff

theorem badRows_iff {j : Job} :
    badRows j = true ↔ j.rowFirst.toNat > j.rowLast.toNat ∨ j.rowLast.toNat > j.h.toNat := decide_eq_true_iff

theorem badCoordinates_iff {j : Job} :
    badCoordinates j = true ↔ j.arg0.toNat ≥ j.w.toNat ∨ j.arg1.toNat ≥ j.h.toNat := decide_eq_true_iff

theorem badFactor_iff {j : Job} :
    badFactor j = true ↔ j.n.toNat ≠ 2 ∧ j.n.toNat ≠ 3 ∧ j.n.toNat ≠ 4 ∧ j.n.toNat ≠ 5 ∧ j.n.toNat ≠ 6 := by
  simp [badFactor, supportedFactors]

theorem sourceWraps_iff {j : Job} : sourceWraps j = true ↔ j.srcBase.toNat + j.srcLen.toNat > 2 ^ 32 := decide_eq_true_iff

theorem badAllocation_iff {j : Job} :
    badAllocation j = true ↔ destBytes j > j.dstLen.toNat ∨ j.dstBase.toNat + destBytes j > 2 ^ 32 := decide_eq_true_iff

theorem regionsOverlap_iff {j : Job} :
    regionsOverlap j = true ↔
      j.srcBase.toNat < j.dstBase.toNat + destBytes j ∧ j.dstBase.toNat < j.srcBase.toNat + j.srcLen.toNat :=
  decide_eq_true_iff

/-! The first check that fails. -/

/-- Everything the checks of SCALE can give (R308, R309). -/
theorem validateScale_cases (j : Job) :
    ((badDimensions j = true ∨ badRows j = true) ∧ validateScale j = .invalidDimensions) ∨
    ¬(badDimensions j = true ∨ badRows j = true) ∧
      (badFactor j = true ∧ validateScale j = .unsupportedFactor ∨
      ¬badFactor j = true ∧
        (sourceWraps j = true ∧ validateScale j = .regionFault ∨
        ¬sourceWraps j = true ∧
          (badAllocation j = true ∧ validateScale j = .allocationFailure ∨
          ¬badAllocation j = true ∧
            (regionsOverlap j = true ∧ validateScale j = .regionFault ∨
            ¬regionsOverlap j = true ∧ validateScale j = .ok)))) := by
  simp only [validateScale, Bool.or_eq_true]
  split_ifs <;> simp [*]

/-- Everything the checks of CLASSIFY can give (R308, R309). -/
theorem validateClassify_cases (j : Job) :
    ((badDimensions j = true ∨ badCoordinates j = true) ∧ validateClassify j = .invalidDimensions) ∨
    ¬(badDimensions j = true ∨ badCoordinates j = true) ∧
      (sourceWraps j = true ∧ validateClassify j = .regionFault ∨
      ¬sourceWraps j = true ∧ validateClassify j = .ok) := by
  simp only [validateClassify, Bool.or_eq_true]
  split_ifs <;> simp [*]

/-- Each outcome of SCALE, by the checks (R308, R309). -/
theorem validateScale_iff (j : Job) :
    (validateScale j = .invalidDimensions ↔ badDimensions j = true ∨ badRows j = true) ∧
    (validateScale j = .unsupportedFactor ↔ ¬(badDimensions j = true ∨ badRows j = true) ∧ badFactor j = true) ∧
    (validateScale j = .allocationFailure ↔ ¬(badDimensions j = true ∨ badRows j = true) ∧ ¬badFactor j = true ∧
      ¬sourceWraps j = true ∧ badAllocation j = true) ∧
    (validateScale j = .regionFault ↔ ¬(badDimensions j = true ∨ badRows j = true) ∧ ¬badFactor j = true ∧
      (sourceWraps j = true ∨ ¬badAllocation j = true ∧ regionsOverlap j = true)) ∧
    (validateScale j = .ok ↔ ¬(badDimensions j = true ∨ badRows j = true) ∧ ¬badFactor j = true ∧ ¬sourceWraps j = true ∧
      ¬badAllocation j = true ∧ ¬regionsOverlap j = true) := by
  rcases validateScale_cases j with ⟨hdims, h⟩ | ⟨hdims, ⟨hfactor, h⟩ | ⟨hfactor, ⟨hwraps, h⟩ | ⟨hwraps, ⟨halloc, h⟩ |
    ⟨halloc, ⟨hoverlap, h⟩ | ⟨hoverlap, h⟩⟩⟩⟩⟩ <;>
    simp [*]

/-- Each outcome of CLASSIFY, by the checks (R308, R309). -/
theorem validateClassify_iff (j : Job) :
    (validateClassify j = .invalidDimensions ↔ badDimensions j = true ∨ badCoordinates j = true) ∧
    (validateClassify j = .regionFault ↔ ¬(badDimensions j = true ∨ badCoordinates j = true) ∧ sourceWraps j = true) ∧
    (validateClassify j = .ok ↔ ¬(badDimensions j = true ∨ badCoordinates j = true) ∧ ¬sourceWraps j = true) := by
  rcases validateClassify_cases j with ⟨hdims, h⟩ | ⟨hdims, ⟨hwraps, h⟩ | ⟨hwraps, h⟩⟩ <;> simp [*]

/-- The word of a command is never reported as illegal (R306). -/
theorem validate_encode_ne_illegalCommand (i : Instr) (j : Job) : validate (encode i) j ≠ .illegalCommand := by
  cases i with
  | nop => simp [validate_encode_nop]
  | lutInit => simp [validate_encode_lutInit]
  | dist => simp [validate_encode_dist]
  | scale =>
    rw [validate_encode_scale]
    rcases validateScale_cases j with ⟨-, h⟩ | ⟨-, ⟨-, h⟩ | ⟨-, ⟨-, h⟩ | ⟨-, ⟨-, h⟩ | ⟨-, ⟨-, h⟩ | ⟨-, h⟩⟩⟩⟩⟩ <;> simp [h]
  | classify =>
    rw [validate_encode_classify]
    rcases validateClassify_cases j with ⟨-, h⟩ | ⟨-, ⟨-, h⟩ | ⟨-, h⟩⟩ <;> simp [h]

/-- ILLEGAL_COMMAND is reported for the illegal words (R106, R306). -/
theorem validate_illegalCommand_iff {v : Word} {j : Job} :
    validate v j = .illegalCommand ↔ v.extractLsb' 8 24 ≠ 0#24 ∨ 4 < (v.extractLsb' 0 8).toNat := by
  rw [← decodeWord_eq_error_iff]
  refine ⟨fun h => ?_, fun ⟨_, hdecode⟩ => validate_illegal j hdecode⟩
  cases hdecode : decodeWord v with
  | error e => exact ⟨e, rfl⟩
  | ok i =>
    rw [eq_encode_of_decodeWord hdecode] at h
    exact absurd h (validate_encode_ne_illegalCommand i j)

/-- Settles O17: the outcomes of SCALE and of CLASSIFY by their checks, each check being its condition, and those of the other words. -/
theorem validationReportsTheFirstFailingCheck : Obligations.ValidationReportsTheFirstFailingCheck := by
  intro v j W H N D dims rows coords factor wraps alloc overlap
  have hdims : badDimensions j = true ↔ dims := badDimensions_iff
  have hrows : badRows j = true ↔ rows := badRows_iff
  have hcoords : badCoordinates j = true ↔ coords := badCoordinates_iff
  have hfactor : badFactor j = true ↔ factor := badFactor_iff
  have hwraps : sourceWraps j = true ↔ wraps := sourceWraps_iff
  have halloc : badAllocation j = true ↔ alloc := badAllocation_iff
  have hoverlap : regionsOverlap j = true ↔ overlap := regionsOverlap_iff
  simp only [← hdims, ← hrows, ← hcoords, ← hfactor, ← hwraps, ← halloc, ← hoverlap]
  refine ⟨validate_illegalCommand_iff, fun hv => ?_, ?_, ?_⟩
  · simp only [List.mem_cons, List.not_mem_nil, or_false] at hv
    rcases hv with rfl | rfl | rfl
    · exact validate_encode_nop j
    · exact validate_encode_lutInit j
    · exact validate_encode_dist j
  · rintro rfl
    rw [validate_encode_scale]
    exact validateScale_iff j
  · rintro rfl
    rw [validate_encode_classify]
    exact validateClassify_iff j

/-! The overlap check. -/

/-- Two regions that are not empty share a byte exactly when each begins before the other ends (R305). -/
theorem exists_shared_byte_iff {a b m n : Nat} (hm : 0 < m) (hn : 0 < n) :
    (∃ k, (a ≤ k ∧ k < a + m) ∧ (b ≤ k ∧ k < b + n)) ↔ a < b + n ∧ b < a + m :=
  ⟨fun ⟨k, hk⟩ => by omega, fun h => ⟨max a b, by omega⟩⟩

theorem badDimensions_eq_false {j : Job} (h : badDimensions j = false) :
    j.w.toNat ≠ 0 ∧ j.h.toNat ≠ 0 ∧ j.w.toNat * j.h.toNat * 4 = j.srcLen.toNat := by
  rw [← Bool.not_eq_true, badDimensions_iff] at h
  push Not at h
  exact h

theorem srcLen_pos_of_dimensions {j : Job} (hdims : badDimensions j = false) : 0 < j.srcLen.toNat := by
  obtain ⟨hw, hh, hsize⟩ := badDimensions_eq_false hdims
  rw [← hsize]
  positivity

theorem destBytes_pos_of_dimensions {j : Job} (hdims : badDimensions j = false) (hfactor : badFactor j = false) :
    0 < destBytes j := by
  obtain ⟨hw, hh, -⟩ := badDimensions_eq_false hdims
  have hn : j.n.toNat ≠ 0 := fun hn => by simp [badFactor, hn, supportedFactors] at hfactor
  unfold destBytes
  positivity

/-- Settles O18: neither region is empty, so the inequalities of the overlap check find a shared byte. -/
theorem overlapCheckFindsASharedByte : Obligations.OverlapCheckFindsASharedByte := by
  intro j hdims hrows hfactor hwraps halloc
  have hfault : validateScale j = .regionFault ↔ regionsOverlap j = true := by
    obtain ⟨-, -, -, hregion, -⟩ := validateScale_iff j
    simpa [hdims, hrows, hfactor, hwraps, halloc] using hregion
  rw [validate_encode_scale, hfault, regionsOverlap_iff]
  exact (exists_shared_byte_iff (srcLen_pos_of_dimensions hdims) (destBytes_pos_of_dimensions hdims hfactor)).symm

/-! Illegal words. -/

/-- Settles O16: validation rejects the word, which completes from the latched state. -/
theorem illegalWordCompletesAtOnce : Obligations.IllegalWordCompletesAtOnce := by
  intro s v hidle hillegal
  have hcode : validate v (latch v s).job = .illegalCommand := validate_illegalCommand_iff.2 hillegal
  rcases commandWrite_of_idle hidle v with ⟨i, -, hvalid, -⟩ | ⟨-, h⟩
  · rw [hcode] at hvalid
    cases hvalid
  · rw [h, hcode]
    rfl

end Sys2Proof.Machine
end

