-- ==== Sys2Proof/Proofs/LastSteps.lean ====
section
/-! The engine step that ends a job (60_exceptions.md R310, 45_commands.md R264, R269, R270). -/

namespace Sys2Proof.Machine

/-- `t` is `s` after the last step of its job: the sequencer is idle, and of memory and ROWS_DONE nothing has changed. The only memory
events are the reads of a CLASSIFY step (R264, R269, R270, R310). -/
structure LastStep (s t : State) : Prop where
  eng : t.eng = .idle
  rowsDone : t.rowsDone = s.rowsDone
  mem : t.mem = s.mem
  events : t.events = [] ∨ s.eng = .classify ∧ t.events = sourceReads s s.job.arg0.toNat s.job.arg1.toNat

/-- A step after which BUSY = 0 is the last one of the running job (R310). -/
theorem EngineEffect.lastStep {s t : State} (h : EngineEffect s t) (hbusy : s.status.busy = true)
    (hidle : t.status.busy = false) : LastStep s t := by
  cases h with
  | waits hidle' => simp [hbusy] at hidle'
  | built _ next =>
    cases next with
    | none => exact ⟨rfl, rfl, rfl, .inl rfl⟩
    | dist | classify | scale => exact absurd hidle (by simpa [buildStep, fillLut, noEvents] using hbusy)
  | classified _ heng => exact ⟨rfl, rfl, rfl, .inr ⟨heng, rfl⟩⟩
  | measured | finished | cancelled => exact ⟨rfl, rfl, rfl, .inl rfl⟩
  | wrote _ y x => simp [pixelStep_status, hbusy] at hidle

theorem LastStep.write_not_mem_events {s t : State} (h : LastStep s t) (a : Nat) (p : Pixel) : .write a p ∉ t.events := by
  rcases h.events with hnil | ⟨-, hreads⟩
  · simp [hnil]
  · rw [hreads]
    exact write_not_mem_sourceReads s _ _ a p

theorem LastStep.events_nil {s t : State} (h : LastStep s t) (hclassify : s.eng ≠ .classify) : t.events = [] :=
  h.events.resolve_right fun hreads => hclassify hreads.1

/-- Settles O19: the step is the last one of its job, and with BUSY = 0 a load reads memory as it is. -/
theorem completionIsPrecise : Obligations.CompletionIsPrecise := by
  intro s t hbusy hstep hidle
  have heffect := engineStep_effect hstep
  have hlast := heffect.lastStep hbusy hidle
  have hover : JobOver t := (heffect.progress hbusy).resolve_right fun ⟨hbusy', _⟩ => by simp [hidle] at hbusy'
  have hkeeps := heffect.keeps
  refine ⟨hover.done, hlast.eng, hover.err, hkeeps.job, hlast.rowsDone, hkeeps.ovr, hkeeps.irqEn, hlast.mem,
    hlast.write_not_mem_events, hlast.events_nil, fun a => ?_⟩
  rw [hostLoad_of_not_busy hidle, hlast.mem]

end Sys2Proof.Machine
end

