-- ==== Sys2Proof/Proofs/Interrupt.lean ====
section
/-! The interrupt line, and what raises and clears it (60_exceptions.md R320). -/

namespace Sys2Proof.Machine

theorem getLsbD_ctrlWord_zero (c : Ctrl) : (ctrlWord c).getLsbD 0 = c.irqEn := by
  simp only [ctrlWord, BitVec.getLsbD_append]
  simp

theorem getLsbD_statusWord_one (t : Status) : (statusWord t).getLsbD 1 = t.done := by
  simp only [statusWord, BitVec.getLsbD_append]
  simp

theorem irq_of_not_done {s : State} (h : s.status.done = false) : irq s = false := by simp [irq, h]

theorem irq_of_disabled {s : State} (h : s.ctrl.irqEn = false) : irq s = false := by simp [irq, h]

/-- A START that sets BUSY leaves DONE as acceptance has cleared it (R251, R252). -/
theorem startOf_latch_not_done {i : Instr} {v : Word} {s : State} (hbusy : (startOf i (latch v s)).status.busy = true) :
    (startOf i (latch v s)).status.done = false := by
  cases i with
  | nop => cases hbusy
  | lutInit | dist | classify | scale => rfl

/-- A command that starts the engine has been accepted, and its DONE is cleared (R251, R252). -/
theorem exec_starts_not_done {i : Instr} {s t : State} (hidle : s.status.busy = false) (h : exec i s = .next t)
    (hbusy : t.status.busy = true) : t.status.done = false := by
  rw [exec_eq_issue_startOf] at h
  cases h
  rcases issue_cases (encode i) (startOf i) s with ⟨hbusy', -⟩ | ⟨-, -, hstart⟩ | ⟨-, -, hrejected⟩
  · simp [hidle] at hbusy'
  · rw [hstart] at hbusy ⊢
    exact startOf_latch_not_done hbusy
  · rw [hrejected] at hbusy
    cases hbusy

/-- Settles O11: `irq` reads two bits of the flag words, and each event writes one of the two fields. -/
theorem irqIsEnableAndDone : Obligations.IrqIsEnableAndDone := by
  refine ⟨fun s => ?_, fun s c => Bool.and_true _, fun s t v hv h => ?_, fun s t v hv h => ?_,
    fun i s t hidle h hbusy => irq_of_not_done (exec_starts_not_done hidle h hbusy)⟩
  · exact congrArg₂ _ (getLsbD_ctrlWord_zero s.ctrl).symm (getLsbD_statusWord_one s.status).symm
  · rw [hostWrite_status] at h
    cases h
    exact irq_of_not_done (by simp [statusWrite, hv])
  · rw [hostWrite_ctrl] at h
    cases h
    exact irq_of_disabled hv

end Sys2Proof.Machine
end

