-- ==== Sys2Proof/Proofs/ResetAndHazards.lean ====
section
/-! What a reset leaves in host memory and in the block, and that an engine step does not look at the parameter registers
(70_reset_and_hazards.md R340, R341, R348). -/

namespace Sys2Proof.Machine

/-! Host memory after a reset. -/

theorem mem_destAddrs_iff {j : Job} {a : Nat} : a ∈ destAddrs j ↔ inDest j a = true := by
  refine ⟨destAddrs_in_dest j a, fun ha => ?_⟩
  obtain ⟨hlow, hhigh⟩ := inDest_iff.1 ha
  exact List.mem_map.2 ⟨a - dstLow j, List.mem_range.2 (by omega), by omega⟩

/-- A torn byte is the byte as it is, as it was before the job, or as the job writes it (R341, U13). -/
theorem tornByte_allowed (s : State) (a : Nat) :
    tornByte s a = memRead s.mem a ∨ tornByte s a = memRead s.race.before a ∨ tornByte s a = jobByteAt s a := by
  simpa [tornByte] using getD_mod_mem (l := [memRead s.mem a, memRead s.race.before a, jobByteAt s a]) (List.cons_ne_nil _ _)
    (Config.tornRace s.tick a) (memRead s.mem a)

/-- Reset tears the bytes of a running SCALE job's rows, each once. -/
theorem memAfterReset_of_scale {s : State} (hbusy : s.status.busy = true) (hop : s.job.op = 2) :
    memAfterReset s = memWriteAll s.mem ((destAddrs s.job).map fun a => (a, tornByte s a)) := by
  simp only [memAfterReset, hbusy, hop, memWriteAll, List.foldl_map, BEq.rfl, Bool.and_self, if_true]

theorem memRead_memAfterReset_of_outside {s : State} {a : Nat} (ha : inDest s.job a = false) :
    memRead (memAfterReset s) a = memRead s.mem a := by
  unfold memAfterReset
  split
  next =>
    refine memRead_foldl_memWrite_ne _ id _ s.mem fun c hc hac => ?_
    rw [hac] at ha
    exact Bool.false_ne_true (ha.symm.trans (destAddrs_in_dest s.job c hc))
  next => rfl

theorem memRead_memAfterReset_of_writesByte {s : State} (hs : Invariant s) {a : Nat} (h : writesByte s a = true) :
    memRead (memAfterReset s) a = tornByte s a := by
  obtain ⟨hbusy, hop, ha⟩ := writesByte_iff.1 h
  rw [memAfterReset_of_scale hbusy hop]
  refine memRead_memWriteAll_of_mem hs.memory (fun c hc => ?_) (fun c hc hca => ?_)
    ⟨_, List.mem_map_of_mem (mem_destAddrs_iff.2 ha), rfl⟩
  all_goals obtain ⟨x, hx, rfl⟩ := List.mem_map.1 hc
  · exact lt_addrSpace_of_inDest (hs.scaleValid hbusy hop) (mem_destAddrs_iff.1 hx)
  · exact congrArg (tornByte s) hca

/-- Settles O5: reset writes no byte unless a SCALE job runs, and then one torn byte at each address of its rows. -/
theorem resetLeavesHostMemoryOutsideARunningJob : Obligations.ResetLeavesHostMemoryOutsideARunningJob := by
  refine fun s a hs => ⟨fun hout => ?_, fun hbusy hop ha => ?_⟩
  · rcases hout with hidle | hop | ha
    · rw [resetTurn_mem, memAfterReset_of_no_scale (.inl hidle)]
    · rw [resetTurn_mem, memAfterReset_of_no_scale (.inr hop)]
    · exact memRead_memAfterReset_of_outside ha
  · rw [resetTurn_mem, memRead_memAfterReset_of_writesByte hs (writesByte_iff.2 ⟨hbusy, hop, ha⟩)]
    exact tornByte_allowed s a

/-! The parameter registers. -/

/-- `s` with the next job's parameters programmed (R348). -/
def State.withParams (p : Params) (s : State) : State := { s with params := p }

theorem carriedAlong_withParams (p : Params) (s : State) : CarriedAlong (State.withParams p) s where
  status := rfl
  eng := rfl
  job := rfl
  build n := by cases n <;> rfl
  dist := rfl
  classify := rfl

theorem pixelStep_withParams (p : Params) (y x : Nat) (s : State) :
    pixelStep y x (s.withParams p) = (pixelStep y x s).withParams p := by
  simp only [pixelStep, advanceCursor, apply_ite (State.withParams p)]
  rfl

/-- The cursor, the rows and the block of a SCALE step come from JOB (R40, R266). -/
theorem scaleStep_withParams (p : Params) {y x : Nat} {s t : State} (h : scaleStep y x s = .next t) :
    scaleStep y x (s.withParams p) = .next (t.withParams p) := by
  obtain ⟨hin, ⟨hx, hrow, rfl⟩ | ⟨hx, hrow, hcancel, rfl⟩ | ⟨hrow, hgoes, rfl⟩⟩ := scaleStep_next h
  · exact scaleStep_finishes (s := s.withParams p) hin hx hrow
  · exact scaleStep_cancels (s := s.withParams p) hin hx hrow hcancel
  · have hkeeps : ¬(x = 0 ∧ s.ctrl.cancel = true) := fun ⟨hx, hset⟩ => by simp [hgoes hx] at hset
    rw [scaleStep_writes (s := s.withParams p) hin hrow hkeeps, pixelStep_withParams]

/-- Settles O31: every engine step carries the parameter registers along. -/
theorem runningJobIgnoresParameterRegisters : Obligations.RunningJobIgnoresParameterRegisters :=
  fun s _ p => (carriedAlong_withParams p s).engineStep fun _ _ _ => scaleStep_withParams p

/-! The block after a reset. -/

theorem ctrlWord_resetOf (b : Build) : ctrlWord (State.resetOf b).ctrl = 0 := by simp [ctrlWord, State.resetOf]

theorem statusWord_resetOf (b : Build) :
    statusWord (State.resetOf b).status = if b.lutStatic = true then 0x00000004#32 else 0 := by
  cases h : b.lutStatic <;> simp [statusWord, State.resetOf, errBits, h]

/-- Of the registers only ID, CFG and, in a static build, STATUS do not read 0 after reset (R340). -/
theorem regRead_resetOf (b : Build) (o : BitVec 8) : regRead (State.resetOf b) o =
    if o = 0x00 then 0x5A524278#32
    else if o = 0x04 then cfgWord b
    else if o = 0x0C ∧ b.lutStatic = true then 0x00000004#32 else 0 := by
  simp only [← BitVec.toNat_inj (x := o), BitVec.reduceToNat]
  unfold regRead
  split
  case h_3 ho | h_4 ho => simp [ho, ctrlWord_resetOf, statusWord_resetOf]
  -- every other offset reads 0, and is none of the three named
  case h_19 => simp_all
  all_goals
    rename_i ho
    rw [ho]
    rfl

/-- Settles O4: the reset turn takes the reset state of the build for everything but host memory and the host's side of the bus. -/
theorem resetSetsEveryPieceOfState : Obligations.ResetSetsEveryPieceOfState := by
  intro s
  refine ⟨_, rfl, rfl, rfl, rfl, rfl, rfl, rfl, rfl, rfl, rfl, rfl, rfl, rfl, rfl, rfl, fun hstatic k hk => ?_,
    irq_of_not_done rfl, regRead_resetOf s.build⟩
  have hlut : (State.resetOf s.build).lut = lutFill s.build := lutSound_resetOf s.build hstatic
  have hword : lutRead (State.resetOf s.build).lut k = entryWord s.build k := by rw [hlut, lutRead_lutFill hk]
  exact ⟨hword, fun hfits => by rw [← entryWord_toNat hfits, ← hword]; rfl⟩

end Sys2Proof.Machine
end
